-- ==== Sys2Proof/Word.lean ====
section
/-! DEFINITION. The words of SPI-BTCF: line levels, bytes, addresses (spec/00_scope.md R6), and the three numbers of
table P1 that their widths are made of (R5, R10). -/

namespace Sys2Proof

namespace Config

/-- `BYTE_BITS`: bits per exchange (R5). -/
abbrev byteBits : Nat := 8
/-- `ADDR_BYTES`: address bytes of a frame that carries one (R5). -/
abbrev addrBytes : Nat := 3
/-- Width of an address in bits: `ADDR_BYTES` bytes (R5). -/
abbrev addrBits : Nat := byteBits * addrBytes

end Config

/-- The level of one line: `false` is 0 (low), `true` is 1 (high) (R6). -/
abbrev Level := Bool

/-- A byte: bits 7 (most significant) down to 0, eight by the meaning of the word (R6). -/
abbrev Byte := BitVec 8

/-- The address operand of a frame: `ADDR_BYTES` bytes, so that a wider value cannot be written (R104). -/
abbrev Addr := BitVec Config.addrBits

end Sys2Proof
end

