-- ==== Sys2Proof/Config.lean ====
section
/-! DEFINITION. The constants of table P1 and the parameters of an instance (spec/00_scope.md R5, R10, R11),
and the free values (log 8, log 9). -/

namespace Sys2Proof

namespace Config

/-- `SECTOR_SIZE`: the erase granule in bytes (R5, R61). -/
def sectorSize : Nat := 4096
/-- What an erased byte holds (R67, R68). -/
def erasedByte : Byte := 0xFF#8
/-- The byte the block sends for every inbound payload byte (R105, R141). -/
def dummyByte : Byte := 0x00#8
/-- `WRSR_VALUE`: the payload of `ResetWriteProtection`'s write-status frame (R5, R217). -/
def wrsrValue : Byte := 0x00#8
/-- `OPC_READ` (R106). -/
def opcRead : Byte := 0x03#8
/-- `OPC_PROGRAM` (R106). -/
def opcProgram : Byte := 0x02#8
/-- `OPC_WREN` (R106). -/
def opcWren : Byte := 0x06#8
/-- `OPC_RDSR` (R106). -/
def opcRdsr : Byte := 0x05#8
/-- `OPC_CE` (R106; the parallel reading of R115). -/
def opcCe : Byte := 0x60#8
/-- `OPC_SE` (R106; the parallel reading of R115). -/
def opcSe : Byte := 0x20#8
/-- `OPC_EWSR` (R106). -/
def opcEwsr : Byte := 0x50#8
/-- `OPC_WRSR` (R106). -/
def opcWrsr : Byte := 0x01#8

/-- FREE VALUE (log 8): the bit of draw number `n`, wherever the spec says `draw`. No body: nothing constrains it. -/
opaque freeBit : Nat → Bool

/-- FREE VALUE (log 9): the duration of a program or erase, in machine steps; R70 does not bound it. -/
opaque freeDelay : Nat → Nat

end Config

/-- `TRANSPORT_IMPL`: which of the two BitTransport implementations drives the lines (R5, R144). -/
inductive Transport where
  | bitbang
  | peripheral
deriving DecidableEq, Repr

/-- What is at the other end of the bus: the reference device of spec/20_memory.md, or an unconstrained oracle
that answers every data-in bit (R3). -/
inductive DeviceKind where
  | reference
  | oracle
deriving DecidableEq, Repr

/-- The OPEN parameters of table P1, fixed for the life of an instance (R5, R32; log 3). -/
structure Params where
  /-- `TRANSPORT_IMPL` -/
  transport : Transport
  /-- `CAPACITY` in bytes -/
  capacity : Nat
  /-- `BUSY_BIT` -/
  busyBit : Fin 8
  /-- `WEL_BIT` -/
  welBit : Fin 8
  /-- `BP_MASK` -/
  bpMask : Byte
  /-- `POLL_BUDGET`; `none` is unbounded -/
  pollBudget : Option Nat
  /-- `WRSR_BUSY` of spec/93 U9; `false` is R84's own rule (log 20) -/
  wrsrBusy : Bool
  /-- reference device or oracle (R3) -/
  device : DeviceKind
deriving DecidableEq, Repr

/-- The values the spec suggests for the open parameters (table P1), PRESUMED from the family; the implementation
and the kind of device are a DESIGN CHOICE (log 3). -/
def Params.suggested : Params where
  transport := .bitbang
  capacity := 2097152
  busyBit := 0
  welBit := 1
  bpMask := 0x3C#8
  pollBudget := none
  wrsrBusy := false
  device := .reference

end Sys2Proof
end

