-- ==== Sys2Proof/Syntax.lean ====
section
/-! DEFINITION. The instruction set: the eight command frames (spec/30_encoding.md R106, R107, R110), and the
arguments of a `Transaction` (spec/41_command_framer.md R170). -/

namespace Sys2Proof

/-- The eight command frames (R110). One constructor per row of spec/opcode_table.json. -/
inductive Instr where
  /-- READ a, n: read `n` bytes from address `a` (R175) -/
  | read (a : Addr) (n : Nat)
  /-- PROGRAM a, v: program the byte at `a` (R176) -/
  | program (a : Addr) (v : Byte)
  /-- WREN: set the write-enable latch (R177) -/
  | wren
  /-- RDSR: read the status register (R178) -/
  | rdsr
  /-- CE: erase the whole array (R179) -/
  | ce
  /-- SE a: erase the sector that holds `a` (R180) -/
  | se (a : Addr)
  /-- EWSR: permit the next WRSR (R181) -/
  | ewsr
  /-- WRSR v: write the protection bits (R182) -/
  | wrsr (v : Byte)
deriving DecidableEq, Repr

/-- The direction of a payload: inbound is device to block, outbound block to device (R26). -/
inductive Dir where
  | inbound
  | outbound
deriving DecidableEq, Repr

/-- The arguments of `Transaction(opc, addr, dir, buf)` (R170). For an inbound payload only the length of `buf`
matters (R27). -/
structure Request where
  opc : Byte
  addr : Option Addr
  dir : Dir
  buf : List Byte
deriving DecidableEq, Repr

end Sys2Proof
end

