-- ==== Sys2Proof/WellFormed.lean ====
section
/-! DEFINITION. What is well formed: an instruction, a `Transaction`'s arguments (table SHAPE), an address operand,
the parameters. -/

namespace Sys2Proof

/-- Every command is well formed: the operand types already say what R104 and R110 ask (24-bit address, 8-bit
data, any natural length). One arm per constructor, so that a new command must be thought about. -/
def Instr.wf : Instr → Bool
  | .read _ _ => true
  | .program _ _ => true
  | .wren => true
  | .rdsr => true
  | .ce => true
  | .se _ => true
  | .ewsr => true
  | .wrsr _ => true

/-- The direction check of table SHAPE: with no payload byte the direction is immaterial (R110; log 21). -/
def Request.dirOk (r : Request) (d : Dir) : Bool :=
  r.buf.isEmpty || r.dir == d

/-- Table SHAPE of R107: which argument combinations of `Transaction` are admitted. -/
def Request.admitted (r : Request) : Bool :=
  if r.opc = Config.opcRead then r.addr.isSome && r.dirOk .inbound
  else if r.opc = Config.opcProgram then r.addr.isSome && r.buf.length == 1 && r.dirOk .outbound
  else if r.opc = Config.opcRdsr then r.addr.isNone && r.buf.length == 1 && r.dirOk .inbound
  else if r.opc = Config.opcWrsr then r.addr.isNone && r.buf.length == 1 && r.dirOk .outbound
  else if r.opc = Config.opcSe then r.addr.isSome && r.buf.isEmpty
  else if r.opc = Config.opcWren then r.addr.isNone && r.buf.isEmpty
  else if r.opc = Config.opcCe then r.addr.isNone && r.buf.isEmpty
  else if r.opc = Config.opcEwsr then r.addr.isNone && r.buf.isEmpty
  else false

/-- An address operand, as a caller gives it, fits the address width of a frame (R104, R264(2)). -/
def addrFits (a : Nat) : Bool := decide (a < 2 ^ Config.addrBits)

/-- The constraints of R11 on the parameters. -/
def Params.wf (p : Params) : Bool :=
  p.busyBit != p.welBit
  && !p.bpMask.getLsbD p.busyBit.val
  && !p.bpMask.getLsbD p.welBit.val
  && decide (0 < p.capacity)
  && p.capacity % Config.sectorSize == 0
  && decide (p.capacity ≤ 2 ^ Config.addrBits)
  && p.pollBudget != some 0

end Sys2Proof
end

