-- ==== Sys2Proof/Decode.lean ====
section
/-! DEFINITION. The frame decoder, total on every byte list (spec/30_encoding.md R111), the encoder (R104, R110),
`ExtractPayload` (R116), and the host's view of one opcode-table row. -/

namespace Sys2Proof

/-- Why a byte list is no admitted frame (R111). -/
inductive Illegal where
  | empty
  | length
  | opcode
deriving DecidableEq, Repr

/-- The decoder's verdict (R111). -/
inductive Decoded where
  | command (i : Instr)
  | illegal (why : Illegal)
deriving DecidableEq, Repr

/-! ### The address bytes (R104) -/

/-- Byte `k` of an address, byte 0 the least significant: `A[23:16]`, `A[15:8]`, `A[7:0]` for `k` = 2, 1, 0. -/
def addrByte (k : Nat) (a : Addr) : Byte := a.extractLsb' (Config.byteBits * k) Config.byteBits
/-- The places of the address bytes in the order sent, most significant first (R62). -/
def addrPlaces : List (Fin Config.addrBytes) := (List.finRange Config.addrBytes).reverse
/-- The `ADDR_BYTES` address bytes in the order sent. -/
def addrBytesOf (a : Addr) : List Byte := addrPlaces.map fun k => addrByte k.val a
/-- `A = byte1 * 65536 + byte2 * 256 + byte3`: the address of the bytes in the order sent. -/
def joinAddr (bs : List Byte) : Addr :=
  BitVec.ofNat Config.addrBits (bs.foldl (fun n b => n * 2 ^ Config.byteBits + b.toNat) 0)

/-! ### The decoder (R111) -/

/-- A frame of one byte: the opcode alone (format O). -/
def decodeO (i : Instr) : List Byte → Decoded
  | [] => .command i
  | _ => .illegal .length

/-- A frame of two bytes (format OP). -/
def decodeOP (f : Byte → Instr) : List Byte → Decoded
  | [v] => .command (f v)
  | _ => .illegal .length

/-- The opcode and the address bytes, nothing else (format OA). -/
def decodeOA (f : Addr → Instr) (rest : List Byte) : Decoded :=
  if rest.length = Config.addrBytes then .command (f (joinAddr rest)) else .illegal .length

/-- The address bytes and one payload byte (format OAP, outbound). -/
def decodeOAP (f : Addr → Byte → Instr) (rest : List Byte) : Decoded :=
  match rest.drop Config.addrBytes with
  | [v] => .command (f (joinAddr (rest.take Config.addrBytes)) v)
  | _ => .illegal .length

/-- The address bytes and any number of dummies (format OAP, inbound). -/
def decodeOAN (f : Addr → Nat → Instr) (rest : List Byte) : Decoded :=
  if Config.addrBytes ≤ rest.length then
    .command (f (joinAddr (rest.take Config.addrBytes)) (rest.length - Config.addrBytes))
  else .illegal .length

/-- `DecodeFrame` of R111: the bytes seen on `DO` in one frame, back to a command or a named verdict. -/
def decodeFrame : List Byte → Decoded
  | [] => .illegal .empty
  | opc :: rest =>
    if opc = Config.opcWren then decodeO .wren rest
    else if opc = Config.opcEwsr then decodeO .ewsr rest
    else if opc = Config.opcCe then decodeO .ce rest
    else if opc = Config.opcRdsr then decodeOP (fun _ => .rdsr) rest
    else if opc = Config.opcWrsr then decodeOP .wrsr rest
    else if opc = Config.opcSe then decodeOA .se rest
    else if opc = Config.opcProgram then decodeOAP .program rest
    else if opc = Config.opcRead then decodeOAN .read rest
    else .illegal .opcode

/-- The decoder's verdict on what lies between `CS(0)` and `CS(1)`: `pulses` clock pulses, of which `outs` are the whole
bytes. A pulse count that is no multiple of 8 is `Illegal(Length)` (R109). -/
def decodePulses (pulses : Nat) (outs : List Byte) : Decoded :=
  if pulses % Config.byteBits = 0 then decodeFrame outs else .illegal .length

/-! ### The encoder (R110) -/

/-- `n` places to fill; what they hold before is irrelevant (R27). -/
def places (n : Nat) : List Byte := List.replicate n Config.dummyByte

/-- `EncodeFrame` of R110: a command's `Transaction` arguments. -/
def encodeFrame : Instr → Request
  | .read a n => ⟨Config.opcRead, some a, .inbound, places n⟩
  | .program a v => ⟨Config.opcProgram, some a, .outbound, [v]⟩
  | .wren => ⟨Config.opcWren, none, .outbound, []⟩
  | .rdsr => ⟨Config.opcRdsr, none, .inbound, places 1⟩
  | .ce => ⟨Config.opcCe, none, .outbound, []⟩
  | .se a => ⟨Config.opcSe, some a, .outbound, []⟩
  | .ewsr => ⟨Config.opcEwsr, none, .outbound, []⟩
  | .wrsr v => ⟨Config.opcWrsr, none, .outbound, [v]⟩

/-- The payload bytes on `DO`: the buffer outbound, one 0x00 per place inbound (R105). -/
def Request.doPayload (r : Request) : List Byte :=
  match r.dir with
  | .outbound => r.buf
  | .inbound => List.replicate r.buf.length Config.dummyByte

/-- The address bytes on `DO`, none when no address is present (R103). -/
def Request.doAddr (r : Request) : List Byte :=
  match r.addr with
  | some a => addrBytesOf a
  | none => []

/-- The bytes a `Transaction` sends on `DO`: opcode, address, payload (R103, R105). -/
def Request.doBytes (r : Request) : List Byte :=
  r.opc :: (r.doAddr ++ r.doPayload)

/-- The words of an instruction: the `DO` bytes of its frame, in the order sent (R110). -/
def encode (i : Instr) : List Byte := (encodeFrame i).doBytes

/-- `ExtractPayload` of R116: the inbound payload in the bytes `ins` received during a command's frame. -/
def extractPayload : Instr → List Byte → List Byte
  | .read _ n, ins => (ins.drop (1 + Config.addrBytes)).take n
  | .rdsr, ins => (ins.drop 1).take 1
  | .program _ _, _ => []
  | .wren, _ => []
  | .ce, _ => []
  | .se _, _ => []
  | .ewsr, _ => []
  | .wrsr _, _ => []

/-! ### One row of the opcode table -/

/-- The least length of a frame whose first byte is `opc` (table SHAPE): what the table's bits are filled up to
with zero bytes. 0 for an unassigned opcode. -/
def leastLength (opc : Byte) : Nat :=
  if opc = Config.opcRead ∨ opc = Config.opcSe then 1 + Config.addrBytes
  else if opc = Config.opcProgram then 1 + Config.addrBytes + 1
  else if opc = Config.opcRdsr ∨ opc = Config.opcWrsr then 1 + 1
  else if opc = Config.opcWren ∨ opc = Config.opcCe ∨ opc = Config.opcEwsr then 1
  else 0

/-- Byte `k` of the number `w`, byte 0 least significant. -/
def byteOf (w k : Nat) : Byte := BitVec.ofNat 8 (w >>> (Config.byteBits * k))

/-- The frame whose first `nbits` bits are `w`, numbered as spec/opcode_table.json numbers them, and whose further
bytes, up to the least length its opcode has, are zero. -/
def tableBytes (nbits w : Nat) : List Byte :=
  let given := (List.range ((nbits + (Config.byteBits - 1)) / Config.byteBits)).map (byteOf (w % 2 ^ nbits))
  match given with
  | [] => []
  | opc :: rest => (opc :: rest) ++ List.replicate (leastLength opc - (rest.length + 1)) 0

/-- The instruction the decoder reads from the frame `tableBytes nbits w`. -/
def decodeTableWord (nbits w : Nat) : Option Instr :=
  match decodeFrame (tableBytes nbits w) with
  | .command i => some i
  | .illegal _ => none

end Sys2Proof
end

