-- ==== Sys2Proof/Machine/State.lean ====
section
/-! DEFINITION. The state of the machine, its faults and refusals, and the state right after reset
(spec/10_state.md; INVENTORY.md, '## State', names the rule of each field). -/

namespace Sys2Proof.Machine

open Sys2Proof

/-! ### Group A: the block -/

/-- `PHASE` (R25). -/
inductive Phase where
  | idle
  | opcode
  /-- `ADDR2`, `ADDR1`, `ADDR0`: the next byte is the address byte at place `k`, place 0 the least significant -/
  | addr (k : Fin Config.addrBytes)
  | payload
deriving DecidableEq, Repr

/-- The 8-bit shift register, bit by bit: `b7` is sent next, a sampled level enters at `b0` (R21). -/
structure ShiftReg where
  b7 : Level
  b6 : Level
  b5 : Level
  b4 : Level
  b3 : Level
  b2 : Level
  b1 : Level
  b0 : Level
deriving DecidableEq, Repr

/-- The block SPI-BTCF: its output lines, the BitTransport registers, the CommandFramer registers (R20 to R27, R39). -/
structure Block where
  /-- whether `Init` has run (R280, R283) -/
  inited : Bool
  /-- `SCK`, idles at 0 -/
  sck : Level
  /-- `DO` -/
  dout : Level
  /-- `CSN`, active low: `false` is asserted -/
  csn : Level
  /-- `SR` -/
  sr : ShiftReg
  /-- `BITCNT`, 0..8 -/
  bitcnt : Nat
  /-- `XACT` -/
  xact : Bool
  /-- `DONE` -/
  done : Bool
  /-- `PHASE` -/
  phase : Phase
  /-- `OPC` -/
  opc : Byte
  /-- `AP` -/
  ap : Bool
  /-- `ADDR` -/
  addr : Addr
  /-- `DIR` -/
  dir : Dir
  /-- `LEN` -/
  len : Nat
  /-- `IDX`, 0..LEN -/
  idx : Nat
  /-- `BUF` -/
  buf : List Byte
deriving DecidableEq, Repr

/-! ### Group B: the write session -/

/-- `SESSION` (R28). -/
inductive SessionMode where
  | idle
  | opened
deriving DecidableEq, Repr

/-- The write session (R28). `erased` is a finite set of sector indices, strictly rising. -/
structure Session where
  mode : SessionMode
  cursor : Nat
  erased : List Nat
deriving DecidableEq, Repr

/-! ### Group C: the device -/

/-- What the device's operation in flight is doing (R35(2)); `writeStatus` only with `wrsrBusy` (93 U9; log 20). -/
inductive FlightOp where
  | program (a : Nat) (v : Byte)
  | sectorErase (a : Nat)
  | chipErase
  | writeStatus
deriving DecidableEq, Repr

/-- An operation in flight and how many machine steps the device still takes for it (R70; log 9). -/
structure Flight where
  op : FlightOp
  left : Nat
deriving DecidableEq, Repr

/-- The flash array: the bytes that differ from `Config.erasedByte`, addresses strictly rising (log 7). -/
abbrev Memory := List Host.Cell

/-- The flash device: status register, array, hidden latches, frame-decoding position (R29, R30, R35). -/
structure Device where
  /-- `STATUS` -/
  status : Byte
  /-- `MEM` -/
  mem : Memory
  /-- the sectors whose contents a loss of power made undefined (R74; log 18), strictly rising -/
  lost : List Nat
  /-- `RDPTR` -/
  rdptr : Nat
  /-- `EWSR_ARMED` -/
  armed : Bool
  /-- the operation in flight -/
  inflight : Option Flight
  /-- the whole bytes of this frame seen on `DO` -/
  rxBytes : List Byte
  /-- the byte being assembled from `DO` -/
  rxShift : Byte
  /-- how many bits of it have been seen, 0..7 -/
  rxBits : Nat
  /-- the byte being presented on `DI` -/
  txByte : Byte
  /-- the level the device drives on `DI` -/
  di : Level
deriving DecidableEq, Repr

/-! ### The wire trace, the caller, the outside -/

/-- The events of the trace at level L (R9). -/
inductive LineEvent where
  | cs (b : Level)
  | dout (b : Level)
  | rise (d : Level)
  | fall
deriving DecidableEq, Repr

/-- What an operation gives back to its caller (table HOST, R12). -/
inductive Ret where
  | nothing
  | flag (b : Bool)
  | byte (v : Byte)
  | bytes (vs : List Byte)
deriving DecidableEq, Repr

/-- What the end of a driver operation gives back: what is in the buffer of its last frame (R212, R213, R218). -/
inductive Finish where
  | nothing
  | firstByte
  | allBytes
  | busyFlag
deriving DecidableEq, Repr

/-- An operation of the caller (table HOST, R12), or a piece of a driver sequence in progress (spec/42). Addresses
are naturals here, as a caller gives them; one wider than a frame's address is refused (R264(2)). -/
inductive Act where
  /-- `Init()` (R225, R281) -/
  | init
  /-- `PutByte(v)` called directly (R140) -/
  | putByte (v : Byte)
  /-- `GetByte()` called directly (R141) -/
  | getByte
  /-- `setClock(b)` (R145) -/
  | setClock (b : Level)
  /-- `setData(b)` (R145) -/
  | setData (b : Level)
  /-- `readData()` (R145) -/
  | readData
  /-- `selectChip(sel)` (R145) -/
  | selectChip (sel : Bool)
  /-- `Transaction(opc, addr, dir, buf)` (R170) -/
  | transaction (opc : Byte) (addr : Option Nat) (dir : Dir) (buf : List Byte)
  /-- a frame by mnemonic, given as its `DO` bytes: the place instructions are fetched from (log 2) -/
  | frame (outs : List Byte)
  /-- the same frame, left to run one micro-step a machine step (R148, R172; log 1) -/
  | frameFine (outs : List Byte)
  /-- `PutByte(v)`, left to run one bit cell a machine step (R143, R148; log 1) -/
  | putByteFine (v : Byte)
  /-- `WaitNotBusy()` (R211) -/
  | waitNotBusy
  /-- `ReadByte(a)` (R212) -/
  | readByte (a : Nat)
  /-- `ReadArray(a, n places)` (R213) -/
  | readArray (a n : Nat)
  /-- `WriteByte(a, v)` (R214) -/
  | writeByte (a : Nat) (v : Byte)
  /-- `SectorErase(a)` (R215) -/
  | sectorErase (a : Nat)
  /-- `ChipErase()` (R216) -/
  | chipErase
  /-- `ResetWriteProtection()` (R217) -/
  | resetWriteProtection
  /-- `IsWriteBusy()` (R218) -/
  | isWriteBusy
  /-- `ReadWord` (R226) -/
  | readWord (a : Nat)
  /-- `WriteWord` (R226) -/
  | writeWord (a v : Nat)
  /-- `BeginWrite(a)` (R219) -/
  | beginWrite (a : Nat)
  /-- `WriteIncrementalArray(buf)` (R220) -/
  | writeIncrementalArray (buf : List Byte)
  /-- driver: the top of the poll loop, `polls` made so far (R211) -/
  | poll (polls : Nat)
  /-- driver: the test of the status byte just read (R211) -/
  | pollTest (polls : Nat)
  /-- driver: one run of a `WriteIncrementalArray` (R220) -/
  | writeRun (start : Nat) (bytes : List Byte)
  /-- driver: add a sector index to `erasedSectors` (R220) -/
  | markErased (sector : Nat)
  /-- driver: advance `cursor` (R220) -/
  | advanceCursor (n : Nat)
  /-- driver: the end of a driver operation -/
  | finishOp (what : Finish)
deriving DecidableEq, Repr

/-- One input from outside the caller and the machine (R74, R288; log 18, log 19). -/
inductive Outside where
  /-- nothing happens -/
  | quiet
  /-- the device and the block lose power and it comes back (R74, R262) -/
  | powerLoss
  /-- a second caller invokes an operation (R288, R264(6)) -/
  | secondCaller (a : Act)
deriving DecidableEq, Repr

/-- The machine: the block, the write session, the device, the caller, the observation, the model's free values. -/
structure State where
  params : Params
  block : Block
  session : Session
  dev : Device
  /-- the caller's pending operations and the rest of the driver sequence in progress, next one first -/
  pending : List Act
  /-- what the last completed operation gave back -/
  ret : Ret
  /-- the inputs from outside, one a step; an empty list is quiet -/
  outside : List Outside
  /-- the MODEL's own: the exchange or frame driven by hand on the lines is the second caller's (R288; log 19) -/
  guest : Bool
  /-- the wire trace, newest event first (R7, R9) -/
  trace : List LineEvent
  /-- the MODEL's own: bits taken first where the spec draws (log 8) -/
  script : List Bool
  /-- the MODEL's own: durations taken first for the unbounded busy time (log 9) -/
  delays : List Nat
  /-- the MODEL's own: the counter the free values are applied to (log 8) -/
  draws : Nat
deriving DecidableEq, Repr

/-! ### Faults and refusals -/

/-- The faults of table X1 (R252), each ending the run. All are SAFE: the hardware goes on in some way the spec
does not give. -/
inductive Fault where
  /-- raised by `WaitNotBusy`: the budget of polls is spent and all read busy (R211, R251). Safe: the source's own failure. -/
  | hardwareFault
  /-- raised by the reference device: a READ, PROGRAM or SE address, or a streamed read, at or beyond `CAPACITY`;
  holds the address (R73). Safe. -/
  | addrRange (a : Nat)
  /-- raised by the reference device: a PROGRAM, SE or CE frame ends with `WEL = 0`; holds the opcode (R69). Safe. -/
  | welMissing (opc : Byte)
  /-- raised by the reference device: a PROGRAM, SE or CE frame ends with `PROT = true`; holds the opcode (R71). Safe.
  (`Protected` in table X1.) -/
  | writeProtected (opc : Byte)
  /-- raised by the reference device: a frame other than RDSR while busy; holds the opcode (R82). Safe. -/
  | busyViolation (opc : Byte)
  /-- raised by the reference device: an unassigned opcode, a wrong length, or a WRSR that is not armed; holds the
  whole bytes seen on `DO` (R83, R84). Safe. -/
  | illegalFrame (outs : List Byte)
  /-- raised by the block: the stuck state of R263(1), waiting for `DONE` with no shifter step to come; no state the
  machine reaches from reset is one (log 13). Safe. -/
  | stuckOnDone
deriving DecidableEq, Repr

/-- The refusals: the closed list of R264, each decided before anything is sent (log 33 says which is named where several
apply). All are SAFE: no claim is made of a refused run. -/
inductive Refusal where
  /-- an instruction that has no meaning yet; no arm of `exec` answers it. Safe. -/
  | notModelled (mnemonic : String)
  /-- by the caller's side: arguments or bytes that match no row of table SHAPE (R264(1), R108). Safe. -/
  | notAdmittedShape
  /-- by the caller's side: an address operand wider than 24 bits, or a `WriteIncrementalArray` whose range holds such
  an address (R264(2), R104; log 22). Safe. -/
  | addrWidth
  /-- by the driver: `ReadWord`, `WriteWord` (R226, R264(3)). Safe. -/
  | unspecified
  /-- by the driver: `WriteIncrementalArray` with no session (R264(4)). Safe. -/
  | noSession
  /-- by the block: an operation before `Init` (R264(5)). Safe. -/
  | notInitialised
  /-- by the block: an operation while another is in progress (R184, R264(6)), the one in progress being known from PHASE,
  XACT, the driver's position, or by R37 from the lines: `SCK = 1` is an exchange, `CSN = 0` a frame that a caller
  drives by hand (R12, R170, R287, R288, R294; log 14, log 19). Safe. -/
  | secondCaller
deriving DecidableEq, Repr

/-- What an operation answers. -/
abbrev Result := Host.Outcome State Fault Refusal

/-! ### Reset (table S2, R36; log 4 to log 7) -/

/-- The block after `Init` (R36, R280). `DO`, `SR` and the latches are DESIGN CHOICES (log 5). -/
def Block.reset : Block where
  inited := true
  sck := false
  dout := false
  csn := true
  sr := ⟨false, false, false, false, false, false, false, false⟩
  bitcnt := 0
  xact := false
  done := false
  phase := .idle
  opc := 0x00#8
  ap := false
  addr := 0
  dir := .outbound
  len := 0
  idx := 0
  buf := []

/-- The session after `Init` (R36). -/
def Session.reset : Session where
  mode := .idle
  cursor := 0
  erased := []

/-- The device after power-on, holding the array `m` (R36, R282: `MEM` is an argument of the model). -/
def Device.powerOn (p : Params) (m : Memory) : Device where
  status := p.bpMask
  mem := m
  lost := []
  rdptr := 0
  armed := false
  inflight := none
  rxBytes := []
  rxShift := 0x00#8
  rxBits := 0
  txByte := 0x00#8
  di := false

/-- The machine right after reset, for any parameters and any initial array. -/
def State.resetWith (p : Params) (m : Memory) : State where
  params := p
  block := Block.reset
  session := Session.reset
  dev := Device.powerOn p m
  pending := []
  ret := .nothing
  outside := []
  guest := false
  trace := []
  script := []
  delays := []
  draws := 0

/-- The machine right after reset (R36), with the suggested parameters and nothing listed in the array (log 3, log 7). -/
def State.reset : State := State.resetWith Params.suggested []

/-- The machine before `Init` (R280): no operation but `Init` is admitted; every element of groups A and B is
unspecified and holds the value the log names (log 4). -/
def State.beforeInit (p : Params) (m : Memory) : State :=
  { State.resetWith p m with block := { Block.reset with inited := false } }

end Sys2Proof.Machine
end

