-- ==== Sys2Proof/Machine/Flags.lean ====
section
/-! DEFINITION. Every computation on the device's status flags BUSY, WEL and the protection bits
(spec/10_state.md R29 table S1, R33; spec/20_memory.md R69 to R72, R84). -/

namespace Sys2Proof.Machine

open Sys2Proof

/-- The mask of one bit of the status byte. -/
def bitMask (k : Fin 8) : Byte := 1#8 <<< k.val

/-- The mask of BUSY. -/
def busyMask (p : Params) : Byte := bitMask p.busyBit
/-- The mask of WEL. -/
def welMask (p : Params) : Byte := bitMask p.welBit
/-- The bits of the status byte the spec names; the others are draws on every read (R29, R72). -/
def namedMask (p : Params) : Byte := busyMask p ||| welMask p ||| p.bpMask

/-- `BUSY = 1` in a status byte (R29). -/
def busyIn (p : Params) (st : Byte) : Bool := st.getLsbD p.busyBit.val
/-- `WEL = 1` in a status byte (R29). -/
def welIn (p : Params) (st : Byte) : Bool := st.getLsbD p.welBit.val
/-- `PROT = (STATUS & BP_MASK) != 0` (R71). -/
def protIn (p : Params) (st : Byte) : Bool := (st &&& p.bpMask) != 0#8

/-- Set the bits of a mask. -/
def setMask (m st : Byte) : Byte := st ||| m
/-- Clear the bits of a mask. -/
def clearMask (m st : Byte) : Byte := st &&& ~~~m

/-- What WRSR writes: `(STATUS & ~BP_MASK) | (v & BP_MASK)` (R84). -/
def writeProtection (p : Params) (st v : Byte) : Byte := (st &&& ~~~p.bpMask) ||| (v &&& p.bpMask)

/-- What RDSR shows: the named bits of STATUS, the other bits from the drawn byte (R72). -/
def shownStatus (p : Params) (st drawn : Byte) : Byte := (st &&& namedMask p) ||| (drawn &&& ~~~namedMask p)

/-- `BUSY` of the device. -/
def isBusy (s : State) : Bool := busyIn s.params s.dev.status
/-- `WEL` of the device. -/
def isWel (s : State) : Bool := welIn s.params s.dev.status
/-- `PROT` of the device. -/
def isProt (s : State) : Bool := protIn s.params s.dev.status

end Sys2Proof.Machine
end

