-- ==== Sys2Proof/Machine/Operands.lean ====
section
/-! DEFINITION. Every operand form: the bytes the framer sends in each phase (spec/41_command_framer.md R170,
R172), the caller's address operands (R104), sectors and runs (spec/20_memory.md R61, spec/42 R221). -/

namespace Sys2Proof.Machine

open Sys2Proof

/-! ### The shift register (R21) -/

/-- The register loaded with a byte. -/
def loadReg (v : Byte) : ShiftReg where
  b7 := v.getLsbD 7
  b6 := v.getLsbD 6
  b5 := v.getLsbD 5
  b4 := v.getLsbD 4
  b3 := v.getLsbD 3
  b2 := v.getLsbD 2
  b1 := v.getLsbD 1
  b0 := v.getLsbD 0

/-- The byte the register holds. -/
def regByte (r : ShiftReg) : Byte :=
  (((((((((0#8).shiftConcat r.b7).shiftConcat r.b6).shiftConcat r.b5).shiftConcat r.b4).shiftConcat r.b3).shiftConcat
    r.b2).shiftConcat r.b1).shiftConcat r.b0)

/-- `SR <- ((SR << 1) | d)[7:0]` (R142, R148). -/
def shiftReg (r : ShiftReg) (d : Level) : ShiftReg :=
  ⟨r.b6, r.b5, r.b4, r.b3, r.b2, r.b1, r.b0, d⟩

/-! ### What the framer sends -/

/-- The payload byte the framer sends next: `BUF[IDX]` outbound, 0x00 inbound (R105). -/
def payloadOut (b : Block) : Byte :=
  match b.dir with
  | .outbound => b.buf.getD b.idx Config.dummyByte
  | .inbound => Config.dummyByte

/-- The byte the framer exchanges in each phase (R25). -/
def phaseByte (b : Block) : Byte :=
  match b.phase with
  | .idle => Config.dummyByte
  | .opcode => b.opc
  | .addr k => addrByte k.val b.addr
  | .payload => payloadOut b

/-- The phase after the address byte at a place: the next place down, and after place 0 the payload (R172). -/
def afterPlace : Fin Config.addrBytes → Phase
  | ⟨0, _⟩ => .payload
  | ⟨n + 1, h⟩ => .addr ⟨n, Nat.lt_of_succ_lt h⟩

/-- The phase after a header byte (the arcs of R172). -/
def nextPhase (ap : Bool) : Phase → Phase
  | .idle => .opcode
  | .opcode => if ap then .addr ⟨Config.addrBytes - 1, by decide⟩ else .payload
  | .addr k => afterPlace k
  | .payload => .payload

/-- The block's latches at the start of a transaction (R170). With no address ADDR becomes 0: R170 writes `ADDR <- addr`
and R26 gives ADDR a meaning only when `AP = 1`, so that value is the model's own. DESIGN CHOICE, unsafe: log 32. -/
def latchRequest (r : Request) (b : Block) : Block :=
  { b with
    opc := r.opc
    ap := r.addr.isSome
    addr := r.addr.getD 0
    dir := r.dir
    len := r.buf.length
    idx := 0
    buf := r.buf }

/-- After a payload byte: an inbound one goes to `BUF[IDX]`, and `IDX` advances (R170). -/
def storePayload (b : Block) : Block :=
  match b.dir with
  | .inbound => { b with buf := b.buf.set b.idx (regByte b.sr), idx := b.idx + 1 }
  | .outbound => { b with idx := b.idx + 1 }

/-- What a transaction gives back: the filled buffer when inbound (table HOST). -/
def transactionRet (b : Block) : Ret :=
  match b.dir with
  | .inbound => .bytes b.buf
  | .outbound => .nothing

/-! ### The caller's operands -/

/-- A caller's address as a frame's operand; used only where `addrFits` (R104). -/
def operandAddr (a : Nat) : Addr := BitVec.ofNat Config.addrBits a

/-! ### Sectors and runs -/

/-- `SectorIndex(a) = a - (a mod 4096)` (R61). -/
def sectorIndex (a : Nat) : Nat := a - a % Config.sectorSize

/-- The run at the front of `[c, c + n)`: to the end of `c`'s sector, or all of it (R221). -/
def runLength (c n : Nat) : Nat := min n (sectorIndex c + Config.sectorSize - c)

/-- `Runs(c, n)` of R221, by recursion on a bound on the number of runs. -/
def runsUpTo : Nat → Nat → Nat → List (Nat × Nat)
  | 0, _, _ => []
  | fuel + 1, c, n =>
    if n = 0 then []
    else (c, runLength c n) :: runsUpTo fuel (c + runLength c n) (n - runLength c n)

/-- `Runs(c, n)` (R221): every run is at least one byte long, so `n` bounds their number. -/
def runs (c n : Nat) : List (Nat × Nat) := runsUpTo n c n

/-- Insert into a strictly rising list, once. -/
def insertRising (x : Nat) : List Nat → List Nat
  | [] => [x]
  | y :: ys => if x < y then x :: y :: ys else if x = y then y :: ys else y :: insertRising x ys

end Sys2Proof.Machine
end

