-- ==== Sys2Proof/Machine/Ops.lean ====
section
/-! DEFINITION. The named operations over memory, the trace and the free values, and recording a fault
(spec/00_scope.md R7; spec/20_memory.md R60, R66 to R68; spec/60_exceptions.md R252). The spec has no exception entry
and no return (R250, R255, R256): a fault ends the run. -/

namespace Sys2Proof.Machine

open Sys2Proof

/-! ### Results -/

/-- `raise <Fault>(info)`: records the fault and stops the run (R7, R252). -/
def raise (f : Fault) : Result := .fault f

/-- Go on in the next state, or stop where the first part stopped. -/
def andThen (r : Result) (f : State → Result) : Result :=
  match r with
  | .next s => f s
  | .fault e => .fault e
  | .refused e => .refused e

/-! ### Memory (R60; log 7) -/

/-- What an address that is not listed reads as (log 7). -/
def unlistedByte : Byte := Config.erasedByte

/-- `MemRead(a, 1)`: the byte at `a`. -/
def memRead : Memory → Nat → Byte
  | [], _ => unlistedByte
  | c :: m, a => if c.1 = a then c.2 else memRead m a

/-- Put a cell in front, unless it holds what an unlisted address reads as. -/
def consCell (a : Nat) (v : Byte) (m : Memory) : Memory :=
  if v = unlistedByte then m else (a, v) :: m

/-- `MemWrite(a, 1, v)`: write one byte, keeping the canonical form. -/
def memWrite (a : Nat) (v : Byte) : Memory → Memory
  | [] => consCell a v []
  | c :: m =>
    if a < c.1 then consCell a v (c :: m)
    else if a = c.1 then consCell a v m
    else c :: memWrite a v m

/-- Set every byte of `[lo, hi)` to 0xFF: an erased byte is not listed (R67, R68). -/
def memErase (lo hi : Nat) (m : Memory) : Memory :=
  m.filter fun c => !(decide (lo ≤ c.1) && decide (c.1 < hi))

/-- The canonical form: addresses strictly rising, no cell equal to what an unlisted address reads as. -/
def memWf (m : Memory) : Bool :=
  decide (m.Pairwise fun c d => c.1 < d.1) && m.all fun c => c.2 != unlistedByte

/-! ### The trace (R7, R9) -/

/-- Append an event to the wire trace. -/
def emit (e : LineEvent) (s : State) : State := { s with trace := e :: s.trace }

/-- The wire trace in time order. -/
def wire (s : State) : List LineEvent := s.trace.reverse

/-! ### Free values (log 8, log 9) -/

/-- A bit the rules do not fix: the next of the script, or the free value. -/
def drawnBit (s : State) : Bool :=
  match s.script with
  | b :: _ => b
  | [] => Config.freeBit s.draws

/-- The state after a draw of one bit. -/
def afterDraw (s : State) : State :=
  match s.script with
  | _ :: bs => { s with script := bs }
  | [] => { s with draws := s.draws + 1 }

/-- `n` drawn bits, shifted into `acc` from the right, and the state after. -/
def drawBits : Nat → Byte → State → Byte × State
  | 0, acc, s => (acc, s)
  | n + 1, acc, s => drawBits n (acc.shiftConcat (drawnBit s)) (afterDraw s)

/-- A drawn byte, most significant bit drawn first. -/
def drawnByte (s : State) : Byte := (drawBits Config.byteBits 0 s).1

/-- The state after a draw of one byte. -/
def afterByteDraw (s : State) : State := (drawBits Config.byteBits 0 s).2

/-- The duration of an operation that starts now: the next of the list, or the free value. -/
def drawnDelay (s : State) : Nat :=
  match s.delays with
  | d :: _ => d
  | [] => Config.freeDelay s.draws

/-- The state after a duration has been taken. -/
def afterDelay (s : State) : State :=
  match s.delays with
  | _ :: ds => { s with delays := ds }
  | [] => { s with draws := s.draws + 1 }

/-! ### What the bus sees -/

/-- The reference device is there and selected: it reacts to clock edges. -/
def listening (s : State) : Bool := !s.block.csn && s.params.device == .reference

/-- The sector of address `a` holds no defined contents (R74; log 18). -/
def isLost (s : State) (a : Nat) : Bool := s.dev.lost.contains (sectorIndex a)

end Sys2Proof.Machine
end

