-- ==== Sys2Proof/Machine/Device.lean ====
section
/-! DEFINITION. The reference device: what it does at each line event, at the end of each frame, at its own
finishing step, and when power is lost (spec/20_memory.md R65 to R74, R82 to R84; spec/60_exceptions.md R254). -/

namespace Sys2Proof.Machine

open Sys2Proof

/-! ### The frame-decoding position (R35(5), R83) -/

/-- What the byte after the whole bytes `rx` is: a payload byte of a READ, the status byte of an RDSR, or a byte the
device does not answer. -/
inductive Answer where
  | silent
  | status
  | array
deriving DecidableEq, Repr

/-- What the device answers in the byte that follows `rx`. -/
def answerAfter : List Byte → Answer
  | [] => .silent
  | o :: rest =>
    if o = Config.opcRdsr ∧ rest = [] then .status
    else if o = Config.opcRead ∧ Config.addrBytes ≤ rest.length then .array
    else .silent

/-- The address of a READ whose header is exactly `rx` (R65). -/
def readHeader : List Byte → Option Addr
  | [] => none
  | o :: rest => if o = Config.opcRead ∧ rest.length = Config.addrBytes then some (joinAddr rest) else none

/-! ### Presenting on DI (R65, R72, R149) -/

/-- Present a byte from its most significant bit on. -/
def present (v : Byte) (s : State) : State := { s with dev := { s.dev with txByte := v, di := v.msb } }

/-- Present a drawn byte: the source gives the received byte no meaning (R116, 93 U21). -/
def presentDraw (s : State) : State := present (drawnByte s) (afterByteDraw s)

/-- Present STATUS, the unnamed bits drawn afresh (R72). -/
def presentStatus (s : State) : State :=
  present (shownStatus s.params s.dev.status (drawnByte s)) (afterByteDraw s)

/-- Present `MEM[RDPTR]` (R65): a draw where power was lost (R74), and past the end, where the sampling edge faults
(R73). -/
def presentArray (s : State) : State :=
  if decide (s.dev.rdptr < s.params.capacity) && !isLost s s.dev.rdptr then
    present (memRead s.dev.mem s.dev.rdptr) s
  else presentDraw s

/-- Present the byte that follows the whole bytes seen. -/
def presentNext (s : State) : State :=
  match answerAfter s.dev.rxBytes with
  | .silent => presentDraw s
  | .status => presentStatus s
  | .array => presentArray s

/-- The status byte is sampled at the first bit cell of its exchange (R72): at that cell's rising edge the byte being
presented becomes STATUS as it then is, the unnamed bits as drawn. Its first bit has been on DI since the falling edge
before and R149 holds it there, so where STATUS now has another bit 7 the byte set up at that falling edge stays whole
(log 10). -/
def sampleStatus (s : State) : State :=
  if (shownStatus s.params s.dev.status s.dev.txByte).msb = s.dev.di then
    { s with dev := { s.dev with txByte := shownStatus s.params s.dev.status s.dev.txByte } }
  else s

/-- Falling edge of CSN: the decoding position is reset (R35(5)) and the first byte presented (R149). -/
def onSelect (s : State) : State :=
  presentNext { s with dev := { s.dev with rxBytes := [], rxShift := 0, rxBits := 0 } }

/-- Falling edge of SCK: the next bit, or the next byte, goes on DI (R149). -/
def onFall (s : State) : State :=
  if s.dev.rxBits = 0 then presentNext s
  else { s with dev := { s.dev with di := s.dev.txByte.getMsbD s.dev.rxBits } }

/-! ### Sampling DO (R83) -/

/-- Write RDPTR. -/
def setRdptr (k : Nat) (s : State) : State := { s with dev := { s.dev with rdptr := k } }

/-- The bit that makes a byte whole: it joins the bytes seen, and the next byte starts empty. -/
def wholeByte (b : Level) (s : State) : State :=
  { s with dev := { s.dev with rxBytes := s.dev.rxBytes ++ [s.dev.rxShift.shiftConcat b], rxShift := 0, rxBits := 0 } }

/-- A READ header has ended: `BusyViolation`, then `AddrRange`, then `RDPTR <- a` (R65, R254). -/
def acceptReadHeader (a : Addr) (s : State) : Result :=
  if isBusy s then raise (.busyViolation Config.opcRead)
  else if s.params.capacity ≤ a.toNat then raise (.addrRange a.toNat)
  else .next (setRdptr a.toNat s)

/-- A whole byte has been seen; `before` is what it was the answer to. A payload byte of a READ moves RDPTR on (R65). -/
def onByte (before : Answer) (s : State) : Result :=
  match before with
  | .array => .next (setRdptr (s.dev.rdptr + 1) s)
  | _ =>
    match readHeader s.dev.rxBytes with
    | some a => acceptReadHeader a s
    | none => .next s

/-- A bit that does not make a byte whole. -/
def partByte (b : Level) (s : State) : State :=
  { s with dev := { s.dev with rxShift := s.dev.rxShift.shiftConcat b, rxBits := s.dev.rxBits + 1 } }

/-- The first rising edge of the byte that follows the bytes seen: STATUS is sampled there (R72), and a payload byte of
a READ at `RDPTR >= CAPACITY` faults there (R73, R254; log 11). -/
def onFirstRise (s : State) : Result :=
  match answerAfter s.dev.rxBytes with
  | .silent => .next s
  | .status => .next (sampleStatus s)
  | .array => if s.params.capacity ≤ s.dev.rdptr then raise (.addrRange s.dev.rdptr) else .next s

/-- Rising edge of SCK: the device samples DO. -/
def onRise (s : State) : Result :=
  if s.dev.rxBits = 0 then andThen (onFirstRise s) fun t => .next (partByte s.block.dout t)
  else if s.dev.rxBits + 1 = Config.byteBits then
    onByte (answerAfter s.dev.rxBytes) (wholeByte s.block.dout s)
  else .next (partByte s.block.dout s)

/-! ### The end of a frame (R69, R83, R84) -/

/-- Replace STATUS. -/
def setStatus (v : Byte) (s : State) : State := { s with dev := { s.dev with status := v } }

/-- Write EWSR_ARMED. -/
def setArmed (b : Bool) (s : State) : State := { s with dev := { s.dev with armed := b } }

/-- Set BUSY and start an operation that takes the next duration (R70; log 9). -/
def startFlight (op : FlightOp) (s : State) : State :=
  { afterDelay s with dev := { s.dev with
      status := setMask (busyMask s.params) s.dev.status, inflight := some ⟨op, drawnDelay s⟩ } }

/-- The acceptance tests of a PROGRAM, SE or CE frame in the order of R254; `a` is the address, when it has one. -/
def writeGate (opc : Byte) (a : Option Nat) (s : State) : Option Fault :=
  if isBusy s then some (.busyViolation opc)
  else if !isWel s then some (.welMissing opc)
  else if isProt s then some (.writeProtected opc)
  else
    match a with
    | some x => if s.params.capacity ≤ x then some (.addrRange x) else none
    | none => none

/-- Accept a program or erase, or fault; a frame that is not EWSR or WRSR disarms (R69, R70, R84). -/
def acceptWrite (opc : Byte) (a : Option Nat) (op : FlightOp) (s : State) : Result :=
  match writeGate opc a s with
  | some f => raise f
  | none => .next (setArmed false (startFlight op s))

/-- The end of a READ frame: no effect of its own, disarms (R65, R84). -/
def endRead (s : State) : Result := .next (setArmed false s)

/-- The end of an RDSR frame: no effect of its own, disarms (R72, R84). -/
def endRdsr (s : State) : Result := .next (setArmed false s)

/-- The end of a WREN frame: `WEL <- 1` (R69, R82). -/
def endWren (s : State) : Result :=
  if isBusy s then raise (.busyViolation Config.opcWren)
  else .next (setArmed false (setStatus (setMask (welMask s.params) s.dev.status) s))

/-- The end of an EWSR frame: `EWSR_ARMED <- 1` (R84, R82). -/
def endEwsr (s : State) : Result :=
  if isBusy s then raise (.busyViolation Config.opcEwsr)
  else .next (setArmed true s)

/-- With `wrsrBusy`, WRSR makes the device busy (93 U9; log 20); otherwise it does not (R84). -/
def wrsrFlight (s : State) : State :=
  if s.params.wrsrBusy then startFlight .writeStatus s else s

/-- The end of a WRSR frame: needs EWSR_ARMED, writes the protection bits, disarms (R84, R254). -/
def endWrsr (v : Byte) (s : State) : Result :=
  if !s.dev.armed then raise (.illegalFrame s.dev.rxBytes)
  else if isBusy s then raise (.busyViolation Config.opcWrsr)
  else .next (wrsrFlight (setArmed false (setStatus (writeProtection s.params s.dev.status v) s)))

/-- The end of a PROGRAM frame (R66, R69). -/
def endProgram (a : Addr) (v : Byte) (s : State) : Result :=
  acceptWrite Config.opcProgram (some a.toNat) (.program a.toNat v) s

/-- The end of an SE frame (R67, R69). -/
def endSe (a : Addr) (s : State) : Result :=
  acceptWrite Config.opcSe (some a.toNat) (.sectorErase a.toNat) s

/-- The end of a CE frame (R68, R69). -/
def endCe (s : State) : Result := acceptWrite Config.opcCe none .chipErase s

/-- What the device does at the end of each well-formed frame. -/
def endCommand (i : Instr) (s : State) : Result :=
  match i with
  | .read _ _ => endRead s
  | .program a v => endProgram a v s
  | .wren => endWren s
  | .rdsr => endRdsr s
  | .ce => endCe s
  | .se a => endSe a s
  | .ewsr => endEwsr s
  | .wrsr v => endWrsr v s

/-- The clock pulses the device has seen since the falling edge of CSN. -/
def pulsesSeen (d : Device) : Nat := Config.byteBits * d.rxBytes.length + d.rxBits

/-- Rising edge of CSN: a frame that the decoder refuses is `IllegalFrame`, any other takes its effect (R83, R109). -/
def onDeselect (s : State) : Result :=
  match decodePulses (pulsesSeen s.dev) s.dev.rxBytes with
  | .command i => endCommand i s
  | .illegal _ => raise (.illegalFrame s.dev.rxBytes)

/-! ### The finishing step (R70) -/

/-- The memory effect of PROGRAM: `MEM[a] <- MEM[a] & v` (R66); in a lost sector the byte stays undefined (R74). -/
def programEffect (a : Nat) (v : Byte) (s : State) : Device :=
  if isLost s a then s.dev else { s.dev with mem := memWrite a (memRead s.dev.mem a &&& v) s.dev.mem }

/-- The memory effect of SE: the sector of `a` becomes 0xFF (R67), and is defined again (R74). -/
def sectorEraseEffect (a : Nat) (s : State) : Device :=
  { s.dev with
    mem := memErase (sectorIndex a) (sectorIndex a + Config.sectorSize) s.dev.mem
    lost := s.dev.lost.filter (· != sectorIndex a) }

/-- The memory effect of CE: every byte becomes 0xFF (R68), and is defined again (R74). -/
def chipEraseEffect (s : State) : Device :=
  { s.dev with mem := memErase 0 s.params.capacity s.dev.mem, lost := [] }

/-- The memory effect of the operation in flight. -/
def flightEffect (op : FlightOp) (s : State) : Device :=
  match op with
  | .program a v => programEffect a v s
  | .sectorErase a => sectorEraseEffect a s
  | .chipErase => chipEraseEffect s
  | .writeStatus => s.dev

/-- The status after an operation: `BUSY <- 0`, `WEL <- 0` (R70); a WRSR does not write WEL (R84). -/
def finishedStatus (op : FlightOp) (s : State) : Byte :=
  match op with
  | .writeStatus => clearMask (busyMask s.params) s.dev.status
  | _ => clearMask (welMask s.params) (clearMask (busyMask s.params) s.dev.status)

/-- The device's finishing step: the memory effect, `BUSY <- 0`, `WEL <- 0`, atomically (R70); DI holds its level
(R149). -/
def finishFlight (f : Flight) (s : State) : State :=
  { s with dev := { flightEffect f.op s with status := finishedStatus f.op s, inflight := none } }

/-! ### Loss of power (R74, R262, R282; log 18) -/

/-- The sectors an interrupted operation leaves undefined: the one it addressed, for CE all of them (R74). -/
def interruptedSectors (p : Params) : Option Flight → List Nat
  | some ⟨.program a _, _⟩ => [sectorIndex a]
  | some ⟨.sectorErase a, _⟩ => [sectorIndex a]
  | some ⟨.chipErase, _⟩ => (List.range (p.capacity / Config.sectorSize)).map (· * Config.sectorSize)
  | some ⟨.writeStatus, _⟩ => []
  | none => []

/-- The device after a loss of power: protected, idle, disarmed, `MEM` kept but for the interrupted sectors. -/
def powerCycledDevice (s : State) : Device :=
  { Device.powerOn s.params s.dev.mem with
    lost := (interruptedSectors s.params s.dev.inflight).foldr insertRising s.dev.lost }

end Sys2Proof.Machine
end

