-- ==== Sys2Proof/Machine/Transport.lean ====
section
/-! DEFINITION. BitTransport: the line primitives, the bit cell, the byte exchange in both implementations
(spec/40_bit_transport.md R140 to R149). -/

namespace Sys2Proof.Machine

open Sys2Proof

/-! ### SetLine (R7, R145) -/

/-- `SetLine(DO, b)`: the event is recorded even when the level does not change (R100). -/
def setDo (b : Level) (s : State) : State := emit (.dout b) { s with block := { s.block with dout := b } }

/-- The device's reaction to an edge of CSN, when it is the reference device. -/
def csnEdge (b : Level) (s : State) : Result :=
  match s.params.device with
  | .oracle => .next s
  | .reference => if b then onDeselect s else .next (onSelect s)

/-- The line CSN at level `b`, and its event. -/
def driveCsn (b : Level) (s : State) : State := emit (.cs b) { s with block := { s.block with csn := b } }

/-- `SetLine(CSN, b)`; the device sees it when the level changes. -/
def setCsn (b : Level) (s : State) : Result :=
  if s.block.csn = b then .next (driveCsn b s) else csnEdge b (driveCsn b s)

/-- The line SCK high, and the event of the rising edge at which the block sampled `d`. -/
def clockHigh (d : Level) (s : State) : State := emit (.rise d) { s with block := { s.block with sck := true } }

/-- The line SCK low, and the event of the falling edge. -/
def clockLow (s : State) : State := emit .fall { s with block := { s.block with sck := false } }

/-- The level `Rise()` returns: what the device drives while it is selected (R149), else a draw (R3, R140). -/
def sampledDi (s : State) : Level := if listening s then s.dev.di else drawnBit s

/-- The state after `DI` has been sampled. -/
def afterSample (s : State) : State := if listening s then s else afterDraw s

/-- The rising edge at which the block sampled `d`; the device samples DO (R100). -/
def riseWith (d : Level) (s : State) : Result :=
  if listening s then onRise (clockHigh d s) else .next (clockHigh d s)

/-- `Fall()`. -/
def fallEdge (s : State) : State :=
  if listening s then onFall (clockLow s) else clockLow s

/-! ### The bit cell (R148) -/

/-- After the rising edge: `SR <- ((SR << 1) | d)[7:0]` (R142). -/
def shiftIn (d : Level) (s : State) : State :=
  { s with block := { s.block with sr := shiftReg s.block.sr d } }

/-- One more bit cell done. -/
def countCell (s : State) : State := { s with block := { s.block with bitcnt := s.block.bitcnt + 1 } }

/-- `BitCell`: DO set up, rising edge, falling edge (R100, R148). -/
def bitCell (s : State) : Result :=
  andThen (riseWith (sampledDi s) (afterSample (setDo s.block.sr.b7 s))) fun u =>
    .next (countCell (fallEdge (shiftIn (sampledDi s) u)))

/-! ### The byte exchange (R140, R142, R143) -/

/-- The load of `SR` that starts an exchange; it clears DONE in the PERIPHERAL implementation only (R142, R143). -/
def loadByte (v : Byte) (s : State) : State :=
  { s with block := { s.block with
      sr := loadReg v, bitcnt := 0, xact := true
      done := match s.params.transport with
        | .bitbang => s.block.done
        | .peripheral => false } }

/-- The end of a BITBANG exchange: after the eighth cell XACT falls (R142, R39). -/
def closeExchange (s : State) : State :=
  if s.block.bitcnt = Config.byteBits then { s with block := { s.block with xact := false } } else s

/-- One pass of the BITBANG loop (R142). -/
def bitbangStep (s : State) : Result :=
  if s.block.bitcnt < Config.byteBits then andThen (bitCell s) fun t => .next (closeExchange t)
  else .next { s with block := { s.block with xact := false } }

/-- `ShifterStep`: a bit cell, or after eight the completion step (R143). -/
def shifterStep (s : State) : Result :=
  if s.block.bitcnt < Config.byteBits then bitCell s
  else .next { s with block := { s.block with done := true, xact := false } }

/-- One step of the exchange in progress, by the implementation that drives the lines. -/
def transportStep (s : State) : Result :=
  match s.params.transport with
  | .bitbang => bitbangStep s
  | .peripheral => shifterStep s

/-- How many such steps an exchange takes. -/
def exchangeSteps (p : Params) : Nat :=
  match p.transport with
  | .bitbang => Config.byteBits
  | .peripheral => Config.byteBits + 1

/-- `n` steps of the exchange in progress. -/
def runExchange : Nat → State → Result
  | 0, s => .next s
  | n + 1, s => andThen (transportStep s) (runExchange n)

/-- `PutByte(v)` (R140): load, then the exchange to its end; the byte received is left in `SR`. -/
def putByte (v : Byte) (s : State) : Result := runExchange (exchangeSteps s.params) (loadByte v s)

end Sys2Proof.Machine
end

