-- ==== Sys2Proof/Machine/Framer.lean ====
section
/-! DEFINITION. CommandFramer: the transaction as a procedure, and the same transaction one micro-step at a time
(spec/41_command_framer.md R170 to R172, R184). -/

namespace Sys2Proof.Machine

open Sys2Proof

/-- An exchange or a transaction is in progress (R184). -/
def blockBusy (s : State) : Bool := s.block.xact || s.block.phase != .idle

/-- A caller drives an exchange or a frame by hand: `Init` has run, and outside an exchange `SCK = 1`, or outside a
transaction `CSN = 0` (R12, R37; log 14). Before `Init` the levels say nothing (R280). -/
def linesInUse (s : State) : Bool := s.block.inited && (s.block.sck || !s.block.csn)

/-- What table HOST asks before a transaction: `Init` has run, nothing in progress, the lines idle (R12, R170, R184,
R283). On lines that are in use the transaction is one invoked while another operation is in progress (R264(6); log 14). -/
def transactionGate (s : State) : Option Refusal :=
  if !s.block.inited then some .notInitialised
  else if blockBusy s then some .secondCaller
  else if linesInUse s then some .secondCaller
  else none

/-- Write PHASE. -/
def setPhase (p : Phase) (s : State) : State := { s with block := { s.block with phase := p } }

/-- The start: the latches, `CS(0)`, `PHASE <- OPCODE` (R170). -/
def startFrame (r : Request) (s : State) : Result :=
  andThen (setCsn false { s with block := latchRequest r s.block }) fun t => .next (setPhase .opcode t)

/-- The end: `CS(1)`, `PHASE <- IDLE` (R170); what the caller gets back (R12). -/
def endFrame (s : State) : Result :=
  andThen (setCsn true s) fun t =>
    .next { setPhase .idle t with ret := transactionRet t.block }

/-- The address bytes at the places `ks`, each in the phase that names it (R170). -/
def sendPlaces : List (Fin Config.addrBytes) → State → Result
  | [], s => .next s
  | k :: ks, s => andThen (putByte (addrByte k.val s.block.addr) (setPhase (.addr k) s)) (sendPlaces ks)

/-- The address bytes, when an address is present (R170). -/
def sendAddr (s : State) : Result := if s.block.ap then sendPlaces addrPlaces s else .next s

/-- `k` payload bytes (R170). -/
def payloadLoop : Nat → State → Result
  | 0, s => .next s
  | k + 1, s =>
    andThen (putByte (payloadOut s.block) s) fun t =>
      payloadLoop k { t with block := storePayload t.block }

/-- The body of `Transaction`, its arguments latched (R170). -/
def frameBody (s : State) : Result :=
  andThen (putByte s.block.opc s) fun s1 =>
  andThen (sendAddr s1) fun s2 =>
  andThen (payloadLoop s2.block.len (setPhase .payload s2)) endFrame

/-- `Transaction(opc, addr, dir, buf)` to its end (R170). -/
def transaction (r : Request) (s : State) : Result :=
  match transactionGate s with
  | some e => .refused e
  | none => andThen (startFrame r s) frameBody

/-- The byte of the last inbound frame: `buf[0]`. -/
def firstOfBuf (s : State) : Byte := s.block.buf.headD 0

/-- `return buf[0]` (R178): RDSR by mnemonic gives back the byte, not the buffer. -/
def returnByte (s : State) : State := { s with ret := .byte (firstOfBuf s) }

/-! ### One micro-step at a time (R172, R148, R143) -/

/-- Begin the exchange of the byte the phase names; with no payload byte left there is none (R172). -/
def loadPhase (s : State) : State :=
  if s.block.phase = .payload ∧ s.block.len ≤ s.block.idx then s else loadByte (phaseByte s.block) s

/-- The first micro-step of a transaction: the start, and the load of the opcode byte. -/
def beginFine (r : Request) (s : State) : Result :=
  match transactionGate s with
  | some e => .refused e
  | none => andThen (startFrame r s) fun t => .next (loadPhase t)

/-- The framer's micro-step between two exchanges: along one arc of R172. -/
def framerStep (s : State) : Result :=
  match s.block.phase with
  | .idle => .next s
  | .payload =>
    if s.block.idx < s.block.len then .next (loadPhase { s with block := storePayload s.block }) else endFrame s
  | p => .next (loadPhase (setPhase (nextPhase s.block.ap p) s))

/-- The block waits for DONE and no shifter step is enabled: the stuck state of R263(1) (log 13). -/
def waitsForever (s : State) : Bool :=
  s.params.transport == .peripheral && !s.block.done

/-- A direct `PutByte` that has come to its end gives its byte back. -/
def endDirectExchange (s : State) : State :=
  if s.block.phase = .idle ∧ s.block.xact = false then { s with ret := .byte (regByte s.block.sr) } else s

/-- One micro-step of what the block has in progress: the exchange if there is one, else the framer. -/
def resume (s : State) : Result :=
  if s.block.xact then andThen (transportStep s) fun t => .next (endDirectExchange t)
  else if waitsForever s then raise .stuckOnDone
  else framerStep s

end Sys2Proof.Machine
end

