-- ==== Sys2Proof/Machine/ArrayFrames.lean ====
section
/-! DEFINITION. The frames that read and program the array: READ, PROGRAM (spec/41_command_framer.md R175, R176;
the device side is spec/20_memory.md R65, R66, in Machine/Device.lean). -/

namespace Sys2Proof.Machine

open Sys2Proof

/-- READ a, n: `buf <- n places; Transaction(0x03, a, IN, buf); return buf` (R175). -/
def execRead (a : Addr) (n : Nat) (s : State) : Result :=
  transaction ⟨Config.opcRead, some a, .inbound, places n⟩ s

/-- PROGRAM a, v: `Transaction(0x02, a, OUT, [v])` (R176). -/
def execProgram (a : Addr) (v : Byte) (s : State) : Result :=
  transaction ⟨Config.opcProgram, some a, .outbound, [v]⟩ s

end Sys2Proof.Machine
end

