-- ==== Sys2Proof/Machine/EraseFrames.lean ====
section
/-! DEFINITION. The frames that erase: CE, SE (spec/41_command_framer.md R179, R180; the device side is
spec/20_memory.md R67, R68, in Machine/Device.lean). -/

namespace Sys2Proof.Machine

open Sys2Proof

/-- CE: `Transaction(0x60, none, OUT, [])` (R179). -/
def execCe (s : State) : Result :=
  transaction ⟨Config.opcCe, none, .outbound, []⟩ s

/-- SE a: `Transaction(0x20, a, OUT, [])`, the address as given, not masked by the block (R180). -/
def execSe (a : Addr) (s : State) : Result :=
  transaction ⟨Config.opcSe, some a, .outbound, []⟩ s

end Sys2Proof.Machine
end

