-- ==== Sys2Proof/Machine/StatusFrames.lean ====
section
/-! DEFINITION. The frames that act on the status register and its latches: WREN, RDSR, EWSR, WRSR
(spec/41_command_framer.md R177, R178, R181, R182; the device side is spec/20_memory.md R69, R72, R84, in
Machine/Device.lean). -/

namespace Sys2Proof.Machine

open Sys2Proof

/-- WREN: `Transaction(0x06, none, OUT, [])` (R177). -/
def execWren (s : State) : Result :=
  transaction ⟨Config.opcWren, none, .outbound, []⟩ s

/-- RDSR: `buf <- 1 place; Transaction(0x05, none, IN, buf); return buf[0]` (R178). -/
def execRdsr (s : State) : Result :=
  andThen (transaction ⟨Config.opcRdsr, none, .inbound, places 1⟩ s) fun t => .next (returnByte t)

/-- EWSR: `Transaction(0x50, none, OUT, [])` (R181). -/
def execEwsr (s : State) : Result :=
  transaction ⟨Config.opcEwsr, none, .outbound, []⟩ s

/-- WRSR v: `Transaction(0x01, none, OUT, [v])` (R182). -/
def execWrsr (v : Byte) (s : State) : Result :=
  transaction ⟨Config.opcWrsr, none, .outbound, [v]⟩ s

end Sys2Proof.Machine
end

