-- ==== Sys2Proof/Machine/Dispatch.lean ====
section
/-! DEFINITION. One arm per instruction: which meaning it has. -/

namespace Sys2Proof.Machine

open Sys2Proof

def exec (i : Instr) (s : State) : Host.Outcome State Fault Refusal :=
  match i with
  | .read a n => Sys2Proof.Machine.execRead a n s
  | .program a v => Sys2Proof.Machine.execProgram a v s
  | .wren => Sys2Proof.Machine.execWren s
  | .rdsr => Sys2Proof.Machine.execRdsr s
  | .ce => Sys2Proof.Machine.execCe s
  | .se a => Sys2Proof.Machine.execSe a s
  | .ewsr => Sys2Proof.Machine.execEwsr s
  | .wrsr v => Sys2Proof.Machine.execWrsr v s

end Sys2Proof.Machine
end

