-- ==== Sys2Proof/Machine/Driver.lean ====
section
/-! DEFINITION. The caller's operations (spec/00_scope.md table HOST) and the driver sequences of FlashEngine
(spec/42_flash_engine_sequences.md R210 to R226). A driver operation puts its expansion at the front of `pending`;
each frame of it is then fetched and run by `exec` as a machine step of its own. -/

namespace Sys2Proof.Machine

open Sys2Proof

/-- Put acts in front of what is pending. -/
def push (as : List Act) (s : State) : State := { s with pending := as ++ s.pending }

/-- The frame of a command, as its bytes. -/
def frameOf (i : Instr) : Act := .frame (encode i)

/-- Go on with the operand as a frame address, or refuse it: `AddrWidth` (R264(2)). -/
def withAddr (a : Nat) (f : Addr → Result) : Result :=
  if addrFits a then f (operandAddr a) else .refused .addrWidth

/-! ### Init and the line primitives -/

/-- `SetLine(SCK, 0)` of `Init`, an edge only when the level changes (log 16, log 17). -/
def initClock (s : State) : State := if s.block.sck then fallEdge s else s

/-- What `Init` writes beside the lines (R225). -/
def initRegisters (s : State) : State :=
  { s with
    block := { s.block with
      inited := true, sck := false, csn := true, phase := .idle, bitcnt := 0, xact := false, done := false }
    session := { s.session with mode := .idle }
    ret := .nothing }

/-- `Init()` (R225, R281): `SetLine(CSN, 1)` is recorded whatever the level was (R7, R9). Before any `Init` the line
levels are unspecified (R280), so the first one gives the device no edge; a later one drives the lines it finds
(log 17), the caller's own hand-driven lines too (DESIGN CHOICE, unsafe: log 35). -/
def opInit (s : State) : Result :=
  if s.block.inited then andThen (setCsn true (initClock s)) fun t => .next (initRegisters t)
  else .next (initRegisters (driveCsn true s))

/-- `PutByte(v)` called directly: `SCK = 0` is asked, CSN is the caller's choice (R140, table HOST; log 14). -/
def opPutByte (v : Byte) (s : State) : Result :=
  if s.block.sck then .refused .secondCaller
  else andThen (putByte v s) fun t => .next (endDirectExchange t)

/-- `PutByte(v)`, its first micro-step: the load (R143). -/
def opPutByteFine (v : Byte) (s : State) : Result :=
  if s.block.sck then .refused .secondCaller else .next (loadByte v s)

/-- `GetByte()` called directly (R141). -/
def opGetByte (s : State) : Result := opPutByte Config.dummyByte s

/-- `setClock(b)`: `Rise()` without its value, or `Fall()`; no edge when the level is there already (R145; log 16). In a
PERIPHERAL instance too it is what R145 says (log 15). -/
def opSetClock (b : Level) (s : State) : Result :=
  if s.block.sck = b then .next { s with ret := .nothing }
  else if b then andThen (riseWith (sampledDi s) (afterSample s)) fun t => .next { t with ret := .nothing }
  else .next { fallEdge s with ret := .nothing }

/-- `setData(b)`: `SetLine(DO, b)` (R145; log 15). -/
def opSetData (b : Level) (s : State) : Result := .next { setDo b s with ret := .nothing }

/-- `readData()`: the present level of DI, a draw while the device does not drive it (R145, R37; log 16). -/
def opReadData (s : State) : Result := .next { afterSample s with ret := .flag (sampledDi s) }

/-- `selectChip(sel)`: `SetLine(CSN, 0)` to select, `SetLine(CSN, 1)` to deselect (R145). A change of CSN while
`SCK = 1` comes inside an exchange (R37, R287) and is refused (log 14). -/
def opSelectChip (sel : Bool) (s : State) : Result :=
  if s.block.sck && s.block.csn == sel then .refused .secondCaller
  else andThen (setCsn (!sel) s) fun t => .next { t with ret := .nothing }

/-! ### Transactions and frames -/

/-- `Transaction` with its arguments admitted by table SHAPE (R107, R264(1)). -/
def admittedTransaction (r : Request) (s : State) : Result :=
  if r.admitted then transaction r s else .refused .notAdmittedShape

/-- `Transaction(opc, addr, dir, buf)` as the caller gives it (R170, R264). R264 gives no order among its refusals: that
a wide address is named before a wrong shape, and both before an operation in progress (`NotInitialised` before all,
`perform`), is the model's. DESIGN CHOICE, safe: log 33. -/
def opTransaction (opc : Byte) (addr : Option Nat) (dir : Dir) (buf : List Byte) (s : State) : Result :=
  match addr with
  | none => admittedTransaction ⟨opc, none, dir, buf⟩ s
  | some a => withAddr a fun x => admittedTransaction ⟨opc, some x, dir, buf⟩ s

/-- A frame by mnemonic: decode its bytes, run the command; bytes that are no admitted frame are refused (R108). -/
def opFrame (outs : List Byte) (s : State) : Result :=
  match decodeFrame outs with
  | .command i => exec i s
  | .illegal _ => .refused .notAdmittedShape

/-- What is left to do when the last micro-step of a frame by mnemonic is over: RDSR gives back `buf[0]` (R178). -/
def fineRest : Instr → List Act
  | .rdsr => [.finishOp .firstByte]
  | .read _ _ => []
  | .program _ _ => []
  | .wren => []
  | .ce => []
  | .se _ => []
  | .ewsr => []
  | .wrsr _ => []

/-- The same frame, its first micro-step (R172). -/
def opFrameFine (outs : List Byte) (s : State) : Result :=
  match decodeFrame outs with
  | .command i => beginFine (encodeFrame i) (push (fineRest i) s)
  | .illegal _ => .refused .notAdmittedShape

/-! ### The poll loop (R211) -/

/-- `WaitNotBusy()`. -/
def opWaitNotBusy (s : State) : Result := .next (push [.poll 0] s)

/-- The top of the loop: `HardwareFault` when the budget is spent, else one RDSR frame and its test. -/
def opPoll (polls : Nat) (s : State) : Result :=
  if s.params.pollBudget = some polls then raise .hardwareFault
  else .next (push [frameOf .rdsr, .pollTest (polls + 1)] s)

/-- `until s[BUSY_BIT] = 0`. At its end `WaitNotBusy()` gives nothing back, as R211's pseudocode returns nothing. -/
def opPollTest (polls : Nat) (s : State) : Result :=
  if busyIn s.params (firstOfBuf s) then .next (push [.poll polls] s) else .next { s with ret := .nothing }

/-! ### One-shot operations (R212 to R218, R226) -/

/-- `ReadByte(a)`: `READ a, 1` (R212). -/
def opReadByte (a : Nat) (s : State) : Result :=
  withAddr a fun x => .next (push [frameOf (.read x 1), .finishOp .firstByte] s)

/-- `ReadArray(a, n places)`: `READ a, n` (R213). -/
def opReadArray (a n : Nat) (s : State) : Result :=
  withAddr a fun x => .next (push [frameOf (.read x n), .finishOp .allBytes] s)

/-- `WriteByte(a, v)`: `WREN; PROGRAM a, v; WaitNotBusy()` (R214). -/
def opWriteByte (a : Nat) (v : Byte) (s : State) : Result :=
  withAddr a fun x =>
    .next (push [frameOf .wren, frameOf (.program x v), .waitNotBusy, .finishOp .nothing] s)

/-- `SectorErase(a)`: `WREN; SE a; WaitNotBusy()`, the address as given (R215). -/
def opSectorErase (a : Nat) (s : State) : Result :=
  withAddr a fun x =>
    .next (push [frameOf .wren, frameOf (.se x), .waitNotBusy, .finishOp .nothing] s)

/-- `ChipErase()`: `WREN; CE; WaitNotBusy()` (R216). -/
def opChipErase (s : State) : Result :=
  .next (push [frameOf .wren, frameOf .ce, .waitNotBusy, .finishOp .nothing] s)

/-- `ResetWriteProtection()`: `EWSR; WRSR WRSR_VALUE` (R217); followed by a wait only with `wrsrBusy` (93 U9; log 20). -/
def opResetWriteProtection (s : State) : Result :=
  .next (push ([frameOf .ewsr, frameOf (.wrsr Config.wrsrValue)]
    ++ (if s.params.wrsrBusy then [.waitNotBusy] else []) ++ [.finishOp .nothing]) s)

/-- `IsWriteBusy()`: one RDSR, `s[BUSY_BIT] = 1` (R218). -/
def opIsWriteBusy (s : State) : Result := .next (push [frameOf .rdsr, .finishOp .busyFlag] s)

/-- `ReadWord`: no meaning in the spec (R226). -/
def opReadWord (_a : Nat) (_s : State) : Result := .refused .unspecified

/-- `WriteWord`: no meaning in the spec (R226). -/
def opWriteWord (_a _v : Nat) (_s : State) : Result := .refused .unspecified

/-! ### The write session (R219 to R222) -/

/-- `BeginWrite(a)`: `cursor <- a; erasedSectors <- {}; SESSION <- Open` (R219); its operand is an address, refused when
wider than 24 bits (R264(2); log 22). It sends no frame, and is performed on lines that the caller drives by hand too,
which R264(6) leaves open. DESIGN CHOICE, unsafe: log 35. -/
def opBeginWrite (a : Nat) (s : State) : Result :=
  withAddr a fun _ => .next { s with session := ⟨.opened, a, []⟩, ret := .nothing }

/-- The runs of a buffer with their bytes, in ascending address order (R220, R221). -/
def runActs (c : Nat) (buf : List Byte) : List Act :=
  (runs c buf.length).map fun r => .writeRun r.1 ((buf.drop (r.1 - c)).take r.2)

/-- Every address of `[c, c + n)` fits a frame (R104). -/
def rangeFits (c n : Nat) : Bool := n == 0 || addrFits (c + n - 1)

/-- `WriteIncrementalArray(buf)` (R220). Its refusals are decided before anything is sent (R264): no session, then a range
that holds an address no frame can carry (log 22, log 33). On lines that the caller drives by hand an empty buffer is
written all the same, as no frame is sent. DESIGN CHOICE, unsafe: log 35. -/
def opWriteIncrementalArray (buf : List Byte) (s : State) : Result :=
  match s.session.mode with
  | .idle => .refused .noSession
  | .opened =>
    if rangeFits s.session.cursor buf.length then
      .next (push (runActs s.session.cursor buf ++ [.advanceCursor buf.length, .finishOp .nothing]) s)
    else .refused .addrWidth

/-- `WriteByte(p + k, buf[i + k])` for each byte of a run (R220). -/
def writeActs (p : Nat) : List Byte → List Act
  | [] => []
  | v :: vs => .writeByte p v :: writeActs (p + 1) vs

/-- One run: erase its sector on first touch, then write its bytes (R220). -/
def opWriteRun (p : Nat) (bytes : List Byte) (s : State) : Result :=
  let erase := if s.session.erased.contains (sectorIndex p) then []
    else [.sectorErase (sectorIndex p), .markErased (sectorIndex p)]
  .next (push (erase ++ writeActs p bytes) s)

/-- `erasedSectors <- erasedSectors + {s}` (R220). -/
def opMarkErased (x : Nat) (s : State) : Result :=
  .next { s with session := { s.session with erased := insertRising x s.session.erased } }

/-- `cursor <- cursor + length(buf)` (R220). -/
def opAdvanceCursor (n : Nat) (s : State) : Result :=
  .next { s with session := { s.session with cursor := s.session.cursor + n } }

/-- What a driver operation gives back (R212, R213, R218). -/
def finishRet (f : Finish) (s : State) : Ret :=
  match f with
  | .nothing => .nothing
  | .firstByte => .byte (firstOfBuf s)
  | .allBytes => .bytes s.block.buf
  | .busyFlag => .flag (busyIn s.params (firstOfBuf s))

/-- The end of a driver operation. -/
def opFinish (f : Finish) (s : State) : Result := .next { s with ret := finishRet f s }

/-! ### One act -/

/-- One act of the caller or the driver, taken off `pending`, `Init` having run. -/
def performInited (a : Act) (s : State) : Result :=
  match a with
  | .init => opInit s
  | .putByte v => opPutByte v s
  | .getByte => opGetByte s
  | .setClock b => opSetClock b s
  | .setData b => opSetData b s
  | .readData => opReadData s
  | .selectChip sel => opSelectChip sel s
  | .transaction opc addr dir buf => opTransaction opc addr dir buf s
  | .frame outs => opFrame outs s
  | .frameFine outs => opFrameFine outs s
  | .putByteFine v => opPutByteFine v s
  | .waitNotBusy => opWaitNotBusy s
  | .readByte a => opReadByte a s
  | .readArray a n => opReadArray a n s
  | .writeByte a v => opWriteByte a v s
  | .sectorErase a => opSectorErase a s
  | .chipErase => opChipErase s
  | .resetWriteProtection => opResetWriteProtection s
  | .isWriteBusy => opIsWriteBusy s
  | .readWord a => opReadWord a s
  | .writeWord a v => opWriteWord a v s
  | .beginWrite a => opBeginWrite a s
  | .writeIncrementalArray buf => opWriteIncrementalArray buf s
  | .poll polls => opPoll polls s
  | .pollTest polls => opPollTest polls s
  | .writeRun p bytes => opWriteRun p bytes s
  | .markErased x => opMarkErased x s
  | .advanceCursor n => opAdvanceCursor n s
  | .finishOp f => opFinish f s

/-- One act: before `Init` only `Init` is admitted (R264(5), R283). -/
def perform (a : Act) (s : State) : Result :=
  if s.block.inited || a == .init then performInited a s else .refused .notInitialised

end Sys2Proof.Machine
end

