-- ==== Sys2Proof/Machine/Turns.lean ====
section
/-! DEFINITION. Which agent moves: the outside, the device's finishing step, the exchange or transaction in progress,
the caller (spec/00_scope.md R8; spec/20_memory.md R70; log 2, log 9, log 18, log 19); and where an instruction is
fetched from. -/

namespace Sys2Proof.Machine

open Sys2Proof

/-- A step of another agent brings the operation in flight one step nearer to its end (log 9). -/
def tick (s : State) : State :=
  match s.dev.inflight with
  | some f => { s with dev := { s.dev with inflight := some { f with left := f.left - 1 } } }
  | none => s

/-- The act is a piece of a driver operation that has begun: its end is still to come. -/
def isDriverRest : Act → Bool
  | .poll _ => true
  | .pollTest _ => true
  | .writeRun _ _ => true
  | .markErased _ => true
  | .advanceCursor _ => true
  | .finishOp _ => true
  | _ => false

/-- The second caller drives an exchange or a frame by hand (R288; log 19). -/
def guestHolds (s : State) : Bool := s.guest && linesInUse s

/-- The caller's next act; with none pending the machine is at rest and stays as it is (log 23). An act of its own is
refused while the second caller's exchange or frame is on the lines (R264(6), R288; log 19). -/
def callerStep (s : State) : Result :=
  match s.pending with
  | [] => .next s
  | a :: rest =>
    if guestHolds s && !isDriverRest a then .refused .secondCaller else perform a { s with pending := rest }

/-- The block goes on with what it has in progress; otherwise the caller moves. -/
def blockStep (s : State) : Result :=
  if blockBusy s then resume s else callerStep s

/-- The operation in flight has come to its end: the device moves (R70). -/
def flightDue (s : State) : Option Flight :=
  match s.dev.inflight with
  | some f => if f.left = 0 then some f else none
  | none => none

/-- The step of the device if it is due, otherwise that of the block or the caller. -/
def insideStep (s : State) : Result :=
  match flightDue s with
  | some f => .next (finishFlight f s)
  | none => blockStep (tick s)

/-! ### The outside -/

/-- A driver operation has begun and not ended (R264(6)). -/
def driverBusy (s : State) : Bool := s.pending.any isDriverRest

/-- An operation is in progress: in the block, a driver operation not yet ended, or an exchange or frame that a caller
drives by hand (R12, R264(6); log 14). -/
def operationInProgress (s : State) : Bool := blockBusy s || driverBusy s || linesInUse s

/-- What the second caller would mix with: an operation in progress that is not its own exchange or frame on the lines
(R77, R288; log 19). -/
def mixes (s : State) : Bool := blockBusy s || driverBusy s || (linesInUse s && !s.guest)

/-- After an operation of the second caller, begun on lines in use or not: whether an exchange or frame on the lines is
its own. A transaction begun on idle lines gives them back when it ends. -/
def noteGuest (before : Bool) (t : State) : State :=
  { t with guest := linesInUse t && (before || !blockBusy t) }

/-- A second caller's operation: refused while another is in progress (R77, R184, R264(6)), else taken up at once, so
that the two callers are serialised (R288; log 19). While another is in progress `SecondCaller` is named whatever else is
wrong with the operation, for which R264 gives no order. DESIGN CHOICE, safe: log 33. -/
def secondCallerStep (a : Act) (s : State) : Result :=
  if mixes s then .refused .secondCaller
  else andThen (perform a (tick s)) fun t => .next (noteGuest (linesInUse s) t)

/-- The caller's own acts, without the rest of a driver operation that is lost with the power: everything up to the
last piece of it (log 18). -/
def afterDriverRest : List Act → List Act
  | [] => []
  | a :: rest => if (a :: rest).any isDriverRest then afterDriverRest rest else a :: rest

/-- Power is lost and comes back: groups A and B are as before `Init`, the device as after power-on, with the array
kept but for what an operation in flight was doing (R74, R262, R280, R282; log 18). The trace keeps what it has and
records no event: a frame that was open in it stays open. DESIGN CHOICE, unsafe: log 34. -/
def powerCycle (s : State) : State :=
  { s with
    block := { Block.reset with inited := false }
    session := Session.reset
    dev := powerCycledDevice s
    pending := afterDriverRest s.pending
    ret := .nothing
    guest := false }

/-- One machine step: the next input from outside, and, when it is quiet, the agents inside. -/
def takeTurn (s : State) : Result :=
  match s.outside with
  | [] => insideStep s
  | .quiet :: rest => insideStep { s with outside := rest }
  | .powerLoss :: rest => .next (powerCycle { s with outside := rest })
  | .secondCaller a :: rest => secondCallerStep a { s with outside := rest }

/-! ### The place instructions are fetched from (log 2) -/

/-- An operation in flight that is not due in the very next step. -/
def notDue (f : Flight) : Flight := { f with left := max f.left 1 }

/-- Make the caller's next act the very next step: nothing from outside, no finishing step due, nothing in progress. -/
def readyForCaller (s : State) : State :=
  { s with
    outside := []
    guest := false
    block := { s.block with inited := true, phase := .idle, xact := false }
    dev := { s.dev with inflight := s.dev.inflight.map notDue } }

/-- Place a frame where the next step fetches. -/
def placeFrame (outs : List Byte) (s : State) : State := push [.frame outs] (readyForCaller s)

/-- The state the fetched instruction runs in: its frame taken off, the device one step nearer to its end. -/
def fetched (s : State) : State := { tick s with pending := s.pending.tail }

end Sys2Proof.Machine
end

