-- ==== Sys2Proof/Machine/Step.lean ====
section
/-! DEFINITION. One step of the machine, and the host's way of placing an instruction (log 2). -/

namespace Sys2Proof.Machine

open Sys2Proof

/-- One step of the machine. -/
def step (s : State) : Host.Outcome State Fault Refusal := takeTurn s

/-- The state with the frame of one opcode-table row placed where `step` fetches its next instruction. -/
def State.withFetchWord (s : State) (nbits w : Nat) : State := placeFrame (tableBytes nbits w) s

end Sys2Proof.Machine
end

