-- ==== Sys2Proof/Machine/Trace.lean ====
section
/-! DEFINITION. The observation levels: what a byte and a frame are on the wire, and the level-B and level-F views of
a level-L trace (spec/00_scope.md R9; spec/30_encoding.md R100 to R102; spec/41_command_framer.md R183). -/

namespace Sys2Proof.Machine

open Sys2Proof

/-! ### What is on the wire -/

/-- The three events of a bit cell: `b` goes out, `d` comes in (R100). -/
def cellEvents (b d : Level) : List LineEvent := [.dout b, .rise d, .fall]

/-- The 24 events of one byte exchange, most significant bit first (R101, R142). -/
def byteEvents (o i : Byte) : List LineEvent :=
  cellEvents (o.getLsbD 7) (i.getLsbD 7) ++ cellEvents (o.getLsbD 6) (i.getLsbD 6)
  ++ cellEvents (o.getLsbD 5) (i.getLsbD 5) ++ cellEvents (o.getLsbD 4) (i.getLsbD 4)
  ++ cellEvents (o.getLsbD 3) (i.getLsbD 3) ++ cellEvents (o.getLsbD 2) (i.getLsbD 2)
  ++ cellEvents (o.getLsbD 1) (i.getLsbD 1) ++ cellEvents (o.getLsbD 0) (i.getLsbD 0)

/-- The events of the byte exchanges of a frame: `outs` sent, `ins` received. -/
def bytesEvents : List Byte → List Byte → List LineEvent
  | o :: outs, i :: ins => byteEvents o i ++ bytesEvents outs ins
  | _, _ => []

/-- The events of a whole frame: `CS(0)`, the bytes, `CS(1)` (R102, R183). -/
def frameEvents (outs ins : List Byte) : List LineEvent :=
  .cs false :: (bytesEvents outs ins ++ [.cs true])

/-- The event is a rising clock edge: one for each clock pulse. -/
def isPulse : LineEvent → Bool
  | .rise _ => true
  | .cs _ => false
  | .dout _ => false
  | .fall => false

/-! ### Level B -/

/-- The events of a trace at level B (R9). -/
inductive ByteEvent where
  | sel
  | xfer (out inn : Byte)
  | desel
deriving DecidableEq, Repr

/-- `n` bit cells at the front of a trace, shifted into the two bytes, and the rest of the trace. -/
def readCells : Nat → List LineEvent → Byte → Byte → Option (Byte × Byte × List LineEvent)
  | 0, es, o, i => some (o, i, es)
  | n + 1, .dout b :: .rise d :: .fall :: es, o, i => readCells n es (o.shiftConcat b) (i.shiftConcat d)
  | _ + 1, _, _, _ => none

/-- The level-B view, by recursion on a bound on the number of byte events. -/
def levelBUpTo : Nat → List LineEvent → Option (List ByteEvent)
  | _, [] => some []
  | 0, _ :: _ => none
  | k + 1, .cs b :: es => (levelBUpTo k es).map ((if b then .desel else .sel) :: ·)
  | k + 1, e :: es =>
    match readCells Config.byteBits (e :: es) 0 0 with
    | some (o, i, rest) => (levelBUpTo k rest).map (.xfer o i :: ·)
    | none => none

/-- The level-B view of a level-L trace; none when it is not made of whole byte exchanges. -/
def levelB (es : List LineEvent) : Option (List ByteEvent) := levelBUpTo es.length es

/-! ### Level F -/

/-- The one event of a transaction at level F: `FRAME(outs, ins)` (R9). -/
structure FrameEvent where
  outs : List Byte
  ins : List Byte
deriving DecidableEq, Repr

/-- The level-F view of a level-B trace, given the frame being read, when one is open. A `DESEL` with no frame open, as
`Init` makes one, is no frame. -/
def levelFFrom : Option FrameEvent → List ByteEvent → Option (List FrameEvent)
  | none, [] => some []
  | some _, [] => none
  | none, .sel :: es => levelFFrom (some ⟨[], []⟩) es
  | some f, .xfer o i :: es => levelFFrom (some ⟨f.outs ++ [o], f.ins ++ [i]⟩) es
  | some f, .desel :: es => (levelFFrom none es).map (f :: ·)
  | none, .desel :: es => levelFFrom none es
  | none, .xfer _ _ :: _ => none
  | some _, .sel :: _ => none

/-- The level-F view of a level-L trace; none when it is not made of whole frames. -/
def levelF (es : List LineEvent) : Option (List FrameEvent) := (levelB es).bind (levelFFrom none)

end Sys2Proof.Machine
end

