-- ==== Sys2Proof/Safety.lean ====
section
/-! DEFINITION. What counts as a safe state: an idle bus, a machine ready for a frame, a final state
(spec/00_scope.md R12; spec/10_state.md R37), and the invariant every step keeps. -/

namespace Sys2Proof.Machine

open Sys2Proof

/-- Nothing in progress and the lines at rest: `PHASE = IDLE`, `XACT = 0`, `CSN = 1`, `SCK = 0` (R12, R37). -/
abbrev BusIdle (s : State) : Prop :=
  s.block.phase = .idle ∧ s.block.xact = false ∧ s.block.csn = true ∧ s.block.sck = false

/-- What table HOST asks before a frame: `Init` has run and the bus is idle (R12, R170). -/
abbrev Ready (s : State) : Prop := s.block.inited = true ∧ BusIdle s

/-- The device of spec/20_memory.md is at the other end of the bus (R3). -/
abbrev Reference (s : State) : Prop := s.params.device = .reference

/-- A final state: no operation in progress and the device not busy (R12; a faulted run has no state). -/
abbrev Final (s : State) : Prop := BusIdle s ∧ operationInProgress s = false ∧ isBusy s = false

/-- An operation's address is below the capacity. -/
def flightInRange (capacity : Nat) : FlightOp → Bool
  | .program a _ => decide (a < capacity)
  | .sectorErase a => decide (a < capacity)
  | .chipErase => true
  | .writeStatus => true

/-- A strictly rising list: one list per finite set. -/
abbrev Rising (l : List Nat) : Prop := l.Pairwise (· < ·)

/-- The device's part of the invariant: the array is in its canonical form and inside the capacity, BUSY says whether
an operation is in flight (R35(2), R70), a byte being assembled is short of eight bits, the lost sectors are sectors
of the array. -/
structure DevInv (p : Params) (d : Device) : Prop where
  mem_wf : memWf d.mem = true
  mem_range : ∀ c ∈ d.mem, c.1 < p.capacity
  busy_iff : busyIn p d.status = d.inflight.isSome
  flight_range : ∀ f, d.inflight = some f → flightInRange p.capacity f.op = true
  rx_bits : d.rxBits < Config.byteBits
  lost_rising : Rising d.lost
  lost_range : ∀ x ∈ d.lost, x < p.capacity ∧ x % Config.sectorSize = 0

/-- The block's part of the invariant: BITCNT is 0..8 (R22), `IDX <= LEN` and `BUF` has LEN bytes (R26, R27), while
something is in progress `SCK = 0`, while a transaction is in progress `CSN = 0` (R25, R37), and between two exchanges
of a transaction the PERIPHERAL implementation has DONE set (R23). -/
structure BlockInv (p : Params) (b : Block) : Prop where
  bitcnt_le : b.bitcnt ≤ Config.byteBits
  idx_le : b.idx ≤ b.len
  buf_length : b.buf.length = b.len
  clock_low : b.xact = true ∨ b.phase ≠ .idle → b.sck = false
  selected : b.phase ≠ .idle → b.csn = false
  done_set : p.transport = .peripheral → b.phase ≠ .idle → b.xact = false → b.done = true

/-- The invariant of the machine: admitted parameters (R11), the device's part, the block's part, the session's set of
sectors (R28), and that only an exchange or frame on the lines is the second caller's (R288; log 19). -/
structure Inv (s : State) : Prop where
  params_wf : s.params.wf = true
  dev : DevInv s.params s.dev
  block : BlockInv s.params s.block
  erased_rising : Rising s.session.erased
  guest_holds : s.guest = true → s.block.phase = .idle ∧ linesInUse s = true

/-- The lines at rest between steps (R37, R171): `SCK = 0`, and `CSN = 1` outside a transaction. -/
abbrev LinesAtRest (b : Block) : Prop := b.sck = false ∧ (b.phase = .idle → b.csn = true)

/-! ### Runs -/

/-- `n` machine steps. -/
def run : Nat → State → Result
  | 0, s => .next s
  | n + 1, s => andThen (step s) (run n)

/-! ### What a frame does -/

/-- What no frame touches: the parameters, the session, both callers' side, the inputs from outside. -/
structure FrameKept (s t : State) : Prop where
  params : t.params = s.params
  session : t.session = s.session
  pending : t.pending = s.pending
  outside : t.outside = s.outside
  guest : t.guest = s.guest
  inited : t.block.inited = s.block.inited

/-- What `BUF` holds after the frame of `r` during which the bytes `ins` came in (R105, R116). -/
def filled (r : Request) (ins : List Byte) : List Byte :=
  match r.dir with
  | .inbound => ins.drop (1 + r.doAddr.length)
  | .outbound => r.buf

/-- What a `Transaction` gives back (table HOST): the filled buffer when inbound. -/
def givenBack (r : Request) (ins : List Byte) : Ret :=
  match r.dir with
  | .inbound => .bytes (filled r ins)
  | .outbound => .nothing

/-- What a frame by mnemonic gives back (table HOST, R175, R178): READ its bytes, RDSR the status byte. -/
def commandRet : Instr → List Byte → Ret
  | .read a n, ins => .bytes (extractPayload (.read a n) ins)
  | .rdsr, ins => .byte ((extractPayload .rdsr ins).headD 0)
  | .program _ _, _ => .nothing
  | .wren, _ => .nothing
  | .ce, _ => .nothing
  | .se _, _ => .nothing
  | .ewsr, _ => .nothing
  | .wrsr _, _ => .nothing

/-- What the block does in the frame of `r`, begun in `s` and ended in `t`, during which the bytes `ins` came in: the
trace of R183, the latches and the buffer of R170 (ADDR where there is an address, R26), its postcondition, and everything
else as before. -/
structure FrameRan (r : Request) (ins : List Byte) (s t : State) : Prop where
  kept : FrameKept s t
  idle : BusIdle t
  trace : wire t = wire s ++ frameEvents r.doBytes ins
  lengths : ins.length = r.doBytes.length
  opc : t.block.opc = r.opc
  ap : t.block.ap = r.addr.isSome
  addr : ∀ a, r.addr = some a → t.block.addr = a
  dir : t.block.dir = r.dir
  len : t.block.len = r.buf.length
  idx : t.block.idx = r.buf.length
  buf : t.block.buf = filled r ins

/-- A `Transaction` that has run: its frame, and what the caller gets back. -/
structure TransactionRan (r : Request) (ins : List Byte) (s t : State) : Prop extends FrameRan r ins s t where
  ret : t.ret = givenBack r ins

/-- A command that has run: the frame of its encoding, and what the caller gets back. -/
structure CommandRan (i : Instr) (ins : List Byte) (s t : State) : Prop extends FrameRan (encodeFrame i) ins s t where
  ret : t.ret = commandRet i ins

/-- Every byte of the array reads as before, and holds defined contents where it did before. -/
abbrev ArrayKept (s t : State) : Prop :=
  ∀ a, memRead t.dev.mem a = memRead s.dev.mem a ∧ isLost t a = isLost s a

/-! ### What a byte exchange does -/

/-- The exchange of the byte `v` for the byte `w`, begun in `s` and ended in `t`: the trace of R142, the postcondition of
R140, DONE as R23 and R143 say, and everything of the block, the session and the caller that R146 leaves alone. -/
structure Exchanged (v w : Byte) (s t : State) : Prop where
  trace : wire t = wire s ++ byteEvents v w
  sr : regByte t.block.sr = w
  dout : t.block.dout = v.getLsbD 0
  sck : t.block.sck = false
  bitcnt : t.block.bitcnt = Config.byteBits
  xact : t.block.xact = false
  done : t.block.done = match s.params.transport with
    | .bitbang => s.block.done
    | .peripheral => true
  rest : t.block = { s.block with
    sr := t.block.sr, dout := t.block.dout, sck := t.block.sck, bitcnt := t.block.bitcnt
    xact := t.block.xact, done := t.block.done }
  session : t.session = s.session
  params : t.params = s.params
  pending : t.pending = s.pending

/-- The state in an instance whose lines the implementation `tr` drives (R144). -/
def withTransport (tr : Transport) (s : State) : State := { s with params := { s.params with transport := tr } }

/-- What is left of a state when the implementation and its completion flag are not looked at (R23, R144). -/
def forgetTransport (s : State) : State :=
  { withTransport .bitbang s with block := { s.block with done := false } }

/-- Two results that differ at most in the implementation and its completion flag. -/
def sameResult : Result → Result → Prop
  | .next t, .next u => forgetTransport t = forgetTransport u
  | .fault e, .fault f => e = f
  | .refused e, .refused f => e = f
  | _, _ => False

/-! ### The dummies of a frame -/

/-- The dummy bytes of a frame that is the command `i`: its inbound payload bytes on `DO` (R105, R111). -/
def dummies : Instr → List Byte → List Byte
  | .read _ _, w => w.drop (1 + Config.addrBytes)
  | .rdsr, w => w.drop 1
  | .program _ _, _ => []
  | .wren, _ => []
  | .ce, _ => []
  | .se _, _ => []
  | .ewsr, _ => []
  | .wrsr _, _ => []

/-- The bits of a byte, the one sent first first (R101). -/
def bitsOf (v : Byte) : List Bool :=
  [v.getLsbD 7, v.getLsbD 6, v.getLsbD 5, v.getLsbD 4, v.getLsbD 3, v.getLsbD 2, v.getLsbD 1, v.getLsbD 0]

/-! ### Micro-steps -/

/-- `n` micro-steps of what the block has in progress (R148, R172). -/
def resumeMany : Nat → State → Result
  | 0, s => .next s
  | n + 1, s => andThen (resume s) (resumeMany n)

/-- How many micro-steps a frame of `n` bytes takes: for each byte its exchange and one step of the framer, and
the end of the frame. -/
def frameMicroSteps (p : Params) (n : Nat) : Nat := n * (exchangeSteps p + 1) + 1

/-- The acts of a list, one after the other. -/
def performAll : List Act → State → Result
  | [], s => .next s
  | a :: as, s => andThen (perform a s) (performAll as)

/-! ### Frames sent -/

/-- Between `s` and `t` exactly the frames `fs` went over the wire, each whole: `CS(0)`, as many bytes in as out, `CS(1)`
(R102, R183). -/
structure Sent (s t : State) (fs : List FrameEvent) : Prop where
  whole : ∀ f ∈ fs, f.ins.length = f.outs.length
  wire : wire t = wire s ++ fs.flatMap fun f => frameEvents f.outs f.ins

/-- The frames of the program and erase commands `ops`: before each a WREN, after each as many RDSR as `polls` says
(R214 to R216, R224). -/
def writeFrames (ops : List Instr) (polls : List Nat) : List (List Byte) :=
  (List.zipWith (fun i q => encode .wren :: encode i :: List.replicate q (encode .rdsr)) ops polls).flatten

/-- Between `s` and `t` exactly the frames of the program and erase commands `ops` went over the wire, each with its WREN
and with one poll or more (R211, R224). -/
abbrev OpsSent (ops : List Instr) (s t : State) : Prop :=
  ∃ fs polls, Sent s t fs ∧ polls.length = ops.length ∧ (∀ q ∈ polls, 1 ≤ q)
    ∧ fs.map (·.outs) = writeFrames ops polls

/-! ### The end of a program or erase -/

/-- The caller can start a program or erase: the bus and the device idle, the reference device, nothing from outside
(R283, R284, R285). -/
structure WriteReady (s : State) : Prop where
  ready : Ready s
  reference : Reference s
  idle : isBusy s = false
  noFlight : s.dev.inflight = none
  unprotected : isProt s = false
  quiet : s.outside = []
  mem_wf : memWf s.dev.mem = true
  params_wf : s.params.wf = true

/-- What a driver operation that does the program or erase `i` has sent, what it leaves as it was, and the state it ends
in (R75, R210, R214 to R216): the caller's next acts are `rest`. -/
structure WriteDone (s : State) (i : Instr) (rest : List Act) (t : State) : Prop where
  sent : OpsSent [i] s t
  ready : Ready t
  idle : isBusy t = false
  latch : isWel t = false
  protection : isProt t = isProt s
  noFlight : t.dev.inflight = none
  pending : t.pending = rest
  session : t.session = s.session
  params : t.params = s.params
  outside : t.outside = []
  ret : t.ret = .nothing

/-! ### The write session -/

/-- The sector of `x` holds a byte of `[c, c + n)` (R220, R221). -/
abbrev touched (c n x : Nat) : Prop := 0 < n ∧ sectorIndex c ≤ sectorIndex x ∧ sectorIndex x < c + n

/-- What the byte at `x` holds after `WriteIncrementalArray(buf)` at the cursor `c`, `old` before: a sector of the range
that the session has not erased yet is erased first, then every byte of the range is programmed (R220, R66, R67). -/
def sessionByte (erased : List Nat) (c : Nat) (buf : List Byte) (old : Byte) (x : Nat) : Byte :=
  (if touched c buf.length x ∧ sectorIndex x ∉ erased then Config.erasedByte else old) &&&
    (if c ≤ x ∧ x < c + buf.length then buf.getD (x - c) Config.erasedByte else Config.erasedByte)

/-- The program and erase commands of a `WriteIncrementalArray(buf)` at the cursor `c`, in order: each byte programmed at
its true address, and before the first byte of a sector that the session has not erased, the erase of that sector, once
(R220, R223). -/
def sessionOps (erased : List Nat) (c : Nat) : List Byte → List Instr
  | [] => []
  | v :: vs =>
    if sectorIndex c ∈ erased then .program (operandAddr c) v :: sessionOps erased (c + 1) vs
    else .se (operandAddr (sectorIndex c)) :: .program (operandAddr c) v
      :: sessionOps (sectorIndex c :: erased) (c + 1) vs

/-- What a `WriteIncrementalArray(buf)` begun in `s` has done when it ends in `t` with the caller's next acts `rest`:
the frames it has sent (R224), the session, and every byte of the array (R220). -/
structure SessionWritten (s : State) (buf : List Byte) (rest : List Act) (t : State) : Prop where
  sent : OpsSent (sessionOps s.session.erased s.session.cursor buf) s t
  ready : WriteReady t
  params : t.params = s.params
  pending : t.pending = rest
  lost : t.dev.lost = []
  mode : t.session.mode = .opened
  cursor : t.session.cursor = s.session.cursor + buf.length
  erased : ∀ y, y ∈ t.session.erased ↔
    y ∈ s.session.erased ∨ ∃ x, s.session.cursor ≤ x ∧ x < s.session.cursor + buf.length ∧ y = sectorIndex x
  mem : ∀ x, memRead t.dev.mem x
    = sessionByte s.session.erased s.session.cursor buf (memRead s.dev.mem x) x
  ret : t.ret = .nothing

end Sys2Proof.Machine
end

