-- ==== Sys2Proof/Certificates/Slice0/Obligations.lean ====
section
/-! DEFINITION. The statements for the provers. -/

open Sys2Proof Sys2Proof.Machine

/-! ### Encoding (spec/30_encoding.md) -/

/-- R112: decoding what was encoded gives the command back; encoding what was decoded gives the bytes back when the
dummies are 0x00; no two commands have the same bytes. -/
def Obligations.RoundTrip : Prop :=
  (∀ i : Instr, decodeFrame (encode i) = .command i)
  ∧ (∀ (w : List Byte) (i : Instr), decodeFrame w = .command i →
      (∀ b ∈ dummies i w, b = 0x00#8) → encode i = w)
  ∧ (∀ i j : Instr, encode i = encode j → i = j)

/-- Words written out from table SHAPE and R110 decode to their commands (R104, R106, R111). -/
def Obligations.DecodedWords : Prop :=
  decodeFrame [0x03#8, 0x01#8, 0x23#8, 0x45#8, 0x00#8, 0x00#8] = .command (.read 0x012345#24 2)
  ∧ decodeFrame [0x02#8, 0x00#8, 0x0F#8, 0xFA#8, 0x01#8] = .command (.program 0x000FFA#24 0x01#8)
  ∧ decodeFrame [0x06#8] = .command .wren
  ∧ decodeFrame [0x05#8, 0x00#8] = .command .rdsr
  ∧ decodeFrame [0x60#8] = .command .ce
  ∧ decodeFrame [0x20#8, 0x00#8, 0x10#8, 0x00#8] = .command (.se 0x001000#24)
  ∧ decodeFrame [0x50#8] = .command .ewsr
  ∧ decodeFrame [0x01#8, 0x00#8] = .command (.wrsr 0x00#8)

/-- R108, R109, R111: the empty frame, every unassigned opcode, every assigned opcode with a length table SHAPE does not
allow, and every frame that is no whole number of bytes have a named verdict; the device makes a fault of the last
(R83, table X1). (That the fault records the whole bytes of such a frame only, without the bits of its last byte, is the
model's reading of table X1, DEDUCED: log 29.) -/
def Obligations.IllegalEncodings : Prop :=
  decodeFrame [] = .illegal .empty
  ∧ (∀ (o : Byte) (w : List Byte), o ∉ [0x01#8, 0x02#8, 0x03#8, 0x05#8, 0x06#8, 0x20#8, 0x50#8, 0x60#8] →
      decodeFrame (o :: w) = .illegal .opcode)
  ∧ (∀ w : List Byte, w.length ≠ 0 → decodeFrame (0x06#8 :: w) = .illegal .length
      ∧ decodeFrame (0x50#8 :: w) = .illegal .length ∧ decodeFrame (0x60#8 :: w) = .illegal .length)
  ∧ (∀ w : List Byte, w.length ≠ 1 → decodeFrame (0x05#8 :: w) = .illegal .length
      ∧ decodeFrame (0x01#8 :: w) = .illegal .length)
  ∧ (∀ w : List Byte, w.length ≠ 3 → decodeFrame (0x20#8 :: w) = .illegal .length)
  ∧ (∀ w : List Byte, w.length ≠ 4 → decodeFrame (0x02#8 :: w) = .illegal .length)
  ∧ (∀ w : List Byte, w.length < 3 → decodeFrame (0x03#8 :: w) = .illegal .length)
  ∧ (∀ (pulses : Nat) (w : List Byte), pulses % 8 ≠ 0 → decodePulses pulses w = .illegal .length)
  ∧ (∀ w : List Byte, decodePulses (8 * w.length) w = decodeFrame w)
  ∧ ∀ s : State, s.dev.rxBits % 8 ≠ 0 → onDeselect s = .fault (.illegalFrame s.dev.rxBytes)

/-- R109, table SHAPE: the length of every frame, and that it is `1 + 3*AP + LEN`. -/
def Obligations.FrameLengths : Prop :=
  (∀ i : Instr, (encode i).length
      = 1 + 3 * (encodeFrame i).addr.isSome.toNat + (encodeFrame i).buf.length)
  ∧ (∀ a n, (encode (.read a n)).length = 4 + n) ∧ (∀ a v, (encode (.program a v)).length = 5)
  ∧ (encode .wren).length = 1 ∧ (encode .rdsr).length = 2 ∧ (encode .ce).length = 1
  ∧ (∀ a, (encode (.se a)).length = 4) ∧ (encode .ewsr).length = 1 ∧ ∀ v, (encode (.wrsr v)).length = 2

/-- R107, R108(2): every command's arguments match a row of table SHAPE, and whatever arguments `Transaction` admits,
the bytes sent are the frame of one of the eight commands. -/
def Obligations.AdmittedAreTheEightFrames : Prop :=
  (∀ i : Instr, (encodeFrame i).admitted = true)
  ∧ ∀ r : Request, r.admitted = true → ∃ i : Instr, encode i = r.doBytes ∧ decodeFrame r.doBytes = .command i

/-! ### The byte exchange (spec/40_bit_transport.md) -/

/-- R140, R142, R143, R146: whatever the device does, a `PutByte` that ends has sent its byte in 24 events, left the
byte it received in `SR`, and touched nothing else; while nothing listens it always ends. -/
def Obligations.PutByteExchangesOneByte : Prop :=
  ∀ (v : Byte) (s : State), s.block.sck = false →
    (∀ t, putByte v s = .next t → ∃ w, Exchanged v w s t)
    ∧ (listening s = false → ∃ t w, putByte v s = .next t ∧ Exchanged v w s t ∧ t.dev = s.dev)

/-- R141: `GetByte()` is `PutByte(0x00)`: its result is that operation's, and DO is 0 in all eight cells. -/
def Obligations.GetByteIsPutByteOfZero : Prop :=
  ∀ s : State, s.block.inited = true → s.block.sck = false → blockBusy s = false →
    perform .getByte s = perform (.putByte 0x00#8) s
    ∧ ∀ t, perform .getByte s = .next t → ∃ w, Exchanged 0x00#8 w s t ∧ t.ret = .byte w

/-- R143: the load clears DONE and starts the shifter; a bit cell leaves DONE alone and counts; after eight, the
completion step sets DONE, ends the exchange and moves no line. -/
def Obligations.DoneProtocol : Prop :=
  ∀ s : State, s.params.transport = .peripheral →
    (∀ v, (loadByte v s).block.done = false ∧ (loadByte v s).block.xact = true
      ∧ (loadByte v s).block.bitcnt = 0 ∧ wire (loadByte v s) = wire s)
    ∧ (∀ t, s.block.bitcnt < 8 → shifterStep s = .next t →
        t.block.bitcnt = s.block.bitcnt + 1 ∧ t.block.done = s.block.done ∧ t.block.xact = s.block.xact
        ∧ ∃ d, wire t = wire s ++ cellEvents s.block.sr.b7 d ∧ t.block.sr = shiftReg s.block.sr d)
    ∧ (s.block.bitcnt = 8 → shifterStep s = .next
        { s with block := { s.block with done := true, xact := false } })

/-- R144: in the two implementations every command gives the same trace, the same answer and the same state of
everything but the completion flag, or stops for the same reason. -/
def Obligations.TransportsAgree : Prop :=
  ∀ (i : Instr) (s : State),
    sameResult (exec i (withTransport .bitbang s)) (exec i (withTransport .peripheral s))

/-! ### The frame on the wire (spec/41_command_framer.md) -/

/-- R170, R183: from every state, a command that ends has put exactly the bytes of its encoding on the wire between one
`CS(0)` and one `CS(1)`, its buffer is the payload bytes that came in, its answer those bytes for READ and the status
byte for RDSR (R175, R178), the bus is idle again, and the session, the parameters and the caller's side are as they
were. The same of any `Transaction` with its own arguments. -/
def Obligations.FrameOnTheWire : Prop :=
  (∀ (i : Instr) (s t : State), exec i s = .next t →
    ∃ ins, CommandRan i ins s t ∧ filled (encodeFrame i) ins
      = (match i with
        | .program _ v => [v]
        | .wrsr v => [v]
        | i => extractPayload i ins))
  ∧ ∀ (r : Request) (s t : State), transaction r s = .next t → ∃ ins, TransactionRan r ins s t

/-- R183: the trace of a transaction, at the three levels: `N = 1 + 3*AP + LEN` exchanges between `SEL` and `DESEL`;
`2 + 24*N` line events with `8*N` clock pulses; one FRAME. Every command is such a transaction, and what it returns. -/
def Obligations.TraceLevels : Prop :=
  (∀ (r : Request) (s t : State), r.admitted = true → transaction r s = .next t →
    ∃ ins, ins.length = r.doBytes.length ∧ wire t = wire s ++ frameEvents r.doBytes ins
      ∧ r.doBytes.length = 1 + 3 * r.addr.isSome.toNat + r.buf.length)
  ∧ (∀ (i : Instr) (s : State), exec i s = andThen (transaction (encodeFrame i) s)
        (fun t => .next (if i = .rdsr then returnByte t else t))
      ∧ (encodeFrame i).doBytes = encode i)
  ∧ ∀ outs ins : List Byte, ins.length = outs.length →
    (frameEvents outs ins).length = 2 + 24 * outs.length
    ∧ ((frameEvents outs ins).filter isPulse).length = 8 * outs.length
    ∧ levelB (frameEvents outs ins) = some (.sel :: (List.zipWith ByteEvent.xfer outs ins ++ [.desel]))
    ∧ levelF (frameEvents outs ins) = some [⟨outs, ins⟩]

/-- R170, R184, R264(5), R264(6): a command is refused exactly when `Init` has not run, or an operation is in progress,
seen from PHASE, XACT or lines that are not idle; the refusal says which. (That lines not idle are an operation in
progress is DEDUCED: log 14. Which refusal is named when both hold is the model's choice: log 33.) -/
def Obligations.WhenACommandIsRefused : Prop :=
  ∀ (i : Instr) (s : State),
    (s.block.inited = false → exec i s = .refused .notInitialised)
    ∧ (s.block.inited = true → blockBusy s = true → exec i s = .refused .secondCaller)
    ∧ (s.block.inited = true → blockBusy s = false → s.block.sck = true ∨ s.block.csn = false →
        exec i s = .refused .secondCaller)
    ∧ (Ready s → ∀ e, exec i s ≠ .refused e)

/-- R172, R148, R143: left to run one micro-step a machine step, a frame comes to the very state the procedure of R170
gives: from its first micro-step on it takes nine (BITBANG) or ten (PERIPHERAL) for each byte and one for its end, and
then what the mnemonic returns (R178). (What a micro-step is, and so how many there are, is the model's choice:
log 1.) -/
def Obligations.MicroStepsRunTheFrame : Prop :=
  ∀ (i : Instr) (s : State), Ready s →
    andThen (andThen (beginFine (encodeFrame i) s) (resumeMany (frameMicroSteps s.params (encode i).length)))
      (performAll (fineRest i)) = exec i s

/-! ### Each command with the reference device: where it completes, its result, its frame -/

/-- R175, R65: READ from an idle device, in range: the bytes of the array (any byte where power was lost); the array,
STATUS and the operation in flight unchanged; RDPTR left after the last byte; EWSR disarmed (R84). -/
def Obligations.ReadReturnsTheArray : Prop :=
  ∀ (a : Addr) (n : Nat) (s : State), Ready s → Reference s → isBusy s = false →
    a.toNat < s.params.capacity → a.toNat + n ≤ s.params.capacity →
    ∃ t ins vs, exec (.read a n) s = .next t ∧ CommandRan (.read a n) ins s t
      ∧ t.ret = .bytes vs ∧ vs.length = n
      ∧ (∀ k, k < n → isLost s (a.toNat + k) = false → vs[k]? = some (memRead s.dev.mem (a.toNat + k)))
      ∧ ArrayKept s t ∧ t.dev.status = s.dev.status ∧ t.dev.inflight = s.dev.inflight
      ∧ t.dev.rdptr = a.toNat + n ∧ t.dev.armed = false

/-- R178, R72: RDSR in every state of the device, busy or not: one byte whose BUSY, WEL and protection bits are those of
STATUS; nothing in the device changes but EWSR_ARMED (R84). -/
def Obligations.RdsrReturnsTheStatus : Prop :=
  ∀ s : State, Ready s → Reference s →
    ∃ t ins v, exec .rdsr s = .next t ∧ CommandRan .rdsr ins s t
      ∧ t.ret = .byte v ∧ v &&& namedMask s.params = s.dev.status &&& namedMask s.params
      ∧ busyIn s.params v = isBusy s ∧ welIn s.params v = isWel s ∧ protIn s.params v = isProt s
      ∧ ArrayKept s t ∧ t.dev.status = s.dev.status ∧ t.dev.inflight = s.dev.inflight
      ∧ t.dev.rdptr = s.dev.rdptr ∧ t.dev.armed = false

/-- R177, R69: WREN to an idle device sets WEL and no other bit of STATUS. -/
def Obligations.WrenSetsTheLatch : Prop :=
  ∀ s : State, Ready s → Reference s → isBusy s = false →
    ∃ t ins, exec .wren s = .next t ∧ CommandRan .wren ins s t
      ∧ isWel t = true
      ∧ (∀ k, k ≠ s.params.welBit.val → t.dev.status.getLsbD k = s.dev.status.getLsbD k)
      ∧ ArrayKept s t ∧ t.dev.inflight = s.dev.inflight ∧ t.dev.rdptr = s.dev.rdptr ∧ t.dev.armed = false

/-- R176, R69, R70: a PROGRAM frame that passes its tests is accepted: BUSY is set and no other bit of STATUS changes,
the operation is in flight, and no byte of the array has changed yet. -/
def Obligations.ProgramIsAccepted : Prop :=
  ∀ (a : Addr) (v : Byte) (s : State), Ready s → Reference s →
    isBusy s = false → isWel s = true → isProt s = false → a.toNat < s.params.capacity →
    ∃ t ins d, exec (.program a v) s = .next t ∧ CommandRan (.program a v) ins s t
      ∧ isBusy t = true ∧ t.dev.inflight = some ⟨.program a.toNat v, d⟩
      ∧ (∀ k, k ≠ s.params.busyBit.val → t.dev.status.getLsbD k = s.dev.status.getLsbD k)
      ∧ ArrayKept s t ∧ t.dev.rdptr = s.dev.rdptr ∧ t.dev.armed = false

/-- R180, R69, R70: an SE frame that passes its tests is accepted, with its address as given. -/
def Obligations.SectorEraseIsAccepted : Prop :=
  ∀ (a : Addr) (s : State), Ready s → Reference s →
    isBusy s = false → isWel s = true → isProt s = false → a.toNat < s.params.capacity →
    ∃ t ins d, exec (.se a) s = .next t ∧ CommandRan (.se a) ins s t
      ∧ isBusy t = true ∧ t.dev.inflight = some ⟨.sectorErase a.toNat, d⟩
      ∧ (∀ k, k ≠ s.params.busyBit.val → t.dev.status.getLsbD k = s.dev.status.getLsbD k)
      ∧ ArrayKept s t ∧ t.dev.rdptr = s.dev.rdptr ∧ t.dev.armed = false

/-- R179, R69, R70: a CE frame that passes its tests is accepted. -/
def Obligations.ChipEraseIsAccepted : Prop :=
  ∀ s : State, Ready s → Reference s →
    isBusy s = false → isWel s = true → isProt s = false →
    ∃ t ins d, exec .ce s = .next t ∧ CommandRan .ce ins s t
      ∧ isBusy t = true ∧ t.dev.inflight = some ⟨.chipErase, d⟩
      ∧ (∀ k, k ≠ s.params.busyBit.val → t.dev.status.getLsbD k = s.dev.status.getLsbD k)
      ∧ ArrayKept s t ∧ t.dev.rdptr = s.dev.rdptr ∧ t.dev.armed = false

/-- R181, R84: EWSR to an idle device arms it for one WRSR and writes nothing of STATUS. -/
def Obligations.EwsrArms : Prop :=
  ∀ s : State, Ready s → Reference s → isBusy s = false →
    ∃ t ins, exec .ewsr s = .next t ∧ CommandRan .ewsr ins s t
      ∧ t.dev.armed = true ∧ t.dev.status = s.dev.status
      ∧ ArrayKept s t ∧ t.dev.inflight = s.dev.inflight ∧ t.dev.rdptr = s.dev.rdptr

/-- R182, R84: an armed WRSR to an idle device gives the protection bits the value's, writes no other bit, disarms, and
makes the device busy only in an instance with `wrsrBusy` (log 20; R84 itself is the other case). -/
def Obligations.WrsrWritesProtection : Prop :=
  ∀ (v : Byte) (s : State), Ready s → Reference s → isBusy s = false → s.dev.armed = true →
    ∃ t ins, exec (.wrsr v) s = .next t ∧ CommandRan (.wrsr v) ins s t
      ∧ t.dev.armed = false ∧ ArrayKept s t ∧ t.dev.rdptr = s.dev.rdptr
      ∧ (s.params.wrsrBusy = false → t.dev.status = (s.dev.status &&& ~~~s.params.bpMask) ||| (v &&& s.params.bpMask)
        ∧ t.dev.inflight = s.dev.inflight)
      ∧ (s.params.wrsrBusy = true → isBusy t = true ∧ (∃ d, t.dev.inflight = some ⟨.writeStatus, d⟩)
        ∧ ∀ k, k ≠ s.params.busyBit.val → t.dev.status.getLsbD k
          = ((s.dev.status &&& ~~~s.params.bpMask) ||| (v &&& s.params.bpMask)).getLsbD k)
      ∧ (v = 0x00#8 → s.params.wf = true → isProt t = false)

/-! ### Each command with the oracle -/

/-- R3, R170, R146: with an unconstrained device every one of the eight commands completes from every ready state:
the operation is unconditional, its frame is on the wire, and nothing of the device's side changes. -/
def Obligations.EveryCommandCompletesWithTheOracle : Prop :=
  ∀ (i : Instr) (s : State), Ready s → s.params.device = .oracle →
    ∃ t ins, exec i s = .next t ∧ CommandRan i ins s t ∧ t.dev = s.dev

/-- R3, R149: the oracle may answer anything: whatever bytes are asked for, some course of its answers gives them. -/
def Obligations.TheOracleMayAnswerAnything : Prop :=
  ∀ (i : Instr) (s : State) (ins : List Byte), Ready s → s.params.device = .oracle →
    ins.length = (encode i).length →
    ∃ t, exec i { s with script := ins.flatMap bitsOf } = .next t
      ∧ CommandRan i ins { s with script := ins.flatMap bitsOf } t

/-! ### Where the reference device stops a command (spec/60_exceptions.md) -/

/-- R82, R73, R254 for READ: busy is tested before the address, the address when the header ends, and streaming past
the end at the byte that would be the first one past it. (That the address recorded there is CAPACITY, and at which
edge of that byte the test stands, is the model's reading, DEDUCED: log 30, log 11.) -/
def Obligations.ReadFaults : Prop :=
  ∀ (a : Addr) (n : Nat) (s : State), Ready s → Reference s →
    (isBusy s = true → exec (.read a n) s = .fault (.busyViolation 0x03#8))
    ∧ (isBusy s = false → s.params.capacity ≤ a.toNat → exec (.read a n) s = .fault (.addrRange a.toNat))
    ∧ (isBusy s = false → a.toNat < s.params.capacity → s.params.capacity < a.toNat + n →
        exec (.read a n) s = .fault (.addrRange s.params.capacity))

/-- R254, table X1 for PROGRAM, SE and CE: the highest fault that applies, and only that one. -/
def Obligations.WriteFaultsInOrder : Prop :=
  ∀ (i : Instr) (opc : Byte) (a : Option Nat) (s : State), Ready s → Reference s →
    (∃ x v, i = .program x v ∧ opc = 0x02#8 ∧ a = some x.toNat)
      ∨ (∃ x, i = .se x ∧ opc = 0x20#8 ∧ a = some x.toNat) ∨ (i = .ce ∧ opc = 0x60#8 ∧ a = none) →
    (isBusy s = true → exec i s = .fault (.busyViolation opc))
    ∧ (isBusy s = false → isWel s = false → exec i s = .fault (.welMissing opc))
    ∧ (isBusy s = false → isWel s = true → isProt s = true → exec i s = .fault (.writeProtected opc))
    ∧ (isBusy s = false → isWel s = true → isProt s = false → ∀ x, a = some x → s.params.capacity ≤ x →
        exec i s = .fault (.addrRange x))

/-- R82, R84, R254 for WREN, EWSR and WRSR: busy is a fault; a WRSR that is not armed is an illegal frame, busy or
not. -/
def Obligations.StatusFrameFaults : Prop :=
  ∀ s : State, Ready s → Reference s →
    (isBusy s = true → exec .wren s = .fault (.busyViolation 0x06#8)
      ∧ exec .ewsr s = .fault (.busyViolation 0x50#8))
    ∧ ∀ v, (s.dev.armed = false → exec (.wrsr v) s = .fault (.illegalFrame [0x01#8, v]))
      ∧ (s.dev.armed = true → isBusy s = true → exec (.wrsr v) s = .fault (.busyViolation 0x01#8))

/-- R82, R178: while the device is busy RDSR is the only command that completes. -/
def Obligations.OnlyRdsrWhileBusy : Prop :=
  ∀ (i : Instr) (s : State), Ready s → Reference s → isBusy s = true →
    ((∃ t, exec i s = .next t) ↔ i = .rdsr)

/-! ### Which command writes which flag (spec/10_state.md R33, R35) -/

/-- R33, R69, R70, R84: with the reference device and admitted parameters, only WREN raises WEL, only an accepted
PROGRAM, SE or CE raises BUSY (WRSR where `wrsrBusy`, log 20), only WRSR changes PROT, no command lowers BUSY or WEL,
and after a command EWSR_ARMED is set exactly when it was EWSR. -/
def Obligations.WhichCommandWritesWhichFlag : Prop :=
  ∀ (i : Instr) (s t : State), Reference s → s.params.wf = true → exec i s = .next t →
    (isWel t ≠ isWel s → i = .wren ∧ isWel t = true)
    ∧ (isBusy t ≠ isBusy s → isBusy t = true ∧ t.dev.inflight.isSome = true
      ∧ ((∃ a v, i = .program a v) ∨ (∃ a, i = .se a) ∨ i = .ce ∨ (s.params.wrsrBusy = true ∧ ∃ v, i = .wrsr v)))
    ∧ (isProt t ≠ isProt s → ∃ v, i = .wrsr v)
    ∧ (t.dev.armed = true ↔ i = .ewsr)
    ∧ ArrayKept s t

/-! ### The device's own step (spec/20_memory.md R66 to R70) -/

/-- R66, R70: the finishing step of a PROGRAM: the byte becomes `old & v`, every other byte reads as before, BUSY and
WEL fall, no other bit of STATUS changes, and the block, the session and the caller's side stay as they are. A byte of a
sector whose contents a loss of power made undefined stays undefined (R74; log 18). -/
def Obligations.ProgramFinishes : Prop :=
  ∀ (s : State) (a : Nat) (v : Byte), s.outside = [] → s.dev.inflight = some ⟨.program a v, 0⟩ →
    memWf s.dev.mem = true → isLost s a = false →
    ∃ t, step s = .next t
      ∧ (∀ x, memRead t.dev.mem x = if x = a then memRead s.dev.mem a &&& v else memRead s.dev.mem x)
      ∧ (∀ x, isLost t x = isLost s x) ∧ t.dev.inflight = none ∧ isBusy t = false ∧ isWel t = false
      ∧ (∀ k, k ≠ s.params.busyBit.val → k ≠ s.params.welBit.val → t.dev.status.getLsbD k = s.dev.status.getLsbD k)
      ∧ t.dev.armed = s.dev.armed ∧ t.dev.rdptr = s.dev.rdptr
      ∧ t.block = s.block ∧ t.session = s.session ∧ t.pending = s.pending ∧ t.trace = s.trace ∧ t.ret = s.ret

/-- R67, R70: the finishing step of an SE: the sector that holds `a` reads 0xFF and is defined, every byte outside it
reads as before. -/
def Obligations.SectorEraseFinishes : Prop :=
  ∀ (s : State) (a : Nat), s.outside = [] → s.dev.inflight = some ⟨.sectorErase a, 0⟩ →
    ∃ t, step s = .next t
      ∧ (∀ x, memRead t.dev.mem x
        = if a - a % 4096 ≤ x ∧ x < a - a % 4096 + 4096 then 0xFF#8 else memRead s.dev.mem x)
      ∧ (∀ x, isLost t x = if a - a % 4096 ≤ x ∧ x < a - a % 4096 + 4096 then false else isLost s x)
      ∧ t.dev.inflight = none ∧ isBusy t = false ∧ isWel t = false
      ∧ (∀ k, k ≠ s.params.busyBit.val → k ≠ s.params.welBit.val → t.dev.status.getLsbD k = s.dev.status.getLsbD k)
      ∧ t.dev.armed = s.dev.armed ∧ t.dev.rdptr = s.dev.rdptr
      ∧ t.block = s.block ∧ t.session = s.session ∧ t.pending = s.pending ∧ t.trace = s.trace ∧ t.ret = s.ret

/-- R68, R70: the finishing step of a CE: every byte of the array reads 0xFF and is defined. -/
def Obligations.ChipEraseFinishes : Prop :=
  ∀ s : State, s.outside = [] → s.dev.inflight = some ⟨.chipErase, 0⟩ →
    ∃ t, step s = .next t
      ∧ (∀ x, memRead t.dev.mem x = if x < s.params.capacity then 0xFF#8 else memRead s.dev.mem x)
      ∧ (∀ x, isLost t x = false)
      ∧ t.dev.inflight = none ∧ isBusy t = false ∧ isWel t = false
      ∧ (∀ k, k ≠ s.params.busyBit.val → k ≠ s.params.welBit.val → t.dev.status.getLsbD k = s.dev.status.getLsbD k)
      ∧ t.dev.armed = s.dev.armed ∧ t.dev.rdptr = s.dev.rdptr
      ∧ t.block = s.block ∧ t.session = s.session ∧ t.pending = s.pending ∧ t.trace = s.trace ∧ t.ret = s.ret

/-- R30, R64, R70, R78: no step of any agent changes a byte of the array but the finishing step of an operation in
flight. -/
def Obligations.OnlyTheFinishingStepWritesTheArray : Prop :=
  ∀ s t : State, step s = .next t → t.dev.mem ≠ s.dev.mem →
    (s.outside = [] ∨ ∃ rest, s.outside = .quiet :: rest) ∧ ∃ op, s.dev.inflight = some ⟨op, 0⟩

/-- R70, R262: BUSY falls only at the finishing step of the operation in flight, or when power is lost; R286: nothing
the caller does ends an operation. -/
def Obligations.NothingElseEndsAnOperation : Prop :=
  ∀ s t : State, s.params.wf = true → step s = .next t → isBusy s = true → isBusy t = false →
    (∃ rest, s.outside = .powerLoss :: rest) ∨ ∃ op, s.dev.inflight = some ⟨op, 0⟩

/-! ### One step -/

/-- A step fetches the frame at the front of `pending`, decodes it and runs the command: `exec` in the state without it
(and with the operation in flight one step nearer to its end, log 9). The second clause says the same of the place the
host puts an instruction (log 2). -/
def Obligations.StepRunsTheDecodedFrame : Prop :=
  (∀ (s : State) (i : Instr) (outs : List Byte) (rest : List Act), s.outside = [] → flightDue s = none →
      blockBusy s = false → s.block.inited = true → s.pending = .frame outs :: rest →
      decodeFrame outs = .command i → step s = exec i (fetched s))
  ∧ (∀ (s : State) (i : Instr) (nbits w : Nat), decodeTableWord nbits w = some i →
      step (s.withFetchWord nbits w) = exec i (fetched (s.withFetchWord nbits w)))

/-- R36, table S2 (the values the spec gives), R38: what reset leaves. -/
def Obligations.ResetValues : Prop :=
  ∀ (p : Params) (m : Memory), p.wf = true →
    (State.resetWith p m).block.sck = false ∧ (State.resetWith p m).block.csn = true
    ∧ (State.resetWith p m).block.bitcnt = 0 ∧ (State.resetWith p m).block.xact = false
    ∧ (State.resetWith p m).block.done = false ∧ (State.resetWith p m).block.phase = .idle
    ∧ (State.resetWith p m).session.mode = .idle ∧ isBusy (State.resetWith p m) = false
    ∧ isWel (State.resetWith p m) = false
    ∧ (State.resetWith p m).dev.status &&& p.bpMask = p.bpMask
    ∧ (p.bpMask ≠ 0 → isProt (State.resetWith p m) = true)
    ∧ (State.resetWith p m).dev.armed = false ∧ (State.resetWith p m).dev.mem = m

/-- R36, R282: the invariant holds at reset, for every admitted parameters and every array in its canonical form inside
the capacity, before `Init` and after it; so at `State.reset`. (The parameters of `State.reset` are log 3, the latches
log 5, the device's fields log 6, its empty list log 7, the state before `Init` log 4.) -/
def Obligations.ResetMeetsTheInvariant : Prop :=
  (∀ (p : Params) (m : Memory), p.wf = true → memWf m = true → (∀ c ∈ m, c.1 < p.capacity) →
    Inv (State.resetWith p m) ∧ Inv (State.beforeInit p m))
  ∧ Inv State.reset

/-- Every step of every agent keeps the invariant: the canonical form and the range of the array, BUSY set exactly while
an operation is in flight, BITCNT and IDX in their ranges, the clock low between exchanges and the device selected
inside a frame, DONE set between two exchanges of a frame, the second caller's only what is on the lines (log 19). And
R37, R171: no step but a caller's own `setClock(1)` or `selectChip(true)` takes the lines from rest: `SCK = 0`, and
`CSN = 1` outside a transaction. -/
def Obligations.StepKeepsTheInvariant : Prop :=
  (∀ s t : State, Inv s → step s = .next t → Inv t)
  ∧ ∀ s t : State, LinesAtRest s.block → step s = .next t →
    LinesAtRest t.block ∨ ∃ a, (a = .setClock true ∨ a = .selectChip true) ∧ blockBusy s = false
      ∧ ((flightDue s = none ∧ ∃ rest, s.pending = a :: rest) ∨ ∃ rest, s.outside = .secondCaller a :: rest)

/-- R143, R263(1): the stuck state of a wait for DONE that no shifter step ends is not reached (log 13). -/
def Obligations.NeverStuckOnDone : Prop :=
  ∀ s : State, Inv s → step s ≠ .fault .stuckOnDone

/-- R32: the parameters are fixed for the life of an instance. -/
def Obligations.ParametersAreFixed : Prop :=
  ∀ s t : State, step s = .next t → t.params = s.params

/-- R70, R263: left alone, the device ends its operation: after as many steps as it has left and one more, it is idle.
(How long is a free value; that it is counted in machine steps is the model's choice: log 9.) -/
def Obligations.TheDeviceFinishes : Prop :=
  ∀ (n : Nat) (op : FlightOp) (s : State), s.outside = [] → s.pending = [] → blockBusy s = false →
    s.dev.inflight = some ⟨op, n⟩ →
    ∃ t, run (n + 1) s = .next t ∧ t.dev.inflight = none ∧ isBusy t = false ∧ t.block = s.block

/-! ### The caller's operations (spec/42_flash_engine_sequences.md) -/

/-- R225, R281: `Init` on idle lines, or before any: its values, the one event `CS(1)`, no frame, nothing of the device.
(That the clock makes no event there is DEDUCED: log 17.) -/
def Obligations.InitEstablishesReset : Prop :=
  ∀ s : State, s.block.inited = false ∨ (s.block.sck = false ∧ s.block.csn = true) →
    ∃ t, perform .init s = .next t ∧ Ready t ∧ t.block.bitcnt = 0 ∧ t.block.done = false
      ∧ t.session.mode = .idle ∧ t.dev = s.dev ∧ wire t = wire s ++ [.cs true] ∧ t.params = s.params

/-- R283, R264(5): before `Init` every operation but `Init` is refused. -/
def Obligations.NothingBeforeInit : Prop :=
  ∀ (a : Act) (s : State), s.block.inited = false → a ≠ .init → perform a s = .refused .notInitialised

/-- R264(1), (2), (3), (4), R226, R104: the other refusals, decided before anything is sent. (That they are decided when
the operation is taken up, and a range as a whole, is log 22's choice, and which is named first log 33's.) -/
def Obligations.RefusedBeforeAnythingIsSent : Prop :=
  ∀ s : State, s.block.inited = true →
    (∀ opc addr dir buf, Request.admitted ⟨opc, addr, dir, buf⟩ = false →
      perform (.transaction opc (addr.map (·.toNat)) dir buf) s = .refused .notAdmittedShape)
    ∧ (∀ x, 2 ^ 24 ≤ x → (∀ opc dir buf, perform (.transaction opc (some x) dir buf) s = .refused .addrWidth)
      ∧ perform (.readByte x) s = .refused .addrWidth ∧ (∀ n, perform (.readArray x n) s = .refused .addrWidth)
      ∧ (∀ v, perform (.writeByte x v) s = .refused .addrWidth)
      ∧ perform (.sectorErase x) s = .refused .addrWidth ∧ perform (.beginWrite x) s = .refused .addrWidth)
    ∧ (∀ buf, s.session.mode = .opened → buf ≠ [] → 2 ^ 24 < s.session.cursor + buf.length →
      perform (.writeIncrementalArray buf) s = .refused .addrWidth)
    ∧ (∀ a v, perform (.readWord a) s = .refused .unspecified ∧ perform (.writeWord a v) s = .refused .unspecified)
    ∧ (∀ buf, s.session.mode = .idle → perform (.writeIncrementalArray buf) s = .refused .noSession)

/-- R211: with an idle device the poll loop sends exactly one RDSR frame and ends. (That it takes four machine steps is
the model's choice: log 1 for the frame, log 24 for the pieces of the loop.) -/
def Obligations.PollEndsAtOnceWhenIdle : Prop :=
  ∀ (s : State) (rest : List Act), Ready s → Reference s → s.params.wf = true → s.outside = [] →
    s.dev.inflight = none → isBusy s = false → s.pending = .waitNotBusy :: rest →
    ∃ t ins, run 4 s = .next t ∧ Sent s t [⟨[0x05#8, 0x00#8], ins⟩] ∧ t.ret = .nothing
      ∧ t.pending = rest ∧ Ready t ∧ t.session = s.session ∧ ArrayKept s t ∧ t.dev.status = s.dev.status

/-- R211, R251: with a budget of `b` polls and a device that stays busy, the loop sends exactly `b` RDSR frames and raises
`HardwareFault` instead of sending poll number `b + 1`. (That it takes three machine steps a poll, and that the device's
time is counted in them, is the model's choice: log 24, log 9.) -/
def Obligations.PollBudgetIsKept : Prop :=
  ∀ (s : State) (rest : List Act) (b : Nat) (f : Flight), Ready s → Reference s → s.outside = [] →
    s.params.pollBudget = some b → isBusy s = true → s.dev.inflight = some f → 3 * b + 2 ≤ f.left →
    s.pending = .waitNotBusy :: rest →
    run (3 * b + 2) s = .fault .hardwareFault
    ∧ ∃ t fs, run (3 * b + 1) s = .next t ∧ Sent s t fs ∧ fs.map (·.outs) = List.replicate b [0x05#8, 0x00#8]
      ∧ Ready t ∧ isBusy t = true

/-- R214, R66, R75(2): `WriteByte(a, v)` with no budget, from idle and unprotected: WREN, PROGRAM, one poll or more; it
ends, the byte is `old & v`,
nothing else of the array has changed, and the device is idle with WEL = 0. -/
def Obligations.WriteByteEndsWithTheByteWritten : Prop :=
  ∀ (s : State) (a : Nat) (v : Byte) (rest : List Act), WriteReady s → a < s.params.capacity →
    s.params.pollBudget = none → isLost s a = false → s.pending = .writeByte a v :: rest →
    ∃ k t, run k s = .next t ∧ WriteDone s (.program (operandAddr a) v) rest t
      ∧ (∀ x, memRead t.dev.mem x = if x = a then memRead s.dev.mem a &&& v else memRead s.dev.mem x)
      ∧ ∀ x, isLost t x = isLost s x

/-- R215, R67, R75(2): `SectorErase(a)`: WREN, SE with the address as given, one poll or more; it ends, the sector of `a` reads 0xFF, every other byte as before. -/
def Obligations.SectorEraseEndsWithTheSectorErased : Prop :=
  ∀ (s : State) (a : Nat) (rest : List Act), WriteReady s → a < s.params.capacity →
    s.params.pollBudget = none → s.pending = .sectorErase a :: rest →
    ∃ k t, run k s = .next t ∧ WriteDone s (.se (operandAddr a)) rest t
      ∧ (∀ x, memRead t.dev.mem x
        = if a - a % 4096 ≤ x ∧ x < a - a % 4096 + 4096 then 0xFF#8 else memRead s.dev.mem x)
      ∧ ∀ x, isLost t x = if a - a % 4096 ≤ x ∧ x < a - a % 4096 + 4096 then false else isLost s x

/-- R216, R68, R75(2): `ChipErase()`: WREN, CE, one poll or more; it ends, every byte of the array reads 0xFF. -/
def Obligations.ChipEraseEndsWithTheArrayErased : Prop :=
  ∀ (s : State) (rest : List Act), WriteReady s → s.params.pollBudget = none → s.pending = .chipErase :: rest →
    ∃ k t, run k s = .next t ∧ WriteDone s .ce rest t
      ∧ (∀ x, x < s.params.capacity → memRead t.dev.mem x = 0xFF#8) ∧ ∀ x, isLost t x = false

/-- R217, R84: `ResetWriteProtection()` on an idle device: EWSR, then WRSR 0x00, and PROT is false. In R84's own case
there is no busy period and the two frames are all; with `wrsrBusy` (93 U9, log 20) one poll or more follow, and it ends
with the device idle. The last clause is that operation's finishing step: BUSY falls, every other bit of STATUS, WEL
among them, and the array stay (log 20). (That it takes four machine steps is log 24's choice.) -/
def Obligations.ResetWriteProtectionUnprotects : Prop :=
  (∀ (s : State) (rest : List Act), Ready s → Reference s → s.params.wf = true → s.params.wrsrBusy = false →
    s.outside = [] → s.dev.inflight = none → isBusy s = false → s.pending = .resetWriteProtection :: rest →
    ∃ t i1 i2, run 4 s = .next t ∧ Sent s t [⟨[0x50#8], i1⟩, ⟨[0x01#8, 0x00#8], i2⟩]
      ∧ isProt t = false ∧ isBusy t = false ∧ isWel t = isWel s ∧ t.dev.armed = false ∧ ArrayKept s t
      ∧ t.pending = rest ∧ t.session = s.session ∧ Ready t ∧ t.ret = .nothing)
  ∧ (∀ (s : State) (rest : List Act), Ready s → Reference s → s.params.wf = true → s.params.wrsrBusy = true →
    s.params.pollBudget = none → s.outside = [] → s.dev.inflight = none → isBusy s = false →
    s.pending = .resetWriteProtection :: rest →
    ∃ k t fs q, run k s = .next t ∧ Sent s t fs ∧ 1 ≤ q
      ∧ fs.map (·.outs) = [0x50#8] :: [0x01#8, 0x00#8] :: List.replicate q [0x05#8, 0x00#8]
      ∧ isProt t = false ∧ isBusy t = false ∧ t.dev.inflight = none ∧ isWel t = isWel s ∧ t.dev.armed = false
      ∧ ArrayKept s t ∧ t.pending = rest ∧ t.session = s.session ∧ Ready t ∧ t.ret = .nothing)
  ∧ ∀ s : State, s.outside = [] → s.dev.inflight = some ⟨.writeStatus, 0⟩ →
    ∃ t, step s = .next t ∧ isBusy t = false ∧ t.dev.inflight = none
      ∧ (∀ k, k ≠ s.params.busyBit.val → t.dev.status.getLsbD k = s.dev.status.getLsbD k)
      ∧ ArrayKept s t ∧ t.dev.armed = s.dev.armed ∧ t.dev.rdptr = s.dev.rdptr ∧ t.block = s.block
      ∧ t.session = s.session ∧ t.pending = s.pending ∧ t.trace = s.trace ∧ t.ret = s.ret

/-- R212, R213: `ReadByte` and `ReadArray` are one READ frame, and give back what it read. (That they take three machine
steps is log 24's choice.) -/
def Obligations.ReadOperationsAreOneFrame : Prop :=
  ∀ (s : State) (a : Addr) (n : Nat) (rest : List Act), Ready s → Reference s → s.outside = [] →
    s.dev.inflight = none → isBusy s = false → s.dev.lost = [] → a.toNat < s.params.capacity →
    (s.pending = .readByte a.toNat :: rest →
      ∃ t ins, run 3 s = .next t ∧ t.ret = .byte (memRead s.dev.mem a.toNat) ∧ t.pending = rest
        ∧ Sent s t [⟨encode (.read a 1), ins⟩] ∧ ins.length = 5 ∧ ArrayKept s t ∧ Ready t)
    ∧ (s.pending = .readArray a.toNat n :: rest → a.toNat + n ≤ s.params.capacity →
      ∃ t ins, run 3 s = .next t ∧ t.pending = rest
        ∧ t.ret = .bytes ((List.range n).map fun k => memRead s.dev.mem (a.toNat + k))
        ∧ Sent s t [⟨encode (.read a n), ins⟩] ∧ ins.length = 4 + n ∧ ArrayKept s t ∧ Ready t)

/-- R218: `IsWriteBusy()` is one RDSR frame, no loop, and gives back its BUSY bit. The second clause is a device that
finishes during the call: the answer says whether it was busy when the frame was sent. (That the call takes three machine
steps, one more where the device finishes, and that the device's time is counted in them, is the model's choice: log 24,
log 9.) -/
def Obligations.IsWriteBusyIsOneStatusRead : Prop :=
  ∀ (s : State) (rest : List Act), Ready s → Reference s → s.outside = [] → s.pending = .isWriteBusy :: rest →
    ((∀ f, s.dev.inflight = some f → 3 ≤ f.left) →
      ∃ t ins, run 3 s = .next t ∧ t.ret = .flag (isBusy s) ∧ t.pending = rest ∧ Ready t ∧ ArrayKept s t
        ∧ t.dev.status = s.dev.status ∧ t.session = s.session ∧ Sent s t [⟨[0x05#8, 0x00#8], ins⟩])
    ∧ ∀ f, s.dev.inflight = some f → f.left < 3 →
      ∃ t ins, run 4 s = .next t ∧ t.ret = .flag (isBusy s && f.left == 2) ∧ t.pending = rest ∧ Ready t
        ∧ t.dev.inflight = none ∧ isBusy t = false ∧ t.session = s.session ∧ Sent s t [⟨[0x05#8, 0x00#8], ins⟩]

/-- R219, R222: `BeginWrite` in either session state, for every address a frame can carry (a wider one is refused,
R264(2): RefusedBeforeAnythingIsSent): the cursor, an empty set, no frame, nothing of the device. (That this is so on
lines the caller drives by hand too is the model's choice: log 35.) -/
def Obligations.BeginWriteOpensASession : Prop :=
  ∀ (s : State) (a : Nat), s.block.inited = true → a < 2 ^ 24 →
    ∃ t, perform (.beginWrite a) s = .next t ∧ t.session = ⟨.opened, a, []⟩ ∧ wire t = wire s ∧ t.dev = s.dev
      ∧ t.block = s.block ∧ t.pending = s.pending

/-- R221: `Runs(c, n)` by its equations: the bytes of `[c, c + n)` in ascending order, each run of 1 to 4096 bytes and
inside one sector, each further run at the boundary where the one before ended, their lengths summing to `n`; and how
many there are. -/
def Obligations.RunsPartitionTheRange : Prop :=
  ∀ c n : Nat,
    runs c 0 = []
    ∧ (n ≠ 0 → runs c n = (c, min n (sectorIndex c + 4096 - c))
        :: runs (c + min n (sectorIndex c + 4096 - c)) (n - min n (sectorIndex c + 4096 - c)))
    ∧ (runs c n).flatMap (fun r => List.range' r.1 r.2) = List.range' c n
    ∧ (∀ r ∈ runs c n, 1 ≤ r.2 ∧ r.2 ≤ 4096 ∧ sectorIndex (r.1 + r.2 - 1) = sectorIndex r.1)
    ∧ (∀ k a b, (runs c n)[k]? = some a → (runs c n)[k + 1]? = some b →
        b.1 = a.1 + a.2 ∧ b.1 % 4096 = 0 ∧ sectorIndex b.1 = sectorIndex a.1 + 4096)
    ∧ ((runs c n).map (·.2)).sum = n
    ∧ (runs c n).length = if n = 0 then 0 else sectorIndex (c + n - 1) / 4096 - sectorIndex c / 4096 + 1

/-- R220, R296: a run erases its sector exactly when the session has not erased it yet, and before the first byte of
the run; the bytes go to their true addresses in ascending order. (That a run is a step of its own, which sends nothing
and puts its pieces in front of the caller's acts, is the model's choice: log 24.) -/
def Obligations.FirstTouchErases : Prop :=
  ∀ (s : State) (p : Nat) (bytes : List Byte), s.block.inited = true →
    ∃ t, perform (.writeRun p bytes) s = .next t ∧ t.dev = s.dev ∧ wire t = wire s ∧ t.session = s.session
      ∧ t.pending = (if p - p % 4096 ∈ s.session.erased then []
          else [.sectorErase (p - p % 4096), .markErased (p - p % 4096)])
        ++ (List.range bytes.length).map (fun k => .writeByte (p + k) (bytes.getD k 0x00#8)) ++ s.pending

/-- R220, R223, R224, R66, R67: `WriteIncrementalArray(buf)` in an open session, in range, with no budget, no lost sector
and an unprotected idle device: it ends; the frames on the wire are those of R220, so every sector it touches for the
first time in the session is erased once, before its first byte, and every byte of the buffer is programmed once, at its
true address; nothing else of the array changes; the cursor and the set of erased sectors advance. -/
def Obligations.IncrementalWriteStoresTheBuffer : Prop :=
  ∀ (s : State) (buf : List Byte) (rest : List Act), WriteReady s → s.params.pollBudget = none → s.dev.lost = [] →
    s.session.mode = .opened → s.session.cursor + buf.length ≤ s.params.capacity →
    s.pending = .writeIncrementalArray buf :: rest →
    ∃ k t, run k s = .next t ∧ SessionWritten s buf rest t

/-- R230: the split law: two consecutive calls end with the same array, the same cursor and the same set of erased
sectors as one call with the two buffers joined, and the frames are the same but for the number of polls. -/
def Obligations.SplittingACallChangesNothing : Prop :=
  ∀ (s : State) (b1 b2 : List Byte) (rest : List Act), WriteReady s → s.params.pollBudget = none → s.dev.lost = [] →
    s.session.mode = .opened → s.session.cursor + (b1.length + b2.length) ≤ s.params.capacity →
    ∃ k1 t1 k2 t2, run k1 { s with pending := .writeIncrementalArray (b1 ++ b2) :: rest } = .next t1
      ∧ run k2 { s with pending := .writeIncrementalArray b1 :: .writeIncrementalArray b2 :: rest } = .next t2
      ∧ t1.pending = rest ∧ t2.pending = rest ∧ t1.dev.mem = t2.dev.mem ∧ t1.session.mode = t2.session.mode
      ∧ t1.session.cursor = t2.session.cursor ∧ (∀ y, y ∈ t1.session.erased ↔ y ∈ t2.session.erased)
      ∧ OpsSent (sessionOps s.session.erased s.session.cursor (b1 ++ b2)) s t1
      ∧ OpsSent (sessionOps s.session.erased s.session.cursor (b1 ++ b2)) s t2

/-- R210, R222, R28: no operation changes the session but `Init`, `BeginWrite` and the two steps of
`WriteIncrementalArray` that say so. -/
def Obligations.OnlySessionOperationsTouchTheSession : Prop :=
  ∀ (a : Act) (s t : State), perform a s = .next t → t.session ≠ s.session →
    a = .init ∨ (∃ x, a = .beginWrite x) ∨ (∃ x, a = .markErased x) ∨ ∃ n, a = .advanceCursor n

/-- R61: `SectorIndex(a)` is `a` with the low 12 bits masked off, the address of the first byte of the sector
`[s, s + 4096)`; two addresses are in one sector exactly when their indices are equal. -/
def Obligations.SectorIndexMasksTwelveBits : Prop :=
  ∀ a x : Nat, sectorIndex a = (a >>> 12) <<< 12 ∧ sectorIndex a = a - a % 4096
    ∧ (a < 2 ^ 24 → sectorIndex a = (operandAddr a &&& ~~~0xFFF#24).toNat)
    ∧ (sectorIndex x = sectorIndex a ↔ sectorIndex a ≤ x ∧ x < sectorIndex a + 4096)

/-! ### The outside (spec/20_memory.md R74, spec/60_exceptions.md R262, spec/70_reset_and_hazards.md R288) -/

/-- R74, R262, R282: a loss of power: the device comes back protected, idle and disarmed with the array's bytes kept,
but the sector an operation in flight addressed, or the whole array for CE, holds no defined contents; the block is as
before `Init`. (That the model has such a step is its choice: log 18.) -/
def Obligations.PowerLossInterrupts : Prop :=
  ∀ (s : State) (rest : List Outside), s.outside = .powerLoss :: rest → s.params.wf = true →
    ∃ t, step s = .next t ∧ t.block.inited = false ∧ t.dev.inflight = none ∧ isBusy t = false ∧ isWel t = false
      ∧ t.dev.status &&& s.params.bpMask = s.params.bpMask ∧ t.dev.armed = false
      ∧ (∀ x, memRead t.dev.mem x = memRead s.dev.mem x)
      ∧ (s.dev.inflight = none → ∀ x, isLost t x = isLost s x)
      ∧ (∀ a v d, s.dev.inflight = some ⟨.program a v, d⟩ →
          ∀ x, isLost t x = (isLost s x || decide (x - x % 4096 = a - a % 4096)))
      ∧ (∀ a d, s.dev.inflight = some ⟨.sectorErase a, d⟩ →
          ∀ x, isLost t x = (isLost s x || decide (x - x % 4096 = a - a % 4096)))
      ∧ (∀ d, s.dev.inflight = some ⟨.chipErase, d⟩ → ∀ x, x < s.params.capacity → isLost t x = true)

/-- R77, R184, R264(6), R288: a second caller's operation is refused while another is in progress: in the block, a driver
operation not yet ended, or an exchange or frame that the first caller drives by hand (log 14); otherwise it is taken up
at once, and what it leaves on the lines is noted as the second caller's. While that is so the first caller's own
operations are refused. (That a second caller comes as an input, and that operations are what is serialised, is the
model's choice: log 19; that SecondCaller is named whatever else is wrong with the operation: log 33.) -/
def Obligations.SecondCallerIsRefused : Prop :=
  (∀ (s : State) (a : Act) (rest : List Outside), s.outside = .secondCaller a :: rest →
    (blockBusy s = true → step s = .refused .secondCaller)
    ∧ ((∃ x ∈ s.pending, isDriverRest x = true) → step s = .refused .secondCaller)
    ∧ (s.block.inited = true → s.block.sck = true ∨ s.block.csn = false → s.guest = false →
        step s = .refused .secondCaller)
    ∧ (blockBusy s = false → (∀ x ∈ s.pending, isDriverRest x = false) → (linesInUse s = true → s.guest = true) →
        step s = andThen (perform a { tick s with outside := rest }) fun t => .next (noteGuest (linesInUse s) t)))
  ∧ ∀ (s : State) (a : Act) (rest : List Act), s.outside = [] → flightDue s = none → blockBusy s = false →
    s.guest = true → s.block.inited = true → s.block.sck = true ∨ s.block.csn = false → s.pending = a :: rest →
    isDriverRest a = false → step s = .refused .secondCaller
end

