-- ==== Sys2Proof/Laws/Encoding.lean ====
section
/-! SUPPORT. The address bytes of a frame (spec/30_encoding.md R104), and what the device makes of the bytes it has seen
(spec/20_memory.md R65, R72, R83). -/

namespace Sys2Proof

/-! ### The address bytes (R104) -/

@[simp] theorem addrBytesOf_length (a : Addr) : (addrBytesOf a).length = Config.addrBytes := rfl

theorem addrByte_toNat (k : Nat) (a : Addr) : (addrByte k a).toNat = a.toNat / 2 ^ (8 * k) % 256 := by
  simp [addrByte, Nat.shiftRight_eq_div_pow]

/-- The bytes of an address, joined, are the address. -/
@[simp] theorem joinAddr_addrBytesOf (a : Addr) : joinAddr (addrBytesOf a) = a := by
  have h : addrBytesOf a = [addrByte 2 a, addrByte 1 a, addrByte 0 a] := rfl
  have ha : a.toNat < 16777216 := a.isLt
  apply BitVec.eq_of_toNat_eq
  simp only [h, joinAddr, List.foldl, BitVec.toNat_ofNat, addrByte_toNat, Config.byteBits, Config.addrBits,
    Config.addrBytes]
  omega

/-- The address of as many bytes as an address has is made of those bytes. -/
theorem addrBytesOf_joinAddr {bs : List Byte} (h : bs.length = Config.addrBytes) : addrBytesOf (joinAddr bs) = bs := by
  rcases bs with _ | ⟨a, _ | ⟨b, _ | ⟨c, _ | ⟨d, l⟩⟩⟩⟩ <;> simp [Config.addrBytes] at h
  have ha := a.isLt
  have hb := b.isLt
  have hc := c.isLt
  have e : ∀ x, addrBytesOf x = [addrByte 2 x, addrByte 1 x, addrByte 0 x] := fun _ => rfl
  have hj : (joinAddr [a, b, c]).toNat = a.toNat * 65536 + b.toNat * 256 + c.toNat := by
    simp only [joinAddr, List.foldl, BitVec.toNat_ofNat, Config.byteBits, Config.addrBits, Config.addrBytes]
    omega
  rw [e]
  congr 1
  · apply BitVec.eq_of_toNat_eq; rw [addrByte_toNat, hj]; omega
  congr 1
  · apply BitVec.eq_of_toNat_eq; rw [addrByte_toNat, hj]; omega
  congr 1
  · apply BitVec.eq_of_toNat_eq; rw [addrByte_toNat, hj]; omega

namespace Machine

/-! ### What the device makes of the bytes seen (R65, R72, R83) -/

/-- The byte that follows is answered from the array exactly after a whole READ header. -/
theorem answerAfter_array_iff (outs : List Byte) :
    answerAfter outs = .array ↔ ∃ rest, outs = Config.opcRead :: rest ∧ Config.addrBytes ≤ rest.length := by
  rcases outs with _ | ⟨o, rest⟩
  · simp [answerAfter]
  · rw [answerAfter]
    by_cases h1 : o = Config.opcRdsr ∧ rest = []
    · rw [if_pos h1]
      have : Config.opcRdsr ≠ Config.opcRead := by decide
      simp [h1.1, this]
    · rw [if_neg h1]
      by_cases h2 : o = Config.opcRead ∧ Config.addrBytes ≤ rest.length
      · rw [if_pos h2]; simp [h2.1]; exact h2.2
      · rw [if_neg h2]; simp only [reduceCtorEq, List.cons.injEq, false_iff]
        rintro ⟨r, ⟨h, rfl⟩, hl⟩
        exact h2 ⟨h, hl⟩

/-- The byte that follows is the status byte exactly after the RDSR opcode. -/
theorem answerAfter_status_iff (outs : List Byte) : answerAfter outs = .status ↔ outs = [Config.opcRdsr] := by
  rcases outs with _ | ⟨o, rest⟩
  · simp [answerAfter]
  · rw [answerAfter]
    by_cases h1 : o = Config.opcRdsr ∧ rest = []
    · rw [if_pos h1]; simp [h1.1, h1.2]
    · rw [if_neg h1]
      have : (if o = Config.opcRead ∧ Config.addrBytes ≤ rest.length then Answer.array else Answer.silent) ≠ .status := by
        split <;> simp
      simp only [this, false_iff]
      simpa using h1

/-- A READ header is the opcode and as many bytes as an address has. -/
theorem readHeader_some_iff (outs : List Byte) (a : Addr) : readHeader outs = some a ↔
    ∃ rest, outs = Config.opcRead :: rest ∧ rest.length = Config.addrBytes ∧ joinAddr rest = a := by
  rcases outs with _ | ⟨o, rest⟩
  · simp [readHeader]
  · rw [readHeader]
    by_cases h : o = Config.opcRead ∧ rest.length = Config.addrBytes
    · rw [if_pos h]
      constructor
      · intro e; cases e; exact ⟨rest, by rw [h.1], h.2, rfl⟩
      · rintro ⟨r, e, _, rfl⟩; cases e; rfl
    · rw [if_neg h]
      simp only [reduceCtorEq, false_iff]
      rintro ⟨r, e, hl, _⟩
      cases e
      exact h ⟨rfl, hl⟩

/-- RDPTR after the bytes `outs` of a frame that began with it at `old` (R65). -/
def rdptrAfter (old : Nat) : List Byte → Nat
  | [] => old
  | o :: rest =>
    if o = Config.opcRead ∧ Config.addrBytes ≤ rest.length then
      (joinAddr (rest.take Config.addrBytes)).toNat + (rest.length - Config.addrBytes)
    else old

/-- RDPTR inside a READ frame: the address and the payload bytes so far. -/
@[simp] theorem rdptrAfter_read (old : Nat) (a : Addr) (l : List Byte) :
    rdptrAfter old (Config.opcRead :: (addrBytesOf a ++ l)) = a.toNat + l.length := by
  have h : (addrBytesOf a ++ l).take Config.addrBytes = addrBytesOf a :=
    List.take_left' (addrBytesOf_length a)
  rw [rdptrAfter]
  rw [if_pos ⟨rfl, by rw [List.length_append, addrBytesOf_length]; omega⟩, h, joinAddr_addrBytesOf, List.length_append,
    addrBytesOf_length]
  omega

/-- RDPTR in a frame that is no READ, or whose header is not whole yet. -/
theorem rdptrAfter_of_not_array {old : Nat} {outs : List Byte} (h : answerAfter outs ≠ .array) :
    rdptrAfter old outs = old := by
  rw [Ne, answerAfter_array_iff] at h
  rcases outs with _ | ⟨o, rest⟩
  · rfl
  · rw [rdptrAfter]
    rw [if_neg]
    rintro ⟨rfl, hl⟩
    exact h ⟨rest, rfl, hl⟩

theorem rdptrAfter_snoc (old : Nat) (outs : List Byte) (v : Byte) :
    rdptrAfter old (outs ++ [v]) =
      if answerAfter outs = .array then rdptrAfter old outs + 1
      else match readHeader (outs ++ [v]) with
        | some a => a.toNat
        | none => rdptrAfter old outs := by
  by_cases h : answerAfter outs = .array
  · rw [if_pos h]
    obtain ⟨rest, rfl, hl⟩ := (answerAfter_array_iff outs).1 h
    rw [List.cons_append, rdptrAfter, rdptrAfter, if_pos ⟨rfl, by rw [List.length_append]; omega⟩, if_pos ⟨rfl, hl⟩,
      List.take_append_of_le_length hl, List.length_append, List.length_singleton]
    omega
  · rw [if_neg h]
    cases hr : readHeader (outs ++ [v]) with
    | some a =>
      obtain ⟨rest, e, hl, rfl⟩ := (readHeader_some_iff _ _).1 hr
      rw [e]
      rw [rdptrAfter]
      rw [if_pos ⟨rfl, by omega⟩, List.take_of_length_le (by omega), hl, Nat.sub_self, Nat.add_zero]
    | none =>
      simp only
      rw [rdptrAfter_of_not_array h, rdptrAfter_of_not_array]
      intro ha
      obtain ⟨rest, e, hl⟩ := (answerAfter_array_iff _).1 ha
      rcases outs with _ | ⟨o, l⟩
      · rw [List.nil_append, List.cons.injEq] at e; rw [← e.2] at hl; simp at hl
      · rw [List.cons_append, List.cons.injEq] at e
        obtain ⟨rfl, e⟩ := e
        rw [← e, List.length_append, List.length_singleton] at hl
        have h1 : ¬ Config.addrBytes ≤ l.length := fun h' => h ((answerAfter_array_iff _).2 ⟨l, rfl, h'⟩)
        have h2 : readHeader (Config.opcRead :: l ++ [v]) = some (joinAddr (l ++ [v])) :=
          (readHeader_some_iff _ _).2 ⟨l ++ [v], rfl, by rw [List.length_append, List.length_singleton]; omega, rfl⟩
        rw [h2] at hr; cases hr

/-- A payload byte of a READ is no header byte. -/
theorem readHeader_snoc_of_array {outs : List Byte} {v : Byte} (h : answerAfter outs = .array) :
    readHeader (outs ++ [v]) = none := by
  obtain ⟨rest, rfl, hl⟩ := (answerAfter_array_iff outs).1 h
  cases hr : readHeader (Config.opcRead :: rest ++ [v]) with
  | none => rfl
  | some a =>
    obtain ⟨r, e, hl', _⟩ := (readHeader_some_iff _ _).1 hr
    rw [List.cons_append, List.cons.injEq] at e
    rw [← e.2, List.length_append, List.length_singleton] at hl'
    omega

end Machine
end Sys2Proof
end

