-- ==== Sys2Proof/Laws/Memory.lean ====
section
/-! SUPPORT. The laws of the array: read after write, erase, and that every memory operation keeps the canonical
form. -/

namespace Sys2Proof.Machine

open Sys2Proof

theorem memWf_iff (m : Memory) :
    memWf m = true ↔ m.Pairwise (fun c d => c.1 < d.1) ∧ ∀ c ∈ m, c.2 ≠ unlistedByte := by
  simp [memWf]

@[simp] theorem memWf_nil : memWf [] = true := rfl

theorem memWf_cons {c : Host.Cell} {m : Memory} :
    memWf (c :: m) = true ↔ (∀ d ∈ m, c.1 < d.1) ∧ c.2 ≠ unlistedByte ∧ memWf m = true := by
  simp only [memWf_iff, List.pairwise_cons, List.mem_cons, forall_eq_or_imp]; tauto

/-- An address below every listed one reads as unlisted. -/
theorem memRead_of_lt {m : Memory} {a : Nat} (h : ∀ d ∈ m, a < d.1) : memRead m a = unlistedByte := by
  induction m with
  | nil => rfl
  | cons c m ih =>
    have hc := h c (by simp)
    rw [memRead, if_neg (by omega)]
    exact ih fun d hd => h d (by simp [hd])

theorem memRead_consCell (a : Nat) (v : Byte) (m : Memory) (h : ∀ d ∈ m, a < d.1) (x : Nat) :
    memRead (consCell a v m) x = if x = a then v else memRead m x := by
  unfold consCell
  split
  · split
    · subst_vars; exact memRead_of_lt h
    · rfl
  · simp only [memRead, eq_comm]

theorem memWf_consCell {a : Nat} {v : Byte} {m : Memory} (h : ∀ d ∈ m, a < d.1) (hm : memWf m = true) :
    memWf (consCell a v m) = true := by
  unfold consCell
  split
  · exact hm
  · exact memWf_cons.2 ⟨h, ‹_›, hm⟩

theorem mem_consCell {a : Nat} {v : Byte} {m : Memory} {c : Host.Cell} (h : c ∈ consCell a v m) :
    c.1 = a ∨ c ∈ m := by
  unfold consCell at h
  split at h
  · exact .inr h
  · rcases List.mem_cons.1 h with rfl | h
    · exact .inl rfl
    · exact .inr h

/-- A cell of a written memory is the written one, or was there. -/
theorem mem_memWrite {a : Nat} {v : Byte} {m : Memory} {c : Host.Cell} (h : c ∈ memWrite a v m) :
    c.1 = a ∨ c ∈ m := by
  induction m with
  | nil => exact mem_consCell h
  | cons d m ih =>
    rw [memWrite] at h
    split at h
    · exact mem_consCell h
    split at h
    · rcases mem_consCell h with h | h
      · exact .inl h
      · exact .inr (by simp [h])
    · rcases List.mem_cons.1 h with rfl | h
      · exact .inr (by simp)
      · rcases ih h with h | h
        · exact .inl h
        · exact .inr (by simp [h])

/-- A write keeps the canonical form. -/
theorem memWf_memWrite {a : Nat} {v : Byte} {m : Memory} (hm : memWf m = true) : memWf (memWrite a v m) = true := by
  induction m with
  | nil => exact memWf_consCell (by simp) rfl
  | cons c m ih =>
    obtain ⟨h1, h2, h3⟩ := memWf_cons.1 hm
    rw [memWrite]
    split
    · refine memWf_consCell (fun d hd => ?_) hm
      rcases List.mem_cons.1 hd with rfl | hd
      · assumption
      · have := h1 d hd; omega
    split
    · subst_vars; exact memWf_consCell h1 h3
    · refine memWf_cons.2 ⟨fun d hd => ?_, h2, ih h3⟩
      rcases mem_memWrite hd with h | h
      · omega
      · exact h1 d h

/-- Read after write: the value written there, and every other address as before. -/
theorem memRead_memWrite {a : Nat} {v : Byte} {m : Memory} (hm : memWf m = true) (x : Nat) :
    memRead (memWrite a v m) x = if x = a then v else memRead m x := by
  induction m with
  | nil => exact memRead_consCell a v [] (by simp) x
  | cons c m ih =>
    obtain ⟨h1, h2, h3⟩ := memWf_cons.1 hm
    rw [memWrite]
    split
    · refine memRead_consCell a v _ (fun d hd => ?_) x
      rcases List.mem_cons.1 hd with rfl | hd
      · assumption
      · have := h1 d hd; omega
    split
    · subst_vars
      rw [memRead_consCell _ _ _ h1]
      by_cases h : x = c.1
      · simp [h]
      · rw [if_neg h, if_neg h, memRead, if_neg (Ne.symm h)]
    · rw [memRead, memRead, ih h3]
      by_cases h : c.1 = x
      · subst h; rw [if_pos rfl, if_neg (by omega)]; simp
      · rw [if_neg h, if_neg h]

/-- An erase keeps the canonical form. -/
theorem memWf_memErase {lo hi : Nat} {m : Memory} (hm : memWf m = true) : memWf (memErase lo hi m) = true := by
  obtain ⟨h1, h2⟩ := (memWf_iff m).1 hm
  exact (memWf_iff _).2 ⟨h1.filter _, fun c hc => h2 c (List.mem_filter.1 hc).1⟩

theorem mem_memErase {lo hi : Nat} {m : Memory} {c : Host.Cell} (h : c ∈ memErase lo hi m) : c ∈ m :=
  (List.mem_filter.1 h).1

/-- After an erase the range reads 0xFF and everything else as before. -/
theorem memRead_memErase (lo hi : Nat) (m : Memory) (x : Nat) :
    memRead (memErase lo hi m) x = if lo ≤ x ∧ x < hi then unlistedByte else memRead m x := by
  induction m with
  | nil => simp [memErase, memRead]
  | cons c m ih =>
    unfold memErase at ih ⊢
    rw [List.filter_cons]
    split
    · rename_i h
      rw [memRead, ih, memRead]
      by_cases hx : c.1 = x
      · have h' : c.1 < lo ∨ hi ≤ c.1 := by simpa using h
        subst hx; rw [if_pos rfl, if_pos rfl, if_neg (by omega)]
      · rw [if_neg hx, if_neg hx]
    · rename_i h
      rw [ih, memRead]
      by_cases hx : c.1 = x
      · have h' : lo ≤ c.1 ∧ c.1 < hi := by simpa using h
        subst hx; rw [if_pos rfl, if_pos h', if_pos h']
      · rw [if_neg hx]

/-- What a well-formed memory reads at an address below all of it, or at a listed one, decides the cell. -/
theorem memRead_head {c : Host.Cell} {m : Memory} : memRead (c :: m) c.1 = c.2 := by simp [memRead]

/-- Equal memories are equal data: two canonical memories that read alike are the same list. -/
theorem mem_ext {m m' : Memory} (hm : memWf m = true) (hm' : memWf m' = true)
    (h : ∀ a, memRead m a = memRead m' a) : m = m' := by
  induction m generalizing m' with
  | nil =>
    cases m' with
    | nil => rfl
    | cons d m' =>
      have := h d.1
      rw [memRead_head] at this
      exact absurd this.symm (memWf_cons.1 hm').2.1
  | cons c m ih =>
    obtain ⟨h1, h2, h3⟩ := memWf_cons.1 hm
    cases m' with
    | nil => exact absurd (memRead_head.symm.trans (h c.1)) h2
    | cons d m' =>
      obtain ⟨g1, g2, g3⟩ := memWf_cons.1 hm'
      have hcd : c.1 = d.1 := by
        rcases Nat.lt_trichotomy c.1 d.1 with hlt | heq | hgt
        · have := h c.1
          rw [memRead_head, memRead_of_lt (m := d :: m')] at this
          · exact absurd this h2
          · intro e he; rcases List.mem_cons.1 he with rfl | he
            · exact hlt
            · have := g1 e he; omega
        · exact heq
        · have := h d.1
          rw [memRead_head, memRead_of_lt (m := c :: m)] at this
          · exact absurd this.symm g2
          · intro e he; rcases List.mem_cons.1 he with rfl | he
            · exact hgt
            · have := h1 e he; omega
      have hv : c.2 = d.2 := by
        have := h c.1
        rwa [memRead_head, hcd, memRead_head] at this
      have htail : m = m' := by
        refine ih h3 g3 fun a => ?_
        by_cases ha : c.1 = a
        · subst ha
          rw [memRead_of_lt h1, memRead_of_lt (by simpa [hcd] using g1)]
        · have := h a
          rwa [memRead, if_neg ha, memRead, if_neg (hcd ▸ ha)] at this
      rw [htail, Prod.ext hcd hv]

/-! ### Sectors -/

/-- An address lies in its own sector. -/
theorem sectorIndex_le (a : Nat) : sectorIndex a ≤ a := Nat.sub_le _ _

theorem lt_sectorIndex_add (a : Nat) : a < sectorIndex a + Config.sectorSize := by
  unfold sectorIndex Config.sectorSize; omega

/-- A sector index is a multiple of the sector size. -/
theorem sectorIndex_mod (a : Nat) : sectorIndex a % Config.sectorSize = 0 := by
  unfold sectorIndex Config.sectorSize; omega

theorem runLength_pos {c n : Nat} (h : 0 < n) : 0 < runLength c n := by
  have := lt_sectorIndex_add c; unfold runLength; omega

theorem runLength_le (c n : Nat) : runLength c n ≤ n := Nat.min_le_left _ _

/-! ### Strictly rising lists -/

theorem mem_insertRising {x y : Nat} {l : List Nat} : y ∈ insertRising x l ↔ y = x ∨ y ∈ l := by
  induction l with
  | nil => simp [insertRising]
  | cons z l ih =>
    rw [insertRising]
    split
    · simp
    split
    · subst_vars; simp
    · simp [ih]; tauto

/-- Inserting keeps a list strictly rising. -/
theorem rising_insertRising {x : Nat} {l : List Nat} (h : Rising l) : Rising (insertRising x l) := by
  induction l with
  | nil => simp [insertRising]
  | cons z l ih =>
    have hz := List.pairwise_cons.1 h
    rw [insertRising]
    split
    · refine List.pairwise_cons.2 ⟨fun y hy => ?_, h⟩
      rcases List.mem_cons.1 hy with rfl | hy
      · assumption
      · have := hz.1 y hy; omega
    split
    · exact h
    · refine List.pairwise_cons.2 ⟨fun y hy => ?_, ih hz.2⟩
      rcases mem_insertRising.1 hy with rfl | hy
      · omega
      · exact hz.1 y hy

end Sys2Proof.Machine
end

