-- ==== Sys2Proof/Laws/State.lean ====
section
/-! SUPPORT. One lemma per field per named update of the state, true by unfolding the update once: no later proof
unfolds a record update. -/

namespace Sys2Proof.Machine

open Sys2Proof

@[simp] theorem emit_params (e : LineEvent) (s : State) : (emit e s).params = s.params := rfl
@[simp] theorem emit_block (e : LineEvent) (s : State) : (emit e s).block = s.block := rfl
@[simp] theorem emit_session (e : LineEvent) (s : State) : (emit e s).session = s.session := rfl
@[simp] theorem emit_dev (e : LineEvent) (s : State) : (emit e s).dev = s.dev := rfl
@[simp] theorem emit_pending (e : LineEvent) (s : State) : (emit e s).pending = s.pending := rfl
@[simp] theorem emit_ret (e : LineEvent) (s : State) : (emit e s).ret = s.ret := rfl
@[simp] theorem emit_outside (e : LineEvent) (s : State) : (emit e s).outside = s.outside := rfl
@[simp] theorem emit_guest (e : LineEvent) (s : State) : (emit e s).guest = s.guest := rfl
@[simp] theorem emit_script (e : LineEvent) (s : State) : (emit e s).script = s.script := rfl
@[simp] theorem emit_delays (e : LineEvent) (s : State) : (emit e s).delays = s.delays := rfl
@[simp] theorem emit_draws (e : LineEvent) (s : State) : (emit e s).draws = s.draws := rfl
@[simp] theorem emit_trace (e : LineEvent) (s : State) : (emit e s).trace = e :: s.trace := rfl

@[simp] theorem setDo_params (b : Level) (s : State) : (setDo b s).params = s.params := rfl
@[simp] theorem setDo_session (b : Level) (s : State) : (setDo b s).session = s.session := rfl
@[simp] theorem setDo_dev (b : Level) (s : State) : (setDo b s).dev = s.dev := rfl
@[simp] theorem setDo_pending (b : Level) (s : State) : (setDo b s).pending = s.pending := rfl
@[simp] theorem setDo_ret (b : Level) (s : State) : (setDo b s).ret = s.ret := rfl
@[simp] theorem setDo_outside (b : Level) (s : State) : (setDo b s).outside = s.outside := rfl
@[simp] theorem setDo_guest (b : Level) (s : State) : (setDo b s).guest = s.guest := rfl
@[simp] theorem setDo_script (b : Level) (s : State) : (setDo b s).script = s.script := rfl
@[simp] theorem setDo_delays (b : Level) (s : State) : (setDo b s).delays = s.delays := rfl
@[simp] theorem setDo_draws (b : Level) (s : State) : (setDo b s).draws = s.draws := rfl
@[simp] theorem setDo_block_inited (b : Level) (s : State) : (setDo b s).block.inited = s.block.inited := rfl
@[simp] theorem setDo_block_sck (b : Level) (s : State) : (setDo b s).block.sck = s.block.sck := rfl
@[simp] theorem setDo_block_csn (b : Level) (s : State) : (setDo b s).block.csn = s.block.csn := rfl
@[simp] theorem setDo_block_sr (b : Level) (s : State) : (setDo b s).block.sr = s.block.sr := rfl
@[simp] theorem setDo_block_bitcnt (b : Level) (s : State) : (setDo b s).block.bitcnt = s.block.bitcnt := rfl
@[simp] theorem setDo_block_xact (b : Level) (s : State) : (setDo b s).block.xact = s.block.xact := rfl
@[simp] theorem setDo_block_done (b : Level) (s : State) : (setDo b s).block.done = s.block.done := rfl
@[simp] theorem setDo_block_phase (b : Level) (s : State) : (setDo b s).block.phase = s.block.phase := rfl
@[simp] theorem setDo_block_opc (b : Level) (s : State) : (setDo b s).block.opc = s.block.opc := rfl
@[simp] theorem setDo_block_ap (b : Level) (s : State) : (setDo b s).block.ap = s.block.ap := rfl
@[simp] theorem setDo_block_addr (b : Level) (s : State) : (setDo b s).block.addr = s.block.addr := rfl
@[simp] theorem setDo_block_dir (b : Level) (s : State) : (setDo b s).block.dir = s.block.dir := rfl
@[simp] theorem setDo_block_len (b : Level) (s : State) : (setDo b s).block.len = s.block.len := rfl
@[simp] theorem setDo_block_idx (b : Level) (s : State) : (setDo b s).block.idx = s.block.idx := rfl
@[simp] theorem setDo_block_buf (b : Level) (s : State) : (setDo b s).block.buf = s.block.buf := rfl
@[simp] theorem setDo_block_dout (b : Level) (s : State) : (setDo b s).block.dout = b := rfl
@[simp] theorem setDo_trace (b : Level) (s : State) : (setDo b s).trace = .dout b :: s.trace := rfl

@[simp] theorem shiftIn_params (d : Level) (s : State) : (shiftIn d s).params = s.params := rfl
@[simp] theorem shiftIn_session (d : Level) (s : State) : (shiftIn d s).session = s.session := rfl
@[simp] theorem shiftIn_dev (d : Level) (s : State) : (shiftIn d s).dev = s.dev := rfl
@[simp] theorem shiftIn_pending (d : Level) (s : State) : (shiftIn d s).pending = s.pending := rfl
@[simp] theorem shiftIn_ret (d : Level) (s : State) : (shiftIn d s).ret = s.ret := rfl
@[simp] theorem shiftIn_outside (d : Level) (s : State) : (shiftIn d s).outside = s.outside := rfl
@[simp] theorem shiftIn_guest (d : Level) (s : State) : (shiftIn d s).guest = s.guest := rfl
@[simp] theorem shiftIn_trace (d : Level) (s : State) : (shiftIn d s).trace = s.trace := rfl
@[simp] theorem shiftIn_script (d : Level) (s : State) : (shiftIn d s).script = s.script := rfl
@[simp] theorem shiftIn_delays (d : Level) (s : State) : (shiftIn d s).delays = s.delays := rfl
@[simp] theorem shiftIn_draws (d : Level) (s : State) : (shiftIn d s).draws = s.draws := rfl
@[simp] theorem shiftIn_block_inited (d : Level) (s : State) : (shiftIn d s).block.inited = s.block.inited := rfl
@[simp] theorem shiftIn_block_sck (d : Level) (s : State) : (shiftIn d s).block.sck = s.block.sck := rfl
@[simp] theorem shiftIn_block_dout (d : Level) (s : State) : (shiftIn d s).block.dout = s.block.dout := rfl
@[simp] theorem shiftIn_block_csn (d : Level) (s : State) : (shiftIn d s).block.csn = s.block.csn := rfl
@[simp] theorem shiftIn_block_bitcnt (d : Level) (s : State) : (shiftIn d s).block.bitcnt = s.block.bitcnt := rfl
@[simp] theorem shiftIn_block_xact (d : Level) (s : State) : (shiftIn d s).block.xact = s.block.xact := rfl
@[simp] theorem shiftIn_block_done (d : Level) (s : State) : (shiftIn d s).block.done = s.block.done := rfl
@[simp] theorem shiftIn_block_phase (d : Level) (s : State) : (shiftIn d s).block.phase = s.block.phase := rfl
@[simp] theorem shiftIn_block_opc (d : Level) (s : State) : (shiftIn d s).block.opc = s.block.opc := rfl
@[simp] theorem shiftIn_block_ap (d : Level) (s : State) : (shiftIn d s).block.ap = s.block.ap := rfl
@[simp] theorem shiftIn_block_addr (d : Level) (s : State) : (shiftIn d s).block.addr = s.block.addr := rfl
@[simp] theorem shiftIn_block_dir (d : Level) (s : State) : (shiftIn d s).block.dir = s.block.dir := rfl
@[simp] theorem shiftIn_block_len (d : Level) (s : State) : (shiftIn d s).block.len = s.block.len := rfl
@[simp] theorem shiftIn_block_idx (d : Level) (s : State) : (shiftIn d s).block.idx = s.block.idx := rfl
@[simp] theorem shiftIn_block_buf (d : Level) (s : State) : (shiftIn d s).block.buf = s.block.buf := rfl
@[simp] theorem shiftIn_block_sr (d : Level) (s : State) : (shiftIn d s).block.sr = shiftReg s.block.sr d := rfl

@[simp] theorem countCell_params (s : State) : (countCell s).params = s.params := rfl
@[simp] theorem countCell_session (s : State) : (countCell s).session = s.session := rfl
@[simp] theorem countCell_dev (s : State) : (countCell s).dev = s.dev := rfl
@[simp] theorem countCell_pending (s : State) : (countCell s).pending = s.pending := rfl
@[simp] theorem countCell_ret (s : State) : (countCell s).ret = s.ret := rfl
@[simp] theorem countCell_outside (s : State) : (countCell s).outside = s.outside := rfl
@[simp] theorem countCell_guest (s : State) : (countCell s).guest = s.guest := rfl
@[simp] theorem countCell_trace (s : State) : (countCell s).trace = s.trace := rfl
@[simp] theorem countCell_script (s : State) : (countCell s).script = s.script := rfl
@[simp] theorem countCell_delays (s : State) : (countCell s).delays = s.delays := rfl
@[simp] theorem countCell_draws (s : State) : (countCell s).draws = s.draws := rfl
@[simp] theorem countCell_block_inited (s : State) : (countCell s).block.inited = s.block.inited := rfl
@[simp] theorem countCell_block_sck (s : State) : (countCell s).block.sck = s.block.sck := rfl
@[simp] theorem countCell_block_dout (s : State) : (countCell s).block.dout = s.block.dout := rfl
@[simp] theorem countCell_block_csn (s : State) : (countCell s).block.csn = s.block.csn := rfl
@[simp] theorem countCell_block_sr (s : State) : (countCell s).block.sr = s.block.sr := rfl
@[simp] theorem countCell_block_xact (s : State) : (countCell s).block.xact = s.block.xact := rfl
@[simp] theorem countCell_block_done (s : State) : (countCell s).block.done = s.block.done := rfl
@[simp] theorem countCell_block_phase (s : State) : (countCell s).block.phase = s.block.phase := rfl
@[simp] theorem countCell_block_opc (s : State) : (countCell s).block.opc = s.block.opc := rfl
@[simp] theorem countCell_block_ap (s : State) : (countCell s).block.ap = s.block.ap := rfl
@[simp] theorem countCell_block_addr (s : State) : (countCell s).block.addr = s.block.addr := rfl
@[simp] theorem countCell_block_dir (s : State) : (countCell s).block.dir = s.block.dir := rfl
@[simp] theorem countCell_block_len (s : State) : (countCell s).block.len = s.block.len := rfl
@[simp] theorem countCell_block_idx (s : State) : (countCell s).block.idx = s.block.idx := rfl
@[simp] theorem countCell_block_buf (s : State) : (countCell s).block.buf = s.block.buf := rfl
@[simp] theorem countCell_block_bitcnt (s : State) : (countCell s).block.bitcnt = s.block.bitcnt + 1 := rfl

@[simp] theorem setPhase_params (p : Phase) (s : State) : (setPhase p s).params = s.params := rfl
@[simp] theorem setPhase_session (p : Phase) (s : State) : (setPhase p s).session = s.session := rfl
@[simp] theorem setPhase_dev (p : Phase) (s : State) : (setPhase p s).dev = s.dev := rfl
@[simp] theorem setPhase_pending (p : Phase) (s : State) : (setPhase p s).pending = s.pending := rfl
@[simp] theorem setPhase_ret (p : Phase) (s : State) : (setPhase p s).ret = s.ret := rfl
@[simp] theorem setPhase_outside (p : Phase) (s : State) : (setPhase p s).outside = s.outside := rfl
@[simp] theorem setPhase_guest (p : Phase) (s : State) : (setPhase p s).guest = s.guest := rfl
@[simp] theorem setPhase_trace (p : Phase) (s : State) : (setPhase p s).trace = s.trace := rfl
@[simp] theorem setPhase_script (p : Phase) (s : State) : (setPhase p s).script = s.script := rfl
@[simp] theorem setPhase_delays (p : Phase) (s : State) : (setPhase p s).delays = s.delays := rfl
@[simp] theorem setPhase_draws (p : Phase) (s : State) : (setPhase p s).draws = s.draws := rfl
@[simp] theorem setPhase_block_inited (p : Phase) (s : State) : (setPhase p s).block.inited = s.block.inited := rfl
@[simp] theorem setPhase_block_sck (p : Phase) (s : State) : (setPhase p s).block.sck = s.block.sck := rfl
@[simp] theorem setPhase_block_dout (p : Phase) (s : State) : (setPhase p s).block.dout = s.block.dout := rfl
@[simp] theorem setPhase_block_csn (p : Phase) (s : State) : (setPhase p s).block.csn = s.block.csn := rfl
@[simp] theorem setPhase_block_sr (p : Phase) (s : State) : (setPhase p s).block.sr = s.block.sr := rfl
@[simp] theorem setPhase_block_bitcnt (p : Phase) (s : State) : (setPhase p s).block.bitcnt = s.block.bitcnt := rfl
@[simp] theorem setPhase_block_xact (p : Phase) (s : State) : (setPhase p s).block.xact = s.block.xact := rfl
@[simp] theorem setPhase_block_done (p : Phase) (s : State) : (setPhase p s).block.done = s.block.done := rfl
@[simp] theorem setPhase_block_opc (p : Phase) (s : State) : (setPhase p s).block.opc = s.block.opc := rfl
@[simp] theorem setPhase_block_ap (p : Phase) (s : State) : (setPhase p s).block.ap = s.block.ap := rfl
@[simp] theorem setPhase_block_addr (p : Phase) (s : State) : (setPhase p s).block.addr = s.block.addr := rfl
@[simp] theorem setPhase_block_dir (p : Phase) (s : State) : (setPhase p s).block.dir = s.block.dir := rfl
@[simp] theorem setPhase_block_len (p : Phase) (s : State) : (setPhase p s).block.len = s.block.len := rfl
@[simp] theorem setPhase_block_idx (p : Phase) (s : State) : (setPhase p s).block.idx = s.block.idx := rfl
@[simp] theorem setPhase_block_buf (p : Phase) (s : State) : (setPhase p s).block.buf = s.block.buf := rfl
@[simp] theorem setPhase_block_phase (p : Phase) (s : State) : (setPhase p s).block.phase = p := rfl

@[simp] theorem loadByte_params (v : Byte) (s : State) : (loadByte v s).params = s.params := rfl
@[simp] theorem loadByte_session (v : Byte) (s : State) : (loadByte v s).session = s.session := rfl
@[simp] theorem loadByte_dev (v : Byte) (s : State) : (loadByte v s).dev = s.dev := rfl
@[simp] theorem loadByte_pending (v : Byte) (s : State) : (loadByte v s).pending = s.pending := rfl
@[simp] theorem loadByte_ret (v : Byte) (s : State) : (loadByte v s).ret = s.ret := rfl
@[simp] theorem loadByte_outside (v : Byte) (s : State) : (loadByte v s).outside = s.outside := rfl
@[simp] theorem loadByte_guest (v : Byte) (s : State) : (loadByte v s).guest = s.guest := rfl
@[simp] theorem loadByte_trace (v : Byte) (s : State) : (loadByte v s).trace = s.trace := rfl
@[simp] theorem loadByte_script (v : Byte) (s : State) : (loadByte v s).script = s.script := rfl
@[simp] theorem loadByte_delays (v : Byte) (s : State) : (loadByte v s).delays = s.delays := rfl
@[simp] theorem loadByte_draws (v : Byte) (s : State) : (loadByte v s).draws = s.draws := rfl
@[simp] theorem loadByte_block_inited (v : Byte) (s : State) : (loadByte v s).block.inited = s.block.inited := rfl
@[simp] theorem loadByte_block_sck (v : Byte) (s : State) : (loadByte v s).block.sck = s.block.sck := rfl
@[simp] theorem loadByte_block_dout (v : Byte) (s : State) : (loadByte v s).block.dout = s.block.dout := rfl
@[simp] theorem loadByte_block_csn (v : Byte) (s : State) : (loadByte v s).block.csn = s.block.csn := rfl
@[simp] theorem loadByte_block_phase (v : Byte) (s : State) : (loadByte v s).block.phase = s.block.phase := rfl
@[simp] theorem loadByte_block_opc (v : Byte) (s : State) : (loadByte v s).block.opc = s.block.opc := rfl
@[simp] theorem loadByte_block_ap (v : Byte) (s : State) : (loadByte v s).block.ap = s.block.ap := rfl
@[simp] theorem loadByte_block_addr (v : Byte) (s : State) : (loadByte v s).block.addr = s.block.addr := rfl
@[simp] theorem loadByte_block_dir (v : Byte) (s : State) : (loadByte v s).block.dir = s.block.dir := rfl
@[simp] theorem loadByte_block_len (v : Byte) (s : State) : (loadByte v s).block.len = s.block.len := rfl
@[simp] theorem loadByte_block_idx (v : Byte) (s : State) : (loadByte v s).block.idx = s.block.idx := rfl
@[simp] theorem loadByte_block_buf (v : Byte) (s : State) : (loadByte v s).block.buf = s.block.buf := rfl
@[simp] theorem loadByte_block_sr (v : Byte) (s : State) : (loadByte v s).block.sr = loadReg v := rfl
@[simp] theorem loadByte_block_bitcnt (v : Byte) (s : State) : (loadByte v s).block.bitcnt = 0 := rfl
@[simp] theorem loadByte_block_xact (v : Byte) (s : State) : (loadByte v s).block.xact = true := rfl

@[simp] theorem push_params (as : List Act) (s : State) : (push as s).params = s.params := rfl
@[simp] theorem push_block (as : List Act) (s : State) : (push as s).block = s.block := rfl
@[simp] theorem push_session (as : List Act) (s : State) : (push as s).session = s.session := rfl
@[simp] theorem push_dev (as : List Act) (s : State) : (push as s).dev = s.dev := rfl
@[simp] theorem push_ret (as : List Act) (s : State) : (push as s).ret = s.ret := rfl
@[simp] theorem push_outside (as : List Act) (s : State) : (push as s).outside = s.outside := rfl
@[simp] theorem push_guest (as : List Act) (s : State) : (push as s).guest = s.guest := rfl
@[simp] theorem push_trace (as : List Act) (s : State) : (push as s).trace = s.trace := rfl
@[simp] theorem push_script (as : List Act) (s : State) : (push as s).script = s.script := rfl
@[simp] theorem push_delays (as : List Act) (s : State) : (push as s).delays = s.delays := rfl
@[simp] theorem push_draws (as : List Act) (s : State) : (push as s).draws = s.draws := rfl
@[simp] theorem push_pending (as : List Act) (s : State) : (push as s).pending = as ++ s.pending := rfl

@[simp] theorem present_params (v : Byte) (s : State) : (present v s).params = s.params := rfl
@[simp] theorem present_block (v : Byte) (s : State) : (present v s).block = s.block := rfl
@[simp] theorem present_session (v : Byte) (s : State) : (present v s).session = s.session := rfl
@[simp] theorem present_pending (v : Byte) (s : State) : (present v s).pending = s.pending := rfl
@[simp] theorem present_ret (v : Byte) (s : State) : (present v s).ret = s.ret := rfl
@[simp] theorem present_outside (v : Byte) (s : State) : (present v s).outside = s.outside := rfl
@[simp] theorem present_guest (v : Byte) (s : State) : (present v s).guest = s.guest := rfl
@[simp] theorem present_trace (v : Byte) (s : State) : (present v s).trace = s.trace := rfl
@[simp] theorem present_script (v : Byte) (s : State) : (present v s).script = s.script := rfl
@[simp] theorem present_delays (v : Byte) (s : State) : (present v s).delays = s.delays := rfl
@[simp] theorem present_draws (v : Byte) (s : State) : (present v s).draws = s.draws := rfl
@[simp] theorem present_dev_status (v : Byte) (s : State) : (present v s).dev.status = s.dev.status := rfl
@[simp] theorem present_dev_mem (v : Byte) (s : State) : (present v s).dev.mem = s.dev.mem := rfl
@[simp] theorem present_dev_lost (v : Byte) (s : State) : (present v s).dev.lost = s.dev.lost := rfl
@[simp] theorem present_dev_rdptr (v : Byte) (s : State) : (present v s).dev.rdptr = s.dev.rdptr := rfl
@[simp] theorem present_dev_armed (v : Byte) (s : State) : (present v s).dev.armed = s.dev.armed := rfl
@[simp] theorem present_dev_inflight (v : Byte) (s : State) : (present v s).dev.inflight = s.dev.inflight := rfl
@[simp] theorem present_dev_rxBytes (v : Byte) (s : State) : (present v s).dev.rxBytes = s.dev.rxBytes := rfl
@[simp] theorem present_dev_rxShift (v : Byte) (s : State) : (present v s).dev.rxShift = s.dev.rxShift := rfl
@[simp] theorem present_dev_rxBits (v : Byte) (s : State) : (present v s).dev.rxBits = s.dev.rxBits := rfl
@[simp] theorem present_dev_txByte (v : Byte) (s : State) : (present v s).dev.txByte = v := rfl
@[simp] theorem present_dev_di (v : Byte) (s : State) : (present v s).dev.di = v.msb := rfl

@[simp] theorem setStatus_params (v : Byte) (s : State) : (setStatus v s).params = s.params := rfl
@[simp] theorem setStatus_block (v : Byte) (s : State) : (setStatus v s).block = s.block := rfl
@[simp] theorem setStatus_session (v : Byte) (s : State) : (setStatus v s).session = s.session := rfl
@[simp] theorem setStatus_pending (v : Byte) (s : State) : (setStatus v s).pending = s.pending := rfl
@[simp] theorem setStatus_ret (v : Byte) (s : State) : (setStatus v s).ret = s.ret := rfl
@[simp] theorem setStatus_outside (v : Byte) (s : State) : (setStatus v s).outside = s.outside := rfl
@[simp] theorem setStatus_guest (v : Byte) (s : State) : (setStatus v s).guest = s.guest := rfl
@[simp] theorem setStatus_trace (v : Byte) (s : State) : (setStatus v s).trace = s.trace := rfl
@[simp] theorem setStatus_script (v : Byte) (s : State) : (setStatus v s).script = s.script := rfl
@[simp] theorem setStatus_delays (v : Byte) (s : State) : (setStatus v s).delays = s.delays := rfl
@[simp] theorem setStatus_draws (v : Byte) (s : State) : (setStatus v s).draws = s.draws := rfl
@[simp] theorem setStatus_dev_mem (v : Byte) (s : State) : (setStatus v s).dev.mem = s.dev.mem := rfl
@[simp] theorem setStatus_dev_lost (v : Byte) (s : State) : (setStatus v s).dev.lost = s.dev.lost := rfl
@[simp] theorem setStatus_dev_rdptr (v : Byte) (s : State) : (setStatus v s).dev.rdptr = s.dev.rdptr := rfl
@[simp] theorem setStatus_dev_armed (v : Byte) (s : State) : (setStatus v s).dev.armed = s.dev.armed := rfl
@[simp] theorem setStatus_dev_inflight (v : Byte) (s : State) : (setStatus v s).dev.inflight = s.dev.inflight := rfl
@[simp] theorem setStatus_dev_rxBytes (v : Byte) (s : State) : (setStatus v s).dev.rxBytes = s.dev.rxBytes := rfl
@[simp] theorem setStatus_dev_rxShift (v : Byte) (s : State) : (setStatus v s).dev.rxShift = s.dev.rxShift := rfl
@[simp] theorem setStatus_dev_rxBits (v : Byte) (s : State) : (setStatus v s).dev.rxBits = s.dev.rxBits := rfl
@[simp] theorem setStatus_dev_txByte (v : Byte) (s : State) : (setStatus v s).dev.txByte = s.dev.txByte := rfl
@[simp] theorem setStatus_dev_di (v : Byte) (s : State) : (setStatus v s).dev.di = s.dev.di := rfl
@[simp] theorem setStatus_dev_status (v : Byte) (s : State) : (setStatus v s).dev.status = v := rfl

@[simp] theorem setArmed_params (b : Bool) (s : State) : (setArmed b s).params = s.params := rfl
@[simp] theorem setArmed_block (b : Bool) (s : State) : (setArmed b s).block = s.block := rfl
@[simp] theorem setArmed_session (b : Bool) (s : State) : (setArmed b s).session = s.session := rfl
@[simp] theorem setArmed_pending (b : Bool) (s : State) : (setArmed b s).pending = s.pending := rfl
@[simp] theorem setArmed_ret (b : Bool) (s : State) : (setArmed b s).ret = s.ret := rfl
@[simp] theorem setArmed_outside (b : Bool) (s : State) : (setArmed b s).outside = s.outside := rfl
@[simp] theorem setArmed_guest (b : Bool) (s : State) : (setArmed b s).guest = s.guest := rfl
@[simp] theorem setArmed_trace (b : Bool) (s : State) : (setArmed b s).trace = s.trace := rfl
@[simp] theorem setArmed_script (b : Bool) (s : State) : (setArmed b s).script = s.script := rfl
@[simp] theorem setArmed_delays (b : Bool) (s : State) : (setArmed b s).delays = s.delays := rfl
@[simp] theorem setArmed_draws (b : Bool) (s : State) : (setArmed b s).draws = s.draws := rfl
@[simp] theorem setArmed_dev_status (b : Bool) (s : State) : (setArmed b s).dev.status = s.dev.status := rfl
@[simp] theorem setArmed_dev_mem (b : Bool) (s : State) : (setArmed b s).dev.mem = s.dev.mem := rfl
@[simp] theorem setArmed_dev_lost (b : Bool) (s : State) : (setArmed b s).dev.lost = s.dev.lost := rfl
@[simp] theorem setArmed_dev_rdptr (b : Bool) (s : State) : (setArmed b s).dev.rdptr = s.dev.rdptr := rfl
@[simp] theorem setArmed_dev_inflight (b : Bool) (s : State) : (setArmed b s).dev.inflight = s.dev.inflight := rfl
@[simp] theorem setArmed_dev_rxBytes (b : Bool) (s : State) : (setArmed b s).dev.rxBytes = s.dev.rxBytes := rfl
@[simp] theorem setArmed_dev_rxShift (b : Bool) (s : State) : (setArmed b s).dev.rxShift = s.dev.rxShift := rfl
@[simp] theorem setArmed_dev_rxBits (b : Bool) (s : State) : (setArmed b s).dev.rxBits = s.dev.rxBits := rfl
@[simp] theorem setArmed_dev_txByte (b : Bool) (s : State) : (setArmed b s).dev.txByte = s.dev.txByte := rfl
@[simp] theorem setArmed_dev_di (b : Bool) (s : State) : (setArmed b s).dev.di = s.dev.di := rfl
@[simp] theorem setArmed_dev_armed (b : Bool) (s : State) : (setArmed b s).dev.armed = b := rfl

@[simp] theorem afterDraw_params (s : State) : (afterDraw s).params = s.params := by unfold afterDraw; split <;> rfl
@[simp] theorem afterDraw_block (s : State) : (afterDraw s).block = s.block := by unfold afterDraw; split <;> rfl
@[simp] theorem afterDraw_session (s : State) : (afterDraw s).session = s.session := by unfold afterDraw; split <;> rfl
@[simp] theorem afterDraw_dev (s : State) : (afterDraw s).dev = s.dev := by unfold afterDraw; split <;> rfl
@[simp] theorem afterDraw_pending (s : State) : (afterDraw s).pending = s.pending := by unfold afterDraw; split <;> rfl
@[simp] theorem afterDraw_ret (s : State) : (afterDraw s).ret = s.ret := by unfold afterDraw; split <;> rfl
@[simp] theorem afterDraw_outside (s : State) : (afterDraw s).outside = s.outside := by unfold afterDraw; split <;> rfl
@[simp] theorem afterDraw_guest (s : State) : (afterDraw s).guest = s.guest := by unfold afterDraw; split <;> rfl
@[simp] theorem afterDraw_trace (s : State) : (afterDraw s).trace = s.trace := by unfold afterDraw; split <;> rfl
@[simp] theorem afterDraw_delays (s : State) : (afterDraw s).delays = s.delays := by unfold afterDraw; split <;> rfl

@[simp] theorem afterDelay_params (s : State) : (afterDelay s).params = s.params := by unfold afterDelay; split <;> rfl
@[simp] theorem afterDelay_block (s : State) : (afterDelay s).block = s.block := by unfold afterDelay; split <;> rfl
@[simp] theorem afterDelay_session (s : State) : (afterDelay s).session = s.session := by unfold afterDelay; split <;> rfl
@[simp] theorem afterDelay_dev (s : State) : (afterDelay s).dev = s.dev := by unfold afterDelay; split <;> rfl
@[simp] theorem afterDelay_pending (s : State) : (afterDelay s).pending = s.pending := by unfold afterDelay; split <;> rfl
@[simp] theorem afterDelay_ret (s : State) : (afterDelay s).ret = s.ret := by unfold afterDelay; split <;> rfl
@[simp] theorem afterDelay_outside (s : State) : (afterDelay s).outside = s.outside := by unfold afterDelay; split <;> rfl
@[simp] theorem afterDelay_guest (s : State) : (afterDelay s).guest = s.guest := by unfold afterDelay; split <;> rfl
@[simp] theorem afterDelay_trace (s : State) : (afterDelay s).trace = s.trace := by unfold afterDelay; split <;> rfl
@[simp] theorem afterDelay_script (s : State) : (afterDelay s).script = s.script := by unfold afterDelay; split <;> rfl
/-! ### A draw of several bits -/

theorem drawBits_frame (n : Nat) (acc : Byte) (s : State) :
    (drawBits n acc s).2.params = s.params ∧ (drawBits n acc s).2.block = s.block
    ∧ (drawBits n acc s).2.session = s.session ∧ (drawBits n acc s).2.dev = s.dev
    ∧ (drawBits n acc s).2.pending = s.pending ∧ (drawBits n acc s).2.ret = s.ret
    ∧ (drawBits n acc s).2.outside = s.outside ∧ (drawBits n acc s).2.trace = s.trace
    ∧ (drawBits n acc s).2.delays = s.delays := by
  induction n generalizing acc s with
  | zero => simp [drawBits]
  | succ n ih => simpa [drawBits] using ih (acc.shiftConcat (drawnBit s)) (afterDraw s)

@[simp] theorem afterByteDraw_params (s : State) : (afterByteDraw s).params = s.params := (drawBits_frame _ _ s).1
@[simp] theorem afterByteDraw_block (s : State) : (afterByteDraw s).block = s.block := (drawBits_frame _ _ s).2.1
@[simp] theorem afterByteDraw_session (s : State) : (afterByteDraw s).session = s.session :=
  (drawBits_frame _ _ s).2.2.1
@[simp] theorem afterByteDraw_dev (s : State) : (afterByteDraw s).dev = s.dev := (drawBits_frame _ _ s).2.2.2.1
@[simp] theorem afterByteDraw_pending (s : State) : (afterByteDraw s).pending = s.pending :=
  (drawBits_frame _ _ s).2.2.2.2.1
@[simp] theorem afterByteDraw_ret (s : State) : (afterByteDraw s).ret = s.ret := (drawBits_frame _ _ s).2.2.2.2.2.1
@[simp] theorem afterByteDraw_outside (s : State) : (afterByteDraw s).outside = s.outside :=
  (drawBits_frame _ _ s).2.2.2.2.2.2.1
theorem drawBits_guest (n : Nat) (acc : Byte) (s : State) : (drawBits n acc s).2.guest = s.guest := by
  induction n generalizing acc s with
  | zero => rfl
  | succ n ih => simpa [drawBits] using ih (acc.shiftConcat (drawnBit s)) (afterDraw s)

@[simp] theorem afterByteDraw_guest (s : State) : (afterByteDraw s).guest = s.guest := drawBits_guest _ _ s
@[simp] theorem afterByteDraw_trace (s : State) : (afterByteDraw s).trace = s.trace :=
  (drawBits_frame _ _ s).2.2.2.2.2.2.2.1
@[simp] theorem afterByteDraw_delays (s : State) : (afterByteDraw s).delays = s.delays :=
  (drawBits_frame _ _ s).2.2.2.2.2.2.2.2

@[simp] theorem noteGuest_params (b : Bool) (t : State) : (noteGuest b t).params = t.params := rfl
@[simp] theorem noteGuest_block (b : Bool) (t : State) : (noteGuest b t).block = t.block := rfl
@[simp] theorem noteGuest_session (b : Bool) (t : State) : (noteGuest b t).session = t.session := rfl
@[simp] theorem noteGuest_dev (b : Bool) (t : State) : (noteGuest b t).dev = t.dev := rfl
@[simp] theorem noteGuest_pending (b : Bool) (t : State) : (noteGuest b t).pending = t.pending := rfl
@[simp] theorem noteGuest_ret (b : Bool) (t : State) : (noteGuest b t).ret = t.ret := rfl
@[simp] theorem noteGuest_outside (b : Bool) (t : State) : (noteGuest b t).outside = t.outside := rfl
@[simp] theorem noteGuest_trace (b : Bool) (t : State) : (noteGuest b t).trace = t.trace := rfl
@[simp] theorem noteGuest_script (b : Bool) (t : State) : (noteGuest b t).script = t.script := rfl
@[simp] theorem noteGuest_delays (b : Bool) (t : State) : (noteGuest b t).delays = t.delays := rfl
@[simp] theorem noteGuest_draws (b : Bool) (t : State) : (noteGuest b t).draws = t.draws := rfl
@[simp] theorem noteGuest_guest (b : Bool) (t : State) :
    (noteGuest b t).guest = (linesInUse t && (b || !blockBusy t)) := rfl

/-! ### Going on -/

@[simp] theorem andThen_next (s : State) (f : State → Result) : andThen (.next s) f = f s := rfl
@[simp] theorem andThen_fault (e : Fault) (f : State → Result) : andThen (.fault e) f = .fault e := rfl
@[simp] theorem andThen_refused (e : Refusal) (f : State → Result) : andThen (.refused e) f = .refused e := rfl

@[simp] theorem andThen_right (r : Result) : andThen r .next = r := by cases r <;> rfl

theorem andThen_assoc (r : Result) (f g : State → Result) :
    andThen (andThen r f) g = andThen r fun s => andThen (f s) g := by cases r <;> rfl

/-- `andThen` answers next exactly when both parts do. -/
theorem andThen_eq_next {r : Result} {f : State → Result} {t : State} :
    andThen r f = .next t ↔ ∃ s, r = .next s ∧ f s = .next t := by cases r <;> simp

end Sys2Proof.Machine
end

