-- ==== Sys2Proof/Laws/Transport.lean ====
section
/-! SUPPORT. What one byte exchange does, said once: `putByte` while the reference device listens, and while nothing
answers. Every later lemma cites these instead of unfolding the eight cells. -/

namespace Sys2Proof.Machine

open Sys2Proof

theorem listening_iff (s : State) :
    listening s = true ↔ s.block.csn = false ∧ s.params.device = .reference := by simp [listening]

theorem listening_congr (t s : State) (hc : t.block.csn = s.block.csn) (hp : t.params = s.params) :
    listening t = listening s := by simp [listening, hc, hp]

/-! ### The device's reactions do not look at the block or the trace -/

/-- Replace the block and the trace. -/
def withWire (b : Block) (tr : List LineEvent) (s : State) : State := { s with block := b, trace := tr }

@[simp] theorem withWire_params (b : Block) (tr : List LineEvent) (s : State) : (withWire b tr s).params = s.params :=
  rfl
@[simp] theorem withWire_block (b : Block) (tr : List LineEvent) (s : State) : (withWire b tr s).block = b := rfl
@[simp] theorem withWire_trace (b : Block) (tr : List LineEvent) (s : State) : (withWire b tr s).trace = tr := rfl
@[simp] theorem withWire_dev (b : Block) (tr : List LineEvent) (s : State) : (withWire b tr s).dev = s.dev := rfl
@[simp] theorem withWire_session (b : Block) (tr : List LineEvent) (s : State) :
    (withWire b tr s).session = s.session := rfl
@[simp] theorem withWire_pending (b : Block) (tr : List LineEvent) (s : State) :
    (withWire b tr s).pending = s.pending := rfl
@[simp] theorem withWire_ret (b : Block) (tr : List LineEvent) (s : State) : (withWire b tr s).ret = s.ret := rfl
@[simp] theorem withWire_outside (b : Block) (tr : List LineEvent) (s : State) :
    (withWire b tr s).outside = s.outside := rfl
@[simp] theorem withWire_guest (b : Block) (tr : List LineEvent) (s : State) :
    (withWire b tr s).guest = s.guest := rfl
@[simp] theorem withWire_delays (b : Block) (tr : List LineEvent) (s : State) :
    (withWire b tr s).delays = s.delays := rfl

theorem withWire_self (s : State) : withWire s.block s.trace s = s := rfl

theorem drawBits_withWire (b : Block) (tr : List LineEvent) (n : Nat) (acc : Byte) (s : State) :
    drawBits n acc (withWire b tr s) = ((drawBits n acc s).1, withWire b tr (drawBits n acc s).2) := by
  induction n generalizing acc s with
  | zero => rfl
  | succ n ih =>
    have h1 : drawnBit (withWire b tr s) = drawnBit s := rfl
    have h2 : afterDraw (withWire b tr s) = withWire b tr (afterDraw s) := by
      rcases s with ⟨_, _, _, _, _, _, _, _, _, sc, _, _⟩; cases sc <;> rfl
    rw [drawBits, h1, h2, ih, drawBits]

theorem drawnByte_withWire (b : Block) (tr : List LineEvent) (s : State) :
    drawnByte (withWire b tr s) = drawnByte s := by unfold drawnByte; rw [drawBits_withWire]

theorem afterByteDraw_withWire (b : Block) (tr : List LineEvent) (s : State) :
    afterByteDraw (withWire b tr s) = withWire b tr (afterByteDraw s) := by
  unfold afterByteDraw; rw [drawBits_withWire]

theorem presentDraw_withWire (b : Block) (tr : List LineEvent) (s : State) :
    presentDraw (withWire b tr s) = withWire b tr (presentDraw s) := by
  unfold presentDraw; rw [drawnByte_withWire, afterByteDraw_withWire]; rfl

theorem presentStatus_withWire (b : Block) (tr : List LineEvent) (s : State) :
    presentStatus (withWire b tr s) = withWire b tr (presentStatus s) := by
  unfold presentStatus; rw [drawnByte_withWire, afterByteDraw_withWire]; rfl

theorem presentArray_withWire (b : Block) (tr : List LineEvent) (s : State) :
    presentArray (withWire b tr s) = withWire b tr (presentArray s) := by
  have hc : isLost (withWire b tr s) s.dev.rdptr = isLost s s.dev.rdptr := rfl
  unfold presentArray
  rw [withWire_dev, withWire_params, hc]
  split
  · rfl
  · exact presentDraw_withWire b tr s

theorem presentNext_withWire (b : Block) (tr : List LineEvent) (s : State) :
    presentNext (withWire b tr s) = withWire b tr (presentNext s) := by
  unfold presentNext
  rw [withWire_dev]
  cases answerAfter s.dev.rxBytes <;>
    simp only [presentDraw_withWire, presentStatus_withWire, presentArray_withWire]

theorem acceptReadHeader_withWire (b : Block) (tr : List LineEvent) (a : Addr) (s : State) :
    acceptReadHeader a (withWire b tr s) = andThen (acceptReadHeader a s) fun t => .next (withWire b tr t) := by
  unfold acceptReadHeader
  have : isBusy (withWire b tr s) = isBusy s := rfl
  rw [this]
  split
  · rfl
  · rw [withWire_params]; split <;> rfl

theorem onByte_withWire (b : Block) (tr : List LineEvent) (w : Answer) (s : State) :
    onByte w (withWire b tr s) = andThen (onByte w s) fun t => .next (withWire b tr t) := by
  cases w
  case array => rfl
  all_goals
    unfold onByte
    simp only [withWire_dev]
    cases readHeader s.dev.rxBytes
    · rfl
    · exact acceptReadHeader_withWire b tr _ s

/-- A whole byte seen either faults or moves RDPTR alone. -/
theorem onByte_cases (w : Answer) (s : State) :
    (∃ f, onByte w s = .fault f) ∨ ∃ k, onByte w s = .next (setRdptr k s) := by
  cases w
  case array => exact .inr ⟨_, rfl⟩
  all_goals
    unfold onByte
    cases readHeader s.dev.rxBytes with
    | none => exact .inr ⟨s.dev.rdptr, rfl⟩
    | some a =>
      simp only [acceptReadHeader]
      split
      · exact .inl ⟨_, rfl⟩
      split
      · exact .inl ⟨_, rfl⟩
      · exact .inr ⟨_, rfl⟩

/-! ### One bit cell -/

/-- The block after a bit cell that sampled `d` (R148). -/
def cellBlock (d : Level) (b : Block) : Block :=
  { b with dout := b.sr.b7, sck := false, sr := shiftReg b.sr d, bitcnt := b.bitcnt + 1 }

/-- The trace after a bit cell that sampled `d` (R148). -/
def cellTrace (d : Level) (s : State) : List LineEvent := .fall :: .rise d :: .dout s.block.sr.b7 :: s.trace

/-- The state after a bit cell that does not make a byte whole, the device listening. -/
def nextCell (s : State) : State :=
  { s with
    block := cellBlock s.dev.di s.block
    trace := cellTrace s.dev.di s
    dev := { s.dev with
      rxShift := s.dev.rxShift.shiftConcat s.block.sr.b7, rxBits := s.dev.rxBits + 1
      di := s.dev.txByte.getMsbD (s.dev.rxBits + 1) } }

/-- The status byte being presented shows STATUS as it is: its sampling changes nothing (R72; log 10). -/
abbrev StatusFresh (s : State) : Prop :=
  answerAfter s.dev.rxBytes = .status → shownStatus s.params s.dev.status s.dev.txByte = s.dev.txByte

/-- A byte that shows STATUS is its own showing. -/
theorem shownStatus_idem (p : Params) (st o : Byte) : shownStatus p st (shownStatus p st o) = shownStatus p st o := by
  apply BitVec.eq_of_getLsbD_eq
  intro i _
  simp only [shownStatus, BitVec.getLsbD_or, BitVec.getLsbD_and, BitVec.getLsbD_not]
  cases st.getLsbD i <;> cases (namedMask p).getLsbD i <;> cases o.getLsbD i <;> simp

/-- The rising edge of a bit that does not make a byte whole. -/
theorem onRise_part {s : State} (h7 : s.dev.rxBits < 7) (hst : s.dev.rxBits = 0 → StatusFresh s)
    (hok : ¬(s.dev.rxBits = 0 ∧ answerAfter s.dev.rxBytes = .array ∧ s.params.capacity ≤ s.dev.rdptr)) :
    onRise s = .next (partByte s.block.dout s) := by
  unfold onRise
  split
  · rename_i h0
    unfold onFirstRise
    cases ha : answerAfter s.dev.rxBytes with
    | silent => rfl
    | status =>
      simp only [andThen_next, sampleStatus, hst h0 ha]
      split <;> rfl
    | array => simp only; rw [if_neg (fun h => hok ⟨h0, ha, h⟩)]; rfl
  · rw [if_neg (by simp [Config.byteBits]; omega)]

/-- A bit cell while the device listens, the byte not yet whole. -/
theorem bitCell_listening {s : State} (hl : listening s = true) (h7 : s.dev.rxBits < 7)
    (hst : s.dev.rxBits = 0 → StatusFresh s)
    (hok : ¬(s.dev.rxBits = 0 ∧ answerAfter s.dev.rxBytes = .array ∧ s.params.capacity ≤ s.dev.rdptr)) :
    bitCell s = .next (nextCell s) := by
  have hr := onRise_part (s := clockHigh s.dev.di (setDo s.block.sr.b7 s)) h7 hst hok
  rcases s with ⟨p, b, se, d, pe, re, ou, tr, sc, de, dr⟩
  rcases b with ⟨i, sck, dout, csn, sr, bitcnt, xact, done, phase, opc, ap, addr, dir, len, idx, buf⟩
  rcases d with ⟨st, mem, lost, rdptr, armed, fl, rxb, rxs, rxn, tx, di⟩
  obtain ⟨hc, hd⟩ := (listening_iff _).1 hl
  simp only [clockHigh, setDo, emit] at hc hd h7 hok hr
  subst hc
  simp [bitCell, riseWith, sampledDi, afterSample, listening, hd, setDo, emit, clockHigh, hr, partByte,
    andThen, fallEdge, shiftIn, clockLow, onFall, countCell, cellBlock, cellTrace, nextCell]

/-- A payload byte of a READ past the end faults at its first edge. -/
theorem bitCell_past_end {s : State} (hl : listening s = true) (h0 : s.dev.rxBits = 0)
    (ha : answerAfter s.dev.rxBytes = .array) (hc : s.params.capacity ≤ s.dev.rdptr) :
    bitCell s = .fault (.addrRange s.dev.rdptr) := by
  have hl' : listening (setDo s.block.sr.b7 s) = true := hl
  have h0' : (clockHigh (sampledDi s) (setDo s.block.sr.b7 s)).dev.rxBits = 0 := h0
  have ha' : answerAfter (clockHigh (sampledDi s) (setDo s.block.sr.b7 s)).dev.rxBytes = .array := ha
  rw [bitCell, riseWith, afterSample, if_pos hl', if_pos hl', onRise, if_pos h0', onFirstRise, ha']
  simp only
  rw [if_pos (by exact hc)]
  rfl

/-- The falling edge after a whole byte: the block and the trace are those of a bit cell, and the device presents the
next byte. -/
theorem countCell_fallEdge_whole {s X : State} (hl : listening s = true) (h0 : X.dev.rxBits = 0)
    (hp : X.params = s.params) (d : Level) :
    countCell (fallEdge (shiftIn d (withWire (clockHigh d (setDo s.block.sr.b7 s)).block
      (clockHigh d (setDo s.block.sr.b7 s)).trace X)))
    = presentNext (withWire (cellBlock d s.block) (cellTrace d s) X) := by
  have hX : listening (shiftIn d (withWire (clockHigh d (setDo s.block.sr.b7 s)).block
      (clockHigh d (setDo s.block.sr.b7 s)).trace X)) = true := by
    refine Eq.trans (listening_congr _ s ?_ ?_) hl
    · rfl
    · exact hp
  unfold fallEdge
  rw [if_pos hX, onFall, if_pos (by exact h0), presentNext_withWire]
  exact congrArg countCell (presentNext_withWire
    (clockLow (shiftIn d (clockHigh d (setDo s.block.sr.b7 s)))).block
    (clockLow (shiftIn d (clockHigh d (setDo s.block.sr.b7 s)))).trace X)

/-- The bit cell that makes a byte whole, while the device listens. -/
theorem bitCell_last {s : State} (hl : listening s = true) (h7 : s.dev.rxBits = 7) :
    bitCell s = andThen (onByte (answerAfter s.dev.rxBytes) (wholeByte s.block.sr.b7 s))
      fun t => .next (presentNext (withWire (cellBlock s.dev.di s.block) (cellTrace s.dev.di s) t)) := by
  have hl' : listening (setDo s.block.sr.b7 s) = true := hl
  have hd : sampledDi s = s.dev.di := if_pos hl
  have hr : onRise (clockHigh s.dev.di (setDo s.block.sr.b7 s)) = andThen
      (onByte (answerAfter s.dev.rxBytes) (wholeByte s.block.sr.b7 s))
      fun t => .next (withWire (clockHigh s.dev.di (setDo s.block.sr.b7 s)).block
        (clockHigh s.dev.di (setDo s.block.sr.b7 s)).trace t) := by
    rw [onRise, if_neg (by simp [clockHigh, h7]), if_pos (by simp [clockHigh, h7, Config.byteBits])]
    exact onByte_withWire _ _ _ (wholeByte s.block.sr.b7 s)
  rw [bitCell, riseWith, afterSample, if_pos hl', if_pos hl', hd, hr, andThen_assoc]
  rcases onByte_cases (answerAfter s.dev.rxBytes) (wholeByte s.block.sr.b7 s) with ⟨f, h⟩ | ⟨k, h⟩
  · rw [h]; rfl
  · rw [h, andThen_next, andThen_next, andThen_next, countCell_fallEdge_whole (X := setRdptr k (wholeByte s.block.sr.b7 s)) hl rfl rfl]

/-! ### Eight bits make a byte -/

theorem eq_of_eight_bits {x y : Byte} (h : ∀ i < 8, x.getLsbD i = y.getLsbD i) : x = y :=
  BitVec.eq_of_getLsbD_eq h

/-- Eight bits shifted in, most significant first, are the byte, whatever was there. -/
theorem shiftConcat_eight (v x : Byte) :
    ((((((((x.shiftConcat (v.getLsbD 7)).shiftConcat (v.getLsbD 6)).shiftConcat (v.getLsbD 5)).shiftConcat
      (v.getLsbD 4)).shiftConcat (v.getLsbD 3)).shiftConcat (v.getLsbD 2)).shiftConcat (v.getLsbD 1)).shiftConcat
      (v.getLsbD 0)) = v := by
  ext i hi
  have : i = 0 ∨ i = 1 ∨ i = 2 ∨ i = 3 ∨ i = 4 ∨ i = 5 ∨ i = 6 ∨ i = 7 := by omega
  rcases this with rfl | rfl | rfl | rfl | rfl | rfl | rfl | rfl <;> simp [BitVec.getElem_shiftConcat]

/-- The register gives back the byte it was loaded with. -/
@[simp] theorem regByte_loadReg (v : Byte) : regByte (loadReg v) = v := shiftConcat_eight v 0#8

theorem loadReg_regByte (r : ShiftReg) : loadReg (regByte r) = r := by
  rcases r with ⟨b7, b6, b5, b4, b3, b2, b1, b0⟩
  simp [loadReg, regByte]

/-- Bit `i` of the byte a register holds is its cell `i`. -/
theorem regByte_bits (r : ShiftReg) :
    (regByte r)[0] = r.b0 ∧ (regByte r)[1] = r.b1 ∧ (regByte r)[2] = r.b2 ∧ (regByte r)[3] = r.b3
    ∧ (regByte r)[4] = r.b4 ∧ (regByte r)[5] = r.b5 ∧ (regByte r)[6] = r.b6 ∧ (regByte r)[7] = r.b7 := by
  simp [regByte]

/-! ### The byte exchange while the device listens -/

/-- One step of the exchange while fewer than seven cells are done is a bit cell, in both implementations. -/
theorem runExchange_cell {s t : State} (n : Nat) (h7 : s.block.bitcnt < 7) (h : bitCell s = .next t)
    (ht : t.block.bitcnt = s.block.bitcnt + 1) : runExchange (n + 1) s = runExchange n t := by
  have h1 : s.block.bitcnt < Config.byteBits := by simp [Config.byteBits]; omega
  have h2 : transportStep s = .next t := by
    unfold transportStep
    cases s.params.transport
    · simp only [bitbangStep, if_pos h1, h, andThen_next]
      rw [closeExchange, if_neg (by simp [Config.byteBits]; omega)]
    · simp only [shifterStep, if_pos h1, h]
  rw [runExchange, h2, andThen_next]

theorem runExchange_nextCell {s : State} (n : Nat) (hc : s.block.bitcnt < 7) (hl : listening s = true)
    (h7 : s.dev.rxBits < 7) (hst : s.dev.rxBits = 0 → StatusFresh s)
    (hok : ¬(s.dev.rxBits = 0 ∧ answerAfter s.dev.rxBytes = .array ∧ s.params.capacity ≤ s.dev.rdptr)) :
    runExchange (n + 1) s = runExchange n (nextCell s) :=
  runExchange_cell n hc (bitCell_listening hl h7 hst hok) rfl

/-- The state when seven cells of an exchange that sends `v` are done, the device listening. -/
def sevenCells (v : Byte) (s : State) : State :=
  { s with
    block := { (loadByte v s).block with
      sck := false, dout := v.getLsbD 1, bitcnt := 7
      sr := ⟨v.getLsbD 0, s.dev.txByte.getLsbD 7, s.dev.txByte.getLsbD 6, s.dev.txByte.getLsbD 5,
        s.dev.txByte.getLsbD 4, s.dev.txByte.getLsbD 3, s.dev.txByte.getLsbD 2, s.dev.txByte.getLsbD 1⟩ }
    trace := (cellEvents (v.getLsbD 7) (s.dev.txByte.getLsbD 7) ++ cellEvents (v.getLsbD 6) (s.dev.txByte.getLsbD 6)
      ++ cellEvents (v.getLsbD 5) (s.dev.txByte.getLsbD 5) ++ cellEvents (v.getLsbD 4) (s.dev.txByte.getLsbD 4)
      ++ cellEvents (v.getLsbD 3) (s.dev.txByte.getLsbD 3) ++ cellEvents (v.getLsbD 2) (s.dev.txByte.getLsbD 2)
      ++ cellEvents (v.getLsbD 1) (s.dev.txByte.getLsbD 1)).reverse ++ s.trace
    dev := { s.dev with
      rxBits := 7, di := s.dev.txByte.getLsbD 0
      rxShift := ((((((s.dev.rxShift.shiftConcat (v.getLsbD 7)).shiftConcat (v.getLsbD 6)).shiftConcat
        (v.getLsbD 5)).shiftConcat (v.getLsbD 4)).shiftConcat (v.getLsbD 3)).shiftConcat (v.getLsbD 2)).shiftConcat
        (v.getLsbD 1) } }

theorem nextCell_seven {s : State} {v : Byte} (h0 : s.dev.rxBits = 0) (hdi : s.dev.di = s.dev.txByte.msb) :
    nextCell (nextCell (nextCell (nextCell (nextCell (nextCell (nextCell (loadByte v s))))))) = sevenCells v s := by
  rcases s with ⟨p, b, se, d, pe, re, ou, tr, sc, de, dr⟩
  rcases b with ⟨i, sck, dout, csn, sr, bitcnt, xact, done, phase, opc, ap, addr, dir, len, idx, buf⟩
  rcases d with ⟨st, mem, lost, rdptr, armed, fl, rxb, rxs, rxn, tx, di⟩
  simp only at h0 hdi
  subst h0 hdi
  have hm : tx.msb = tx.getLsbD 7 := rfl
  simp [nextCell, cellBlock, cellTrace, loadByte, shiftReg, loadReg, sevenCells, cellEvents, hm, BitVec.getMsbD]

theorem runExchange_seven {s : State} {v : Byte} (hl : listening s = true) (h0 : s.dev.rxBits = 0)
    (hdi : s.dev.di = s.dev.txByte.msb) (hst : StatusFresh s)
    (hok : ¬(answerAfter s.dev.rxBytes = .array ∧ s.params.capacity ≤ s.dev.rdptr)) (n : Nat) :
    runExchange (n + 7) (loadByte v s) = runExchange n (sevenCells v s) := by
  have hn : ∀ (k : Nat) (t : State), t.dev.rxBits = k + 1 → ¬(t.dev.rxBits = 0 ∧ answerAfter t.dev.rxBytes = .array
      ∧ t.params.capacity ≤ t.dev.rdptr) := fun k t h h' => by omega
  have hs : ∀ (k : Nat) (t : State), t.dev.rxBits = k + 1 → t.dev.rxBits = 0 → StatusFresh t := fun k t h h' => by omega
  have hb : ∀ (t : State) (k : Nat), t.dev.rxBits = k → (nextCell t).dev.rxBits = k + 1 := fun t k h => by rw [← h]; rfl
  have hc : ∀ (t : State) (k : Nat), t.block.bitcnt = k → (nextCell t).block.bitcnt = k + 1 := fun t k h => by rw [← h]; rfl
  have hL : ∀ t, listening t = true → listening (nextCell t) = true := fun t h => h
  have b0 : (loadByte v s).dev.rxBits = 0 := h0
  have c0 : (loadByte v s).block.bitcnt = 0 := rfl
  have l0 : listening (loadByte v s) = true := hl
  have b1 := hb _ _ b0; have c1 := hc _ _ c0; have l1 := hL _ l0
  have b2 := hb _ _ b1; have c2 := hc _ _ c1; have l2 := hL _ l1
  have b3 := hb _ _ b2; have c3 := hc _ _ c2; have l3 := hL _ l2
  have b4 := hb _ _ b3; have c4 := hc _ _ c3; have l4 := hL _ l3
  have b5 := hb _ _ b4; have c5 := hc _ _ c4; have l5 := hL _ l4
  have b6 := hb _ _ b5; have c6 := hc _ _ c5; have l6 := hL _ l5
  rw [runExchange_nextCell (n + 6) (by omega) l0 (by omega) (fun _ => hst) (fun h => hok h.2),
    runExchange_nextCell (n + 5) (by omega) l1 (by omega) (hs _ _ b1) (hn _ _ b1),
    runExchange_nextCell (n + 4) (by omega) l2 (by omega) (hs _ _ b2) (hn _ _ b2),
    runExchange_nextCell (n + 3) (by omega) l3 (by omega) (hs _ _ b3) (hn _ _ b3),
    runExchange_nextCell (n + 2) (by omega) l4 (by omega) (hs _ _ b4) (hn _ _ b4),
    runExchange_nextCell (n + 1) (by omega) l5 (by omega) (hs _ _ b5) (hn _ _ b5),
    runExchange_nextCell n (by omega) l6 (by omega) (hs _ _ b6) (hn _ _ b6), nextCell_seven h0 hdi]

/-- The block after an exchange that sent `v` and received `w` (R140, R142, R143). -/
def exchangedBlock (p : Params) (v w : Byte) (b : Block) : Block :=
  { b with
    sck := false, dout := v.getLsbD 0, sr := loadReg w, bitcnt := Config.byteBits, xact := false
    done := match p.transport with
      | .bitbang => b.done
      | .peripheral => true }

/-- The state after an exchange that sent `v` and received `w`: block and trace, nothing else. -/
def exchanged (v w : Byte) (s : State) : State :=
  withWire (exchangedBlock s.params v w s.block) ((byteEvents v w).reverse ++ s.trace) s

/-- The device has seen the whole byte `v` (R83). -/
def seen (v : Byte) (s : State) : State :=
  { s with dev := { s.dev with
      rxBytes := s.dev.rxBytes ++ [v], rxShift := 0, rxBits := 0, di := s.dev.txByte.getLsbD 0 } }

/-! ### Presenting touches only the device and the draws -/

theorem presentNext_cases (s : State) :
    ∃ w, presentNext s = present w s ∨ presentNext s = present w (afterByteDraw s) := by
  unfold presentNext
  cases answerAfter s.dev.rxBytes
  · exact ⟨_, .inr rfl⟩
  · exact ⟨_, .inr rfl⟩
  · simp only [presentArray]
    split
    · exact ⟨_, .inl rfl⟩
    · exact ⟨_, .inr rfl⟩

/-- Everything but what is presented on DI and the draws is as before. -/
theorem presentNext_frame (s : State) :
    (presentNext s).params = s.params ∧ (presentNext s).block = s.block ∧ (presentNext s).session = s.session
    ∧ (presentNext s).pending = s.pending ∧ (presentNext s).ret = s.ret ∧ (presentNext s).outside = s.outside
    ∧ (presentNext s).trace = s.trace ∧ (presentNext s).delays = s.delays
    ∧ (presentNext s).dev.di = (presentNext s).dev.txByte.msb
    ∧ (presentNext s).dev = { s.dev with
        txByte := (presentNext s).dev.txByte, di := (presentNext s).dev.txByte.msb } := by
  obtain ⟨w, h | h⟩ := presentNext_cases s <;> rw [h] <;> simp [present]

@[simp] theorem presentNext_params (s : State) : (presentNext s).params = s.params := (presentNext_frame s).1
@[simp] theorem presentNext_block (s : State) : (presentNext s).block = s.block := (presentNext_frame s).2.1
@[simp] theorem presentNext_session (s : State) : (presentNext s).session = s.session := (presentNext_frame s).2.2.1
@[simp] theorem presentNext_pending (s : State) : (presentNext s).pending = s.pending :=
  (presentNext_frame s).2.2.2.1
@[simp] theorem presentNext_ret (s : State) : (presentNext s).ret = s.ret := (presentNext_frame s).2.2.2.2.1
@[simp] theorem presentNext_outside (s : State) : (presentNext s).outside = s.outside :=
  (presentNext_frame s).2.2.2.2.2.1
@[simp] theorem presentNext_guest (s : State) : (presentNext s).guest = s.guest := by
  obtain ⟨w, h | h⟩ := presentNext_cases s <;> rw [h] <;> simp
@[simp] theorem presentNext_trace (s : State) : (presentNext s).trace = s.trace := (presentNext_frame s).2.2.2.2.2.2.1
@[simp] theorem presentNext_delays (s : State) : (presentNext s).delays = s.delays :=
  (presentNext_frame s).2.2.2.2.2.2.2.1

/-- DI carries the first bit of the byte presented. -/
theorem presentNext_di (s : State) : (presentNext s).dev.di = (presentNext s).dev.txByte.msb :=
  (presentNext_frame s).2.2.2.2.2.2.2.2.1

theorem presentNext_dev (s : State) : (presentNext s).dev = { s.dev with
    txByte := (presentNext s).dev.txByte, di := (presentNext s).dev.txByte.msb } :=
  (presentNext_frame s).2.2.2.2.2.2.2.2.2

/-! ### The byte exchange -/

/-- The end of the exchange, given the eighth cell: XACT falls, and DONE is set in the PERIPHERAL implementation. -/
def closed (p : Params) (s : State) : State :=
  { s with block := { s.block with
      xact := false
      done := match p.transport with
        | .bitbang => s.block.done
        | .peripheral => true } }

theorem runExchange_from_seven {s : State} (hc : s.block.bitcnt = 7)
    (h : ∀ t, bitCell s = .next t → t.block.bitcnt = 8 ∧ t.params = s.params) :
    runExchange (exchangeSteps s.params - 7) s = andThen (bitCell s) fun t => .next (closed s.params t) := by
  have h7 : s.block.bitcnt < Config.byteBits := by simp [Config.byteBits]; omega
  unfold exchangeSteps
  cases htr : s.params.transport
  · have : transportStep s = andThen (bitCell s) fun t => .next (closeExchange t) := by
      rw [transportStep, htr]; simp only [bitbangStep, if_pos h7]
    simp only [Config.byteBits, Nat.reduceSub, runExchange, this, andThen_assoc]
    cases hb : bitCell s with
    | next t =>
      have h8 := (h t hb).1
      simp [closeExchange, Config.byteBits, h8, closed, htr]
    | fault f => rfl
    | refused f => rfl
  · have : transportStep s = bitCell s := by
      rw [transportStep, htr]; simp only [shifterStep, if_pos h7]
    simp only [Config.byteBits, Nat.reduceSub, Nat.reduceAdd, runExchange, this]
    cases hb : bitCell s with
    | next t =>
      obtain ⟨h8, hp⟩ := h t hb
      simp [transportStep, hp, htr, shifterStep, Config.byteBits, h8, closed]
    | fault f => rfl
    | refused f => rfl

theorem exchangeSteps_ge (p : Params) : exchangeSteps p = exchangeSteps p - 7 + 7 := by
  unfold exchangeSteps Config.byteBits; cases p.transport <;> rfl

theorem wholeByte_sevenCells (v : Byte) (s : State) :
    wholeByte (v.getLsbD 0) (sevenCells v s)
    = withWire (sevenCells v s).block (sevenCells v s).trace (seen v s) := by
  simp only [wholeByte, sevenCells, seen, withWire, shiftConcat_eight]

theorem closed_eighth (v : Byte) (s : State) :
    (closed s.params (withWire (cellBlock (s.dev.txByte.getLsbD 0) (sevenCells v s).block)
      (cellTrace (s.dev.txByte.getLsbD 0) (sevenCells v s)) s))
    = exchanged v s.dev.txByte s := by
  cases h : s.params.transport <;>
    simp [closed, withWire, cellBlock, cellTrace, sevenCells, exchanged, exchangedBlock, loadByte, shiftReg, loadReg,
      byteEvents, cellEvents, Config.byteBits, h]

/-- `PutByte(v)` while the reference device listens at a byte boundary, not past the end of a READ: the block sends `v`
and receives the byte presented, the device sees `v` and presents the next byte, or faults. -/
theorem putByte_listening {v : Byte} {s : State} (hl : listening s = true) (h0 : s.dev.rxBits = 0)
    (hdi : s.dev.di = s.dev.txByte.msb) (hst : StatusFresh s)
    (hok : ¬(answerAfter s.dev.rxBytes = .array ∧ s.params.capacity ≤ s.dev.rdptr)) :
    putByte v s = andThen (onByte (answerAfter s.dev.rxBytes) (seen v s)) fun t =>
      .next (presentNext (exchanged v s.dev.txByte t)) := by
  have hlast : bitCell (sevenCells v s) = andThen (onByte (answerAfter s.dev.rxBytes) (seen v s)) fun t =>
      .next (presentNext (withWire (cellBlock (s.dev.txByte.getLsbD 0) (sevenCells v s).block)
        (cellTrace (s.dev.txByte.getLsbD 0) (sevenCells v s)) t)) := by
    have hl' : listening (sevenCells v s) = true := hl
    refine (bitCell_last hl' rfl).trans ?_
    have : wholeByte (sevenCells v s).block.sr.b7 (sevenCells v s)
        = withWire (sevenCells v s).block (sevenCells v s).trace (seen v s) := wholeByte_sevenCells v s
    rw [this]
    change andThen (onByte (answerAfter s.dev.rxBytes) (withWire _ _ (seen v s))) _ = _
    rw [onByte_withWire, andThen_assoc]
    rfl
  rw [putByte, exchangeSteps_ge, runExchange_seven hl h0 hdi hst hok]
  rcases onByte_cases (answerAfter s.dev.rxBytes) (seen v s) with ⟨f, hf⟩ | ⟨k, hk⟩
  · refine (runExchange_from_seven (s := sevenCells v s) rfl fun t ht => ?_).trans ?_
    · rw [hlast, hf] at ht; cases ht
    · rw [hlast, hf]; rfl
  · refine (runExchange_from_seven (s := sevenCells v s) rfl fun t ht => ?_).trans ?_
    · rw [hlast, hk] at ht
      cases ht
      exact ⟨by simp [cellBlock, sevenCells], by simp [setRdptr, seen]; rfl⟩
    · rw [hlast, hk]
      simp only [andThen_next]
      congr 1
      have h1 : ∀ (p : Params) (X : State), closed p (presentNext X) = presentNext (closed p X) := by
        intro p X
        exact (presentNext_withWire (closed p X).block X.trace X).symm ▸ by
          simp [closed, withWire]
      rw [h1]
      congr 1
      exact congrArg (fun t : State => withWire t.block t.trace (setRdptr k (seen v s))) (closed_eighth v s)

/-- A payload byte of a READ past the end of the array faults `AddrRange`, whatever is sent (R73). -/
theorem putByte_past_end {v : Byte} {s : State} (hl : listening s = true) (h0 : s.dev.rxBits = 0)
    (ha : answerAfter s.dev.rxBytes = .array) (hc : s.params.capacity ≤ s.dev.rdptr) :
    putByte v s = .fault (.addrRange s.dev.rdptr) := by
  have hb : bitCell (loadByte v s) = .fault (.addrRange s.dev.rdptr) :=
    bitCell_past_end (s := loadByte v s) hl h0 ha hc
  have hstep : transportStep (loadByte v s) = .fault (.addrRange s.dev.rdptr) := by
    unfold transportStep
    cases (loadByte v s).params.transport
    · simp only [bitbangStep, loadByte_block_bitcnt, Config.byteBits, if_pos (show 0 < 8 by omega), hb, andThen_fault]
    · simp only [shifterStep, loadByte_block_bitcnt, Config.byteBits, if_pos (show 0 < 8 by omega), hb]
  rw [putByte, exchangeSteps_ge, runExchange, hstep, andThen_fault]

/-! ### The byte exchange while nothing answers -/

/-- The state after a bit cell that sampled a draw. -/
def nextSilent (s : State) : State :=
  withWire (cellBlock (drawnBit s) s.block) (cellTrace (drawnBit s) s) (afterDraw s)

theorem afterDraw_withWire (b : Block) (tr : List LineEvent) (s : State) :
    afterDraw (withWire b tr s) = withWire b tr (afterDraw s) := by
  rcases s with ⟨_, _, _, _, _, _, _, _, _, sc, _, _⟩; cases sc <;> rfl

theorem bitCell_silent {s : State} (hl : listening s = false) : bitCell s = .next (nextSilent s) := by
  have h1 : listening (setDo s.block.sr.b7 s) = false := hl
  have h2 : listening (afterDraw (setDo s.block.sr.b7 s)) = false := by
    rw [listening_congr _ s (by simp) (by simp)]; exact hl
  have h3 : sampledDi s = drawnBit s := by rw [sampledDi, if_neg (by simp [hl])]
  have h4 : afterDraw (setDo s.block.sr.b7 s) = setDo s.block.sr.b7 (afterDraw s) :=
    afterDraw_withWire (setDo s.block.sr.b7 s).block (setDo s.block.sr.b7 s).trace s |>.trans (by
      rcases s with ⟨_, _, _, _, _, _, _, _, _, sc, _, _⟩; cases sc <;> rfl)
  have h5 : ∀ d, listening (shiftIn d (clockHigh d (setDo s.block.sr.b7 (afterDraw s)))) = false := fun d => by
    rw [← h4]; exact h2
  have h6 : afterSample (setDo s.block.sr.b7 s) = afterDraw (setDo s.block.sr.b7 s) := by
    rw [afterSample, if_neg (by simp [h1])]
  rw [bitCell, riseWith, h6, if_neg (by simp [h2]), h3, h4, andThen_next, fallEdge, if_neg (by simp [h5])]
  rcases s with ⟨_, _, _, _, _, _, _, _, _, sc, _, _⟩; cases sc <;> rfl

theorem drawnByte_eq (s : State) : drawnByte s = regByte
    ⟨drawnBit s, drawnBit (afterDraw s), drawnBit (afterDraw (afterDraw s)),
      drawnBit (afterDraw (afterDraw (afterDraw s))), drawnBit (afterDraw (afterDraw (afterDraw (afterDraw s)))),
      drawnBit (afterDraw (afterDraw (afterDraw (afterDraw (afterDraw s))))),
      drawnBit (afterDraw (afterDraw (afterDraw (afterDraw (afterDraw (afterDraw s)))))),
      drawnBit (afterDraw (afterDraw (afterDraw (afterDraw (afterDraw (afterDraw (afterDraw s))))))) ⟩ := rfl

theorem afterByteDraw_eq (s : State) : afterByteDraw s =
    afterDraw (afterDraw (afterDraw (afterDraw (afterDraw (afterDraw (afterDraw (afterDraw s))))))) := rfl

/-- `PutByte(v)` while nothing answers (`CSN = 1`, or the oracle): eight draws come in. -/
theorem putByte_silent {v : Byte} {s : State} (hl : listening s = false) :
    putByte v s = .next (exchanged v (drawnByte s) (afterByteDraw s)) := by
  have hL : ∀ t, listening t = false → listening (nextSilent t) = false := fun t h => by
    rw [listening_congr (nextSilent t) t rfl (by simp [nextSilent])]; exact h
  have hC : ∀ (t : State) (k : Nat), t.block.bitcnt = k → (nextSilent t).block.bitcnt = k + 1 :=
    fun t k h => by rw [← h]; rfl
  have hP : ∀ t : State, (nextSilent t).params = t.params := fun t => by simp [nextSilent]
  have c0 : (loadByte v s).block.bitcnt = 0 := rfl
  have l0 : listening (loadByte v s) = false := hl
  have c1 := hC _ _ c0; have l1 := hL _ l0
  have c2 := hC _ _ c1; have l2 := hL _ l1
  have c3 := hC _ _ c2; have l3 := hL _ l2
  have c4 := hC _ _ c3; have l4 := hL _ l3
  have c5 := hC _ _ c4; have l5 := hL _ l4
  have c6 := hC _ _ c5; have l6 := hL _ l5
  have c7 := hC _ _ c6; have l7 := hL _ l6
  have cell : ∀ (n k : Nat) (t : State), t.block.bitcnt = k → k < 7 → listening t = false →
      runExchange (n + 1) t = runExchange n (nextSilent t) := fun n k t h hk hl' =>
    runExchange_cell n (by omega) (bitCell_silent hl') (hC t _ rfl)
  rw [putByte, exchangeSteps_ge, cell _ _ _ c0 (by omega) l0, cell _ _ _ c1 (by omega) l1,
    cell _ _ _ c2 (by omega) l2, cell _ _ _ c3 (by omega) l3, cell _ _ _ c4 (by omega) l4,
    cell _ _ _ c5 (by omega) l5, cell _ _ _ c6 (by omega) l6]
  generalize hX : nextSilent (nextSilent (nextSilent (nextSilent (nextSilent (nextSilent (nextSilent
    (loadByte v s))))))) = X at *
  have hXp : X.params = s.params := by rw [← hX]; simp [hP]
  rw [← hXp, runExchange_from_seven c7 (fun t ht => by
      rw [bitCell_silent l7] at ht; cases ht; exact ⟨hC _ _ c7, hP _⟩), bitCell_silent l7, andThen_next, hXp, ← hX]
  congr 1
  have hw : ∀ t, nextSilent t = withWire (cellBlock (drawnBit t) t.block) (cellTrace (drawnBit t) t) (afterDraw t) :=
    fun _ => rfl
  have hd : ∀ (b : Block) (tr : List LineEvent) (t : State), drawnBit (withWire b tr t) = drawnBit t :=
    fun _ _ _ => rfl
  have hload : loadByte v s = withWire (loadByte v s).block s.trace s := rfl
  rw [hload]
  simp only [hw, afterDraw_withWire, hd, afterByteDraw_eq, drawnByte_eq, exchanged, withWire_block, cellTrace,
    withWire_trace]
  cases h : s.params.transport <;>
    simp [closed, withWire, cellBlock, exchangedBlock, loadByte, shiftReg, h, byteEvents, cellEvents,
      Config.byteBits, loadReg, regByte_bits]

end Sys2Proof.Machine
end

