-- ==== Sys2Proof/Laws/Framer.lean ====
section
/-! SUPPORT. What one byte of a frame, and a whole transaction, does, said once: either every byte of the frame has gone
out and the frame is about to end, or the reference device has faulted inside the frame. -/

namespace Sys2Proof.Machine

open Sys2Proof

/-! ### Inside a frame -/

/-- The device inside a frame whose bytes so far are `outs`: nothing but its decoding position, RDPTR and what it
presents has changed since the frame began in `s`. -/
structure DevMid (s t : State) (outs : List Byte) : Prop where
  frame : t.dev = { s.dev with
    rxBytes := outs, rxShift := 0, rxBits := 0, rdptr := rdptrAfter s.dev.rdptr outs
    txByte := t.dev.txByte, di := t.dev.txByte.msb }
  tx_status : answerAfter outs = .status → ∃ o, t.dev.txByte = shownStatus s.params s.dev.status o
  tx_array : answerAfter outs = .array → rdptrAfter s.dev.rdptr outs < s.params.capacity →
    isLost s (rdptrAfter s.dev.rdptr outs) = false →
    t.dev.txByte = memRead s.dev.mem (rdptrAfter s.dev.rdptr outs)

/-- The machine inside the frame of the request `r`, begun in `s`: `outs` sent, `ins` received, the lines between two
bytes, everything the frame does not touch as it was. -/
structure InFrame (s : State) (r : Request) (outs ins : List Byte) (t : State) : Prop where
  params : t.params = s.params
  session : t.session = s.session
  pending : t.pending = s.pending
  ret : t.ret = s.ret
  outside : t.outside = s.outside
  guest : t.guest = s.guest
  delays : t.delays = s.delays
  trace : t.trace = (bytesEvents outs ins).reverse ++ (.cs false :: s.trace)
  lengths : ins.length = outs.length
  inited : t.block.inited = s.block.inited
  opc : t.block.opc = r.opc
  ap : t.block.ap = r.addr.isSome
  addr : t.block.addr = r.addr.getD 0
  dir : t.block.dir = r.dir
  len : t.block.len = r.buf.length
  csn : t.block.csn = false
  sck : t.block.sck = false
  xact : t.block.xact = false
  dev_reference : s.params.device = .reference → DevMid s t outs
  dev_oracle : s.params.device = .oracle → t.dev = s.dev
  script_oracle : s.params.device = .oracle → 8 * ins.length ≤ s.script.length →
    t.script = s.script.drop (8 * ins.length) ∧ ins.flatMap bitsOf = s.script.take (8 * ins.length)

/-- The exchange of one byte leaves the framer's registers alone. -/
structure FramerKept (t u : State) : Prop where
  phase : u.block.phase = t.block.phase
  idx : u.block.idx = t.block.idx
  buf : u.block.buf = t.block.buf

/-- The reasons the reference device faults inside a frame, after `outs`, at the byte `v` (R65, R73, R82, R254). -/
inductive MidFault (s : State) (outs : List Byte) (v : Byte) : Fault → Prop where
  | pastEnd : answerAfter outs = .array → s.params.capacity ≤ rdptrAfter s.dev.rdptr outs →
      MidFault s outs v (.addrRange (rdptrAfter s.dev.rdptr outs))
  | busy (a : Addr) : answerAfter outs ≠ .array → readHeader (outs ++ [v]) = some a → isBusy s = true →
      MidFault s outs v (.busyViolation Config.opcRead)
  | range (a : Addr) : answerAfter outs ≠ .array → readHeader (outs ++ [v]) = some a → isBusy s = false →
      s.params.capacity ≤ a.toNat → MidFault s outs v (.addrRange a.toNat)

theorem bytesEvents_snoc (outs ins : List Byte) (h : ins.length = outs.length) (o i : Byte) :
    bytesEvents (outs ++ [o]) (ins ++ [i]) = bytesEvents outs ins ++ byteEvents o i := by
  induction outs generalizing ins with
  | nil => cases ins <;> simp_all [bytesEvents]
  | cons x outs ih =>
    cases ins with
    | nil => simp at h
    | cons y ins => simp [bytesEvents, ih ins (by simpa using h)]

/-- A byte drawn from a script is its first eight bits, and the rest of the script is left (log 8). -/
theorem drawnByte_script {t : State} (h : 8 ≤ t.script.length) :
    bitsOf (drawnByte t) = t.script.take 8 ∧ (afterByteDraw t).script = t.script.drop 8 := by
  rcases t with ⟨_, _, _, _, _, _, _, _, _, sc, _, _⟩
  have h' : 8 ≤ sc.length := h
  clear h
  rcases sc with _ | ⟨b7, _ | ⟨b6, _ | ⟨b5, _ | ⟨b4, _ | ⟨b3, _ | ⟨b2, _ | ⟨b1, _ | ⟨b0, l⟩⟩⟩⟩⟩⟩⟩⟩
  all_goals first
    | (simp at h'; done)
    | skip
  constructor
  · simp [drawnByte, drawBits, drawnBit, afterDraw, bitsOf]
  · simp [afterByteDraw, drawBits, drawnBit, afterDraw]

/-- What the device presents after a whole byte follows what it has seen (R65, R72). -/
theorem presentNext_tx (t : State) :
    (answerAfter t.dev.rxBytes = .status →
      ∃ o, (presentNext t).dev.txByte = shownStatus t.params t.dev.status o)
    ∧ (answerAfter t.dev.rxBytes = .array → t.dev.rdptr < t.params.capacity → isLost t t.dev.rdptr = false →
      (presentNext t).dev.txByte = memRead t.dev.mem t.dev.rdptr) := by
  constructor
  · intro h; simp only [presentNext, h]; exact ⟨_, rfl⟩
  · intro h h1 h2
    simp only [presentNext, h, presentArray]
    rw [if_pos (by simp [h1, h2])]; rfl

/-- The device after the whole byte `v`, nothing having faulted. -/
theorem onByte_seen {s t : State} {outs : List Byte} (v : Byte) (hp : t.params = s.params) (hd : DevMid s t outs) :
    (∃ f, onByte (answerAfter outs) (seen v t) = .fault f ∧ answerAfter outs ≠ .array ∧ MidFault s outs v f)
    ∨ ((∀ a, answerAfter outs ≠ .array → readHeader (outs ++ [v]) = some a →
          isBusy s = false ∧ a.toNat < s.params.capacity)
      ∧ onByte (answerAfter outs) (seen v t) = .next (setRdptr (rdptrAfter s.dev.rdptr (outs ++ [v])) (seen v t))) := by
  have hrx0 : t.dev.rxBytes = outs := by rw [hd.frame]
  have hrx : (seen v t).dev.rxBytes = outs ++ [v] := by simp [seen, hrx0]
  have hrd : (seen v t).dev.rdptr = rdptrAfter s.dev.rdptr outs := by simp only [seen]; rw [hd.frame]
  have hbusy : isBusy (seen v t) = isBusy s := by
    simp only [isBusy, seen]; rw [hp, hd.frame]
  rw [rdptrAfter_snoc]
  by_cases ha : answerAfter outs = .array
  · right
    refine ⟨fun a h => absurd ha h, ?_⟩
    rw [if_pos ha, ha]
    simp only [onByte, hrd]
  · rw [if_neg ha]
    have hon : onByte (answerAfter outs) (seen v t) = match readHeader (outs ++ [v]) with
        | some a => acceptReadHeader a (seen v t)
        | none => .next (seen v t) := by
      rw [← hrx]
      cases h : answerAfter outs
      · rfl
      · rfl
      · exact absurd h ha
    rw [hon]
    cases hh : readHeader (outs ++ [v]) with
    | none =>
      refine .inr ⟨fun a _ h => by simp at h, ?_⟩
      simp only [setRdptr, ← hrd]
    | some a =>
      simp only [acceptReadHeader, hbusy]
      by_cases hb : isBusy s = true
      · exact .inl ⟨_, by rw [if_pos hb]; rfl, ha, .busy a ha hh hb⟩
      · have hb' : isBusy s = false := by simpa using hb
        rw [if_neg hb]
        have hpar : (seen v t).params = s.params := hp
        rw [hpar]
        by_cases hc : s.params.capacity ≤ a.toNat
        · exact .inl ⟨_, by rw [if_pos hc]; rfl, ha, .range a ha hh hb' hc⟩
        · refine .inr ⟨fun b _ h => ?_, by rw [if_neg hc]⟩
          cases h; exact ⟨hb', by omega⟩

/-- ONE BYTE OF A FRAME: it goes out and one comes in, or the reference device faults for one of its reasons. -/
theorem InFrame.put {s t : State} {r : Request} {outs ins : List Byte} (h : InFrame s r outs ins t) (v : Byte) :
    (∃ u w, putByte v t = .next u ∧ InFrame s r (outs ++ [v]) (ins ++ [w]) u ∧ FramerKept t u
      ∧ u.block.sr = loadReg w ∧ u.block.xact = false ∧ (s.params.device = .reference → w = t.dev.txByte
        ∧ ¬(answerAfter outs = .array ∧ s.params.capacity ≤ rdptrAfter s.dev.rdptr outs)
        ∧ ∀ a, answerAfter outs ≠ .array → readHeader (outs ++ [v]) = some a →
          isBusy s = false ∧ a.toNat < s.params.capacity))
    ∨ (s.params.device = .reference ∧ ∃ f, putByte v t = .fault f ∧ MidFault s outs v f) := by
  have htr : ∀ w, (byteEvents v w).reverse ++ t.trace
      = (bytesEvents (outs ++ [v]) (ins ++ [w])).reverse ++ (.cs false :: s.trace) := fun w => by
    rw [bytesEvents_snoc _ _ h.lengths, h.trace]; simp
  cases hk : s.params.device with
  | oracle =>
    have hl : listening t = false := by simp [listening, h.params, hk]
    refine .inl ⟨_, _, putByte_silent hl, ?_, ⟨by simp [exchanged, exchangedBlock], by simp [exchanged, exchangedBlock],
      by simp [exchanged, exchangedBlock]⟩, rfl, rfl, by simp⟩
    constructor
    all_goals first
      | (simp only [exchanged, exchangedBlock, withWire_params, withWire_session, withWire_pending, withWire_ret,
          withWire_outside, withWire_guest, withWire_delays, withWire_block, afterByteDraw_params, afterByteDraw_session,
          afterByteDraw_pending, afterByteDraw_ret, afterByteDraw_outside, afterByteDraw_guest, afterByteDraw_delays, afterByteDraw_block,
          h.params, h.session, h.pending, h.ret, h.outside, h.guest, h.delays, h.inited, h.opc, h.ap, h.addr, h.dir, h.len,
          h.csn]; done)
      | skip
    · simp only [exchanged, withWire_trace, afterByteDraw_trace]; exact htr _
    · simp [h.lengths]
    · simp [hk]
    · intro _; simpa [exchanged] using h.dev_oracle hk
    · intro _ hlen
      rw [List.length_append, List.length_singleton] at hlen
      obtain ⟨h1, h2⟩ := h.script_oracle hk (by omega)
      obtain ⟨d1, d2⟩ := drawnByte_script (t := t) (by rw [h1, List.length_drop]; omega)
      constructor
      · show (afterByteDraw t).script = _
        rw [d2, h1, List.drop_drop, List.length_append, List.length_singleton]; congr 1
      · rw [List.flatMap_append, h2, List.flatMap_singleton, d1, h1, List.length_append, List.length_singleton,
          Nat.mul_add, List.take_add]
  | reference =>
    have hd := h.dev_reference hk
    have hl : listening t = true := by simp [listening, h.params, hk, h.csn]
    have h0 : t.dev.rxBits = 0 := by rw [hd.frame]
    have hdi : t.dev.di = t.dev.txByte.msb := by rw [hd.frame]
    have hrx : t.dev.rxBytes = outs := by rw [hd.frame]
    have hrd : t.dev.rdptr = rdptrAfter s.dev.rdptr outs := by rw [hd.frame]
    by_cases hpast : answerAfter outs = .array ∧ s.params.capacity ≤ rdptrAfter s.dev.rdptr outs
    · refine .inr ⟨rfl, _, ?_, .pastEnd hpast.1 hpast.2⟩
      rw [← hrd]
      exact putByte_past_end hl h0 (by rw [hrx]; exact hpast.1) (by rw [h.params, hrd]; exact hpast.2)
    · have hst : StatusFresh t := fun ha => by
        obtain ⟨o, ho⟩ := hd.tx_status (by rw [← hrx]; exact ha)
        have e : t.dev.status = s.dev.status := by rw [hd.frame]
        rw [h.params, e, ho, shownStatus_idem]
      have hput := putByte_listening (v := v) hl h0 hdi hst (by rw [hrx, h.params, hrd]; exact hpast)
      rw [hrx] at hput
      rcases onByte_seen v h.params hd with ⟨f, hf, _, hm⟩ | ⟨hok, hn⟩
      · exact .inr ⟨rfl, f, by rw [hput, hf]; rfl, hm⟩
      · rw [hn, andThen_next] at hput
        refine .inl ⟨_, t.dev.txByte, hput, ?_, ⟨?_, ?_, ?_⟩, ?_, ?_, fun _ => ⟨rfl, hpast, hok⟩⟩
        · have hdev := presentNext_dev (exchanged v t.dev.txByte
              (setRdptr (rdptrAfter s.dev.rdptr (outs ++ [v])) (seen v t)))
          have htx := presentNext_tx (exchanged v t.dev.txByte
              (setRdptr (rdptrAfter s.dev.rdptr (outs ++ [v])) (seen v t)))
          have e1 : (exchanged v t.dev.txByte
              (setRdptr (rdptrAfter s.dev.rdptr (outs ++ [v])) (seen v t))).dev
              = { s.dev with
                rxBytes := outs ++ [v], rxShift := 0, rxBits := 0
                rdptr := rdptrAfter s.dev.rdptr (outs ++ [v]), txByte := t.dev.txByte
                di := t.dev.txByte.getLsbD 0 } := by
            simp only [exchanged, withWire_dev, setRdptr, seen]; rw [hd.frame]
          have e2 : (exchanged v t.dev.txByte
              (setRdptr (rdptrAfter s.dev.rdptr (outs ++ [v])) (seen v t))).params = s.params := h.params
          constructor
          all_goals first
            | (simp only [presentNext_params, presentNext_session, presentNext_pending, presentNext_ret,
                presentNext_outside, presentNext_guest, presentNext_delays, presentNext_block, exchanged, exchangedBlock, withWire_params,
                withWire_session, withWire_pending, withWire_ret, withWire_outside, withWire_guest, withWire_delays, withWire_block,
                setRdptr, seen, h.params, h.session, h.pending, h.ret, h.outside, h.guest, h.delays, h.inited, h.opc, h.ap,
                h.addr, h.dir, h.len, h.csn]; done)
            | skip
          · simp only [presentNext_trace, exchanged, withWire_trace]; exact htr _
          · simp [h.lengths]
          · intro _
            constructor
            · rw [hdev, e1]
            · intro ha
              obtain ⟨o, ho⟩ := htx.1 (by rw [e1]; exact ha)
              exact ⟨o, by rw [ho, e1, e2]⟩
            · intro ha hlt hlost
              rw [htx.2 (by rw [e1]; exact ha) (by rw [e1, e2]; exact hlt) (by unfold isLost; rw [e1]; exact hlost), e1]
          · simp [hk]
          · simp [hk]
        all_goals simp [exchanged, exchangedBlock, setRdptr, seen]

/-! ### From byte to byte -/

/-- What the bytes `ins` received say, the reference device having answered `outs` (R65, R72, R73, R82). -/
structure Answered (s : State) (outs ins : List Byte) : Prop where
  status : ∀ k w, ins[k]? = some w → answerAfter (outs.take k) = .status →
    ∃ o, w = shownStatus s.params s.dev.status o
  array : ∀ k w, ins[k]? = some w → answerAfter (outs.take k) = .array →
    rdptrAfter s.dev.rdptr (outs.take k) < s.params.capacity
      ∧ (isLost s (rdptrAfter s.dev.rdptr (outs.take k)) = false →
        w = memRead s.dev.mem (rdptrAfter s.dev.rdptr (outs.take k)))
  header : ∀ k a, k < outs.length → readHeader (outs.take (k + 1)) = some a →
    isBusy s = false ∧ a.toNat < s.params.capacity

/-- Inside a frame, with what has been received. -/
structure Sending (s : State) (r : Request) (outs ins : List Byte) (t : State) : Prop where
  inFrame : InFrame s r outs ins t
  answered : s.params.device = .reference → Answered s outs ins

/-- The reference device faults inside a frame that sends `bs`: at the byte `v`, the bytes `outs` before it having passed
every test. -/
def MidStop (s : State) (bs : List Byte) (f : Fault) : Prop :=
  s.params.device = .reference ∧ ∃ outs ins v rest, bs = outs ++ v :: rest ∧ ins.length = outs.length
    ∧ Answered s outs ins ∧ MidFault s outs v f

theorem Answered.snoc {s t : State} {outs ins : List Byte} {v : Byte} (h : Answered s outs ins)
    (hl : ins.length = outs.length) (hd : DevMid s t outs)
    (hp : ¬(answerAfter outs = .array ∧ s.params.capacity ≤ rdptrAfter s.dev.rdptr outs))
    (hr : ∀ a, answerAfter outs ≠ .array → readHeader (outs ++ [v]) = some a →
      isBusy s = false ∧ a.toNat < s.params.capacity) :
    Answered s (outs ++ [v]) (ins ++ [t.dev.txByte]) := by
  have key : ∀ k w, (ins ++ [t.dev.txByte])[k]? = some w →
      (ins[k]? = some w ∧ (outs ++ [v]).take k = outs.take k) ∨ (w = t.dev.txByte ∧ (outs ++ [v]).take k = outs) := by
    intro k w hk
    by_cases hlt : k < ins.length
    · left
      rw [List.getElem?_append_left hlt] at hk
      exact ⟨hk, by rw [List.take_append_of_le_length (by omega)]⟩
    · right
      rw [List.getElem?_append_right (by omega)] at hk
      have : k - ins.length = 0 := by
        by_contra hne
        rw [List.getElem?_eq_none (by simp; omega)] at hk; cases hk
      rw [this] at hk
      have hk0 : k = outs.length := by omega
      subst hk0
      simp at hk
      exact ⟨hk.symm, by simp⟩
  refine ⟨fun k w hk ha => ?_, fun k w hk ha => ?_, fun k a hk ha => ?_⟩
  · rcases key k w hk with ⟨hk', e⟩ | ⟨rfl, e⟩ <;> rw [e] at ha
    · exact h.status k w hk' ha
    · exact hd.tx_status ha
  · rcases key k w hk with ⟨hk', e⟩ | ⟨rfl, e⟩ <;> rw [e] at ha ⊢
    · exact h.array k w hk' ha
    · have : rdptrAfter s.dev.rdptr outs < s.params.capacity := by
        by_contra hc; exact hp ⟨ha, by omega⟩
      exact ⟨this, hd.tx_array ha this⟩
  · rw [List.length_append] at hk
    by_cases hlt : k < outs.length
    · rw [List.take_append_of_le_length (by omega)] at ha
      exact h.header k a hlt ha
    · have hk0 : k = outs.length := by simp at hk; omega
      subst hk0
      rw [List.take_of_length_le (by simp)] at ha
      refine hr a (fun hArr => ?_) ha
      rw [readHeader_snoc_of_array hArr] at ha; cases ha

theorem Sending.put {s t : State} {r : Request} {outs ins : List Byte} (h : Sending s r outs ins t) (v : Byte) :
    (∃ u w, putByte v t = .next u ∧ Sending s r (outs ++ [v]) (ins ++ [w]) u ∧ FramerKept t u
      ∧ u.block.sr = loadReg w ∧ u.block.xact = false)
    ∨ ∃ f, putByte v t = .fault f ∧ ∀ rest, MidStop s (outs ++ v :: rest) f := by
  rcases h.inFrame.put v with ⟨u, w, hu, hi, hk, hsr, hx, href⟩ | ⟨hr, f, hf, hm⟩
  · refine .inl ⟨u, w, hu, ⟨hi, fun hr => ?_⟩, hk, hsr, hx⟩
    obtain ⟨hw, hp, hh⟩ := href hr
    rw [hw]
    exact (h.answered hr).snoc h.inFrame.lengths (h.inFrame.dev_reference hr) hp hh
  · exact .inr ⟨f, hf, fun rest => ⟨hr, outs, ins, v, rest, rfl, h.inFrame.lengths, h.answered hr, hm⟩⟩

theorem InFrame.block {s t : State} {r : Request} {outs ins : List Byte} (h : InFrame s r outs ins t) (b : Block)
    (h1 : b.inited = t.block.inited) (h2 : b.opc = t.block.opc) (h3 : b.ap = t.block.ap) (h4 : b.addr = t.block.addr)
    (h5 : b.dir = t.block.dir) (h6 : b.len = t.block.len) (h7 : b.csn = t.block.csn) (h8 : b.sck = t.block.sck)
    (h9 : b.xact = t.block.xact) :
    InFrame s r outs ins { t with block := b } where
  params := h.params
  session := h.session
  pending := h.pending
  ret := h.ret
  outside := h.outside
  guest := h.guest
  delays := h.delays
  trace := h.trace
  lengths := h.lengths
  inited := h1.trans h.inited
  opc := h2.trans h.opc
  ap := h3.trans h.ap
  addr := h4.trans h.addr
  dir := h5.trans h.dir
  len := h6.trans h.len
  csn := h7.trans h.csn
  sck := h8.trans h.sck
  xact := h9.trans h.xact
  dev_reference hr := ⟨(h.dev_reference hr).frame, (h.dev_reference hr).tx_status, (h.dev_reference hr).tx_array⟩
  dev_oracle := h.dev_oracle
  script_oracle := h.script_oracle

theorem Sending.setPhase {s t : State} {r : Request} {outs ins : List Byte} (h : Sending s r outs ins t) (p : Phase) :
    Sending s r outs ins (setPhase p t) :=
  ⟨h.inFrame.block _ rfl rfl rfl rfl rfl rfl rfl rfl rfl, h.answered⟩

theorem Sending.storePayload {s t : State} {r : Request} {outs ins : List Byte} (h : Sending s r outs ins t) :
    Sending s r outs ins { t with block := storePayload t.block } := by
  refine ⟨h.inFrame.block _ ?_ ?_ ?_ ?_ ?_ ?_ ?_ ?_ ?_, h.answered⟩ <;>
    (unfold Machine.storePayload; split <;> rfl)

/-! ### The parts of a transaction -/

theorem transactionGate_none_iff (s : State) : transactionGate s = none ↔
    s.block.inited = true ∧ s.block.xact = false ∧ s.block.phase = .idle ∧ s.block.sck = false ∧ s.block.csn = true := by
  have hp : (s.block.phase != .idle) = false ↔ s.block.phase = .idle := by simp
  rw [← hp]
  unfold transactionGate blockBusy linesInUse
  cases s.block.inited <;> cases s.block.xact <;> cases (s.block.phase != .idle) <;> cases s.block.sck <;>
    cases s.block.csn <;> decide

/-- The start of a frame on a ready bus (R170). -/
theorem startFrame_next (r : Request) {s : State} (h : transactionGate s = none) :
    ∃ t, startFrame r s = .next t ∧ Sending s r [] [] t ∧ t.block.idx = 0 ∧ t.block.buf = r.buf
      ∧ t.block.phase = .opcode ∧ t.block.xact = false := by
  obtain ⟨hi, hx, hp, hs, hc⟩ := (transactionGate_none_iff s).1 h
  have hc' : (latchRequest r s.block).csn = true := hc
  have hstart : startFrame r s = andThen (csnEdge false (driveCsn false { s with block := latchRequest r s.block }))
      fun t => .next (setPhase .opcode t) := by
    rw [startFrame, setCsn, if_neg (by simp [hc'])]
  cases hk : s.params.device with
  | oracle =>
    have he : csnEdge false (driveCsn false { s with block := latchRequest r s.block })
        = .next (driveCsn false { s with block := latchRequest r s.block }) := by
      unfold csnEdge; simp only [driveCsn, emit_params, hk]
    refine ⟨setPhase .opcode (driveCsn false { s with block := latchRequest r s.block }), by rw [hstart, he]; rfl,
      ⟨?_, by simp [hk]⟩, rfl, rfl, rfl, hx⟩
    constructor
    all_goals first | rfl | exact hs | exact hx | skip
    · simp [hk]
    · exact fun _ => rfl
    · intro _ _; simp only [List.length_nil, Nat.mul_zero, List.drop_zero, List.take_zero, List.flatMap_nil, and_true]; rfl
  | reference =>
    have he : csnEdge false (driveCsn false { s with block := latchRequest r s.block })
        = .next (onSelect (driveCsn false { s with block := latchRequest r s.block })) := by
      unfold csnEdge; simp only [driveCsn, emit_params, hk]; rfl
    refine ⟨setPhase .opcode (onSelect (driveCsn false { s with block := latchRequest r s.block })),
      by rw [hstart, he]; rfl, ⟨?_, fun _ => ⟨by simp, by simp, by simp⟩⟩, ?_⟩
    · constructor
      all_goals first
        | (simp only [setPhase_params, setPhase_session, setPhase_pending, setPhase_ret, setPhase_outside, setPhase_guest,
            setPhase_delays, setPhase_trace, onSelect, presentNext_params, presentNext_session, presentNext_pending,
            presentNext_ret, presentNext_outside, presentNext_guest, presentNext_delays, presentNext_trace]; rfl)
        | (simp only [setPhase_block_inited, setPhase_block_opc, setPhase_block_ap, setPhase_block_addr,
            setPhase_block_dir, setPhase_block_len, setPhase_block_csn, onSelect, presentNext_block]; rfl)
        | skip
      · rfl
      · simp only [setPhase_block_sck, onSelect, presentNext_block]; exact hs
      · simp only [setPhase_block_xact, onSelect, presentNext_block]; exact hx
      · intro _
        refine ⟨?_, by simp [answerAfter], by simp [answerAfter]⟩
        exact presentNext_dev _
      · simp [hk]
      · simp [hk]
    · simp only [setPhase_block_idx, setPhase_block_buf, setPhase_block_phase, setPhase_block_xact, onSelect,
        presentNext_block]
      exact ⟨rfl, rfl, trivial, hx⟩

/-- The address bytes at the places `ks` of a frame (R170), the bytes `outs` having gone out. -/
theorem sendPlaces_cases {s : State} {r : Request} {a : Addr} (ha : r.addr = some a) (ks : List (Fin Config.addrBytes)) :
    ∀ (outs : List Byte) (t : State) (ins : List Byte), Sending s r outs ins t →
      (∃ u ins', sendPlaces ks t = .next u ∧ Sending s r (outs ++ ks.map fun k => addrByte k.val a) ins' u
        ∧ u.block.idx = t.block.idx ∧ u.block.buf = t.block.buf)
      ∨ ∃ f, sendPlaces ks t = .fault f ∧ MidStop s (outs ++ ks.map fun k => addrByte k.val a) f := by
  induction ks with
  | nil => intro outs t ins h; exact .inl ⟨t, ins, rfl, by simpa using h, rfl, rfl⟩
  | cons k ks ih =>
    intro outs t ins h
    have had : t.block.addr = a := by rw [h.inFrame.addr, ha]; rfl
    have e : outs ++ (k :: ks).map (fun k => addrByte k.val a)
        = (outs ++ [addrByte k.val a]) ++ ks.map fun k => addrByte k.val a := by simp
    rw [sendPlaces, had, e]
    rcases (h.setPhase (.addr k)).put (addrByte k.val a) with ⟨u, w, hu, h1, hk1, _, _⟩ | ⟨f, hf, hm⟩
    · rw [hu, andThen_next]
      rcases ih _ u _ h1 with ⟨x, ins', hx, hs, hi, hb⟩ | h
      · exact .inl ⟨x, ins', hx, hs, hi.trans hk1.idx, hb.trans hk1.buf⟩
      · exact .inr h
    · refine .inr ⟨f, by rw [hf]; rfl, ?_⟩
      have := hm (ks.map fun k => addrByte k.val a)
      rwa [List.append_assoc]

/-- The address bytes of a frame (R170). -/
theorem sendAddr_cases {s t : State} {r : Request} {ins : List Byte} (h : Sending s r [r.opc] ins t) :
    (∃ u ins', sendAddr t = .next u ∧ Sending s r (r.opc :: r.doAddr) ins' u ∧ u.block.idx = t.block.idx
      ∧ u.block.buf = t.block.buf)
    ∨ ∃ f, sendAddr t = .fault f ∧ MidStop s (r.opc :: r.doAddr) f := by
  have hap := h.inFrame.ap
  have had := h.inFrame.addr
  cases ha : r.addr with
  | none =>
    rw [ha] at hap
    refine .inl ⟨t, ins, ?_, ?_, rfl, rfl⟩
    · simp [sendAddr, hap]
    · simpa [Request.doAddr, ha] using h
  | some a =>
    rw [ha] at hap had
    have had' : t.block.addr = a := had
    have hdo : r.doAddr = addrPlaces.map fun k => addrByte k.val a := by simp [Request.doAddr, ha, addrBytesOf]
    rw [hdo, sendAddr, if_pos (by rw [hap]; rfl)]
    exact sendPlaces_cases ha addrPlaces [r.opc] t ins h

/-- What `BUF` holds once the payload bytes `got` have come in (R26, R27). -/
def bufferAfter (r : Request) (got : List Byte) : List Byte :=
  match r.dir with
  | .inbound => got ++ r.buf.drop got.length
  | .outbound => r.buf

/-- `k` payload bytes of a frame (R170): `hdr` is the header, `sent` and `got` the payload bytes so far. -/
theorem payloadLoop_cases {s : State} {r : Request} {hdr hins : List Byte} :
    ∀ (k : Nat) (t : State) (sent got rest : List Byte), r.doPayload = sent ++ rest → rest.length = k →
      got.length = sent.length → Sending s r (hdr ++ sent) (hins ++ got) t → t.block.idx = sent.length →
      t.block.buf = bufferAfter r got →
      (∃ u got', payloadLoop k t = .next u ∧ Sending s r (hdr ++ r.doPayload) (hins ++ got') u
        ∧ got'.length = r.doPayload.length ∧ u.block.buf = bufferAfter r got' ∧ u.block.idx = r.doPayload.length)
      ∨ ∃ f, payloadLoop k t = .fault f ∧ MidStop s (hdr ++ r.doPayload) f := by
  intro k
  induction k with
  | zero =>
    intro t sent got rest hdo hlen hgl h hidx hbuf
    have : rest = [] := by simpa using hlen
    subst this
    rw [List.append_nil] at hdo
    exact .inl ⟨t, got, rfl, by rw [hdo]; exact h, by rw [hgl, hdo], hbuf, by rw [hidx, hdo]⟩
  | succ k ih =>
    intro t sent got rest hdo hlen hgl h hidx hbuf
    rcases rest with _ | ⟨v, rest⟩
    · simp at hlen
    have hout : payloadOut t.block = v := by
      have hd := h.inFrame.dir
      unfold payloadOut
      cases hr : r.dir with
      | outbound =>
        rw [hr] at hd
        simp only [hd, hbuf, bufferAfter, hr, hidx]
        have : r.buf = sent ++ v :: rest := by rw [← hdo]; simp [Request.doPayload, hr]
        rw [this]; simp
      | inbound =>
        rw [hr] at hd
        simp only [hd]
        have hm : v ∈ r.doPayload := by rw [hdo]; simp
        simp only [Request.doPayload, hr, List.mem_replicate] at hm
        exact hm.2.symm
    rw [payloadLoop, hout]
    rcases h.put v with ⟨u, w, hu, h1, hk1, hsr, _⟩ | ⟨f, hf, hm⟩
    · rw [hu, andThen_next]
      refine ih _ (sent ++ [v]) (got ++ [w]) rest (by rw [hdo]; simp) (by simpa using hlen) (by simp [hgl])
        (by simpa using h1.storePayload) ?_ ?_
      · simp only [storePayload]
        split <;> simp [hk1.idx, hidx]
      · have hd := h1.inFrame.dir
        simp only [storePayload, bufferAfter]
        cases hr : r.dir with
        | outbound =>
          rw [hr] at hd
          simp only [hd, hk1.buf, hbuf, bufferAfter, hr]
        | inbound =>
          rw [hr] at hd
          have hle : got.length < r.buf.length := by
            have : r.doPayload.length = r.buf.length := by simp [Request.doPayload, hr]
            rw [hdo] at this; simp at this; omega
          have hbyte : regByte u.block.sr = w := by rw [hsr]; exact regByte_loadReg w
          simp only [hd, hk1.buf, hbuf, bufferAfter, hr, hk1.idx, hidx, hbyte]
          rw [← hgl, List.set_append_right _ _ (by omega), Nat.sub_self, List.drop_eq_getElem_cons hle,
            List.set_cons_zero]
          simp
    · exact .inr ⟨f, by rw [hf]; rfl, by rw [hdo]; simpa using hm rest⟩

/-- The whole of a transaction but its end: every byte has gone out, or the reference device has faulted inside the
frame (R170, R183). -/
theorem transaction_cases (r : Request) {s : State} (h : transactionGate s = none) :
    (∃ t hins got, transaction r s = endFrame t ∧ Sending s r r.doBytes (hins ++ got) t
      ∧ hins.length = 1 + r.doAddr.length ∧ got.length = r.doPayload.length ∧ t.block.buf = bufferAfter r got
      ∧ t.block.idx = r.doPayload.length)
    ∨ ∃ f, transaction r s = .fault f ∧ MidStop s r.doBytes f := by
  have hlenP : r.doPayload.length = r.buf.length := by
    cases hr : r.dir <;> simp [Request.doPayload, hr]
  obtain ⟨t0, ht0, h0, hidx0, hbuf0, _, _⟩ := startFrame_next r h
  simp only [transaction, h, ht0, andThen_next, frameBody]
  rw [h0.inFrame.opc]
  rcases h0.put r.opc with ⟨t1, w, hu1, h1, hk1, _, _⟩ | ⟨f, hf, hm⟩
  · rw [hu1, andThen_next]
    rcases sendAddr_cases h1 with ⟨t2, hins, hu2, h2, hi2, hb2⟩ | ⟨f, hf, hr, o, ins, v, rest, e, hl, hA, hm⟩
    · rw [hu2, andThen_next]
      have hlen2 : t2.block.len = r.doPayload.length := by rw [h2.inFrame.len, hlenP]
      rw [hlen2]
      have hb : t2.block.buf = r.buf := by rw [hb2, hk1.buf, hbuf0]
      rcases payloadLoop_cases (hdr := r.opc :: r.doAddr) (hins := hins) r.doPayload.length (setPhase .payload t2) [] []
        r.doPayload rfl rfl rfl (by simpa using h2.setPhase .payload)
        (by rw [setPhase_block_idx, hi2, hk1.idx, hidx0]; rfl)
        (by rw [setPhase_block_buf, hb]; cases hr : r.dir <;> simp [bufferAfter, hr])
        with ⟨u, got, hu, h3, hg, hbuf, hi⟩ | ⟨f, hf, hm⟩
      · refine .inl ⟨u, hins, got, by rw [hu]; rfl, h3, ?_, hg, hbuf, hi⟩
        have := h2.inFrame.lengths
        rw [this]; simp; omega
      · exact .inr ⟨f, by rw [hf]; rfl, hm⟩
    · refine .inr ⟨f, by rw [hf]; rfl, hr, o, ins, v, rest ++ r.doPayload, ?_, hl, hA, hm⟩
      simp only [Request.doBytes]
      rw [← List.cons_append, e]; simp
  · exact .inr ⟨f, by rw [hf]; rfl, hm _⟩

end Sys2Proof.Machine
end

