-- ==== Sys2Proof/Laws/Frames.lean ====
section
/-! SUPPORT. What a whole frame does: with the reference device, the end of its command or a fault inside the frame; with
the oracle, nothing but the bytes on the wire; and what the device's end of a command can change. -/

namespace Sys2Proof.Machine

open Sys2Proof

/-! ### The end of a frame -/

/-- What the block and everything beside the device are at the end of a frame (R170, R183), whatever the device did. -/
theorem Sending.ran {s t u : State} {r : Request} {hins got : List Byte} (h : Sending s r r.doBytes (hins ++ got) t)
    (hh : hins.length = 1 + r.doAddr.length) (hg : got.length = r.doPayload.length)
    (hbuf : t.block.buf = bufferAfter r got) (hidx : t.block.idx = r.doPayload.length)
    (hb : u.block = (driveCsn true t).block) (hp : u.params = t.params) (hs : u.session = t.session)
    (hpe : u.pending = t.pending) (ho : u.outside = t.outside) (hgu : u.guest = t.guest)
    (htr : u.trace = (driveCsn true t).trace) :
    TransactionRan r (hins ++ got) s { Machine.setPhase .idle u with ret := transactionRet u.block } := by
  have hlenP : r.doPayload.length = r.buf.length := by
    cases hr : r.dir <;> simp [Request.doPayload, hr]
  have hfill : bufferAfter r got = filled r (hins ++ got) := by
    cases hr : r.dir
    · simp only [bufferAfter, filled, hr, ← hh, List.drop_left]
      rw [List.drop_eq_nil_of_le (by omega)]; simp
    · simp [bufferAfter, filled, hr]
  have i := h.inFrame
  have hub : u.block.buf = filled r (hins ++ got) := by rw [hb, ← hfill, ← hbuf]; rfl
  refine ⟨⟨⟨hp.trans i.params, hs.trans i.session, hpe.trans i.pending, ho.trans i.outside, hgu.trans i.guest,
      ?_⟩,
    ⟨rfl, ?_, ?_, ?_⟩, ?_, ?_, ?_, ?_, ?_, ?_, ?_, ?_, ?_⟩, ?_⟩
  · simp only [setPhase_block_inited, hb]; exact i.inited
  · simp only [setPhase_block_xact, hb]; exact i.xact
  · simp only [setPhase_block_csn, hb]; rfl
  · simp only [setPhase_block_sck, hb]; exact i.sck
  · simp only [wire, setPhase_trace, htr, driveCsn, emit_trace, i.trace, frameEvents]
    simp
  · rw [← i.lengths]
  · simp only [setPhase_block_opc, hb]; exact i.opc
  · simp only [setPhase_block_ap, hb]; exact i.ap
  · intro a ha; simp only [setPhase_block_addr, hb]; exact i.addr.trans (by rw [ha]; rfl)
  · simp only [setPhase_block_dir, hb]; exact i.dir
  · simp only [setPhase_block_len, hb]; exact i.len
  · simp only [setPhase_block_idx, hb]; exact hidx.trans hlenP
  · exact hub
  · have hd : u.block.dir = r.dir := by rw [hb]; exact i.dir
    show transactionRet u.block = _
    cases hr : r.dir <;> simp [transactionRet, givenBack, hd, hub, hr]

/-- A frame opcode that is not READ's never makes the device fault inside the frame. -/
theorem not_midStop_of_opc {s : State} {bs : List Byte} {f : Fault} (h : bs.head? ≠ some Config.opcRead) :
    ¬ MidStop s bs f := by
  rintro ⟨_, outs, ins, v, rest, rfl, _, _, hm⟩
  have h1 : answerAfter outs ≠ .array := fun ha => by
    obtain ⟨l, rfl, _⟩ := (answerAfter_array_iff outs).1 ha
    simp at h
  have h2 : readHeader (outs ++ [v]) = none := by
    cases hr : readHeader (outs ++ [v]) with
    | none => rfl
    | some a =>
      obtain ⟨l, e, _, _⟩ := (readHeader_some_iff _ _).1 hr
      rcases outs with _ | ⟨o, outs⟩
      · rw [List.nil_append, List.cons.injEq] at e; rw [e.1] at h; simp at h
      · rw [List.cons_append, List.cons.injEq] at e; rw [e.1] at h; simp at h
  cases hm with
  | pastEnd ha => exact h1 ha
  | busy a _ hh => rw [h2] at hh; cases hh
  | range a _ hh => rw [h2] at hh; cases hh

/-- The frame of a READ: its opcode, the address bytes, the dummies (R110). -/
theorem encode_read (a : Addr) (n : Nat) :
    encode (.read a n) = Config.opcRead :: (addrBytesOf a ++ List.replicate n Config.dummyByte) := by
  simp [encode, encodeFrame, Request.doBytes, Request.doAddr, Request.doPayload, places]

/-- Why the device faults inside a READ frame: busy, then the address, then the first byte past the end. -/
theorem midStop_read {s : State} {a : Addr} {n : Nat} {f : Fault} (h : MidStop s (encode (.read a n)) f) :
    (isBusy s = true ∧ f = .busyViolation Config.opcRead)
    ∨ (isBusy s = false ∧ s.params.capacity ≤ a.toNat ∧ f = .addrRange a.toNat)
    ∨ (isBusy s = false ∧ a.toNat < s.params.capacity ∧ s.params.capacity < a.toNat + n
      ∧ f = .addrRange s.params.capacity) := by
  obtain ⟨_, outs, ins, v, rest, e, hl, hA, hm⟩ := h
  rw [encode_read] at e
  have hlenA := addrBytesOf_length a
  have hhead : ∀ b, readHeader (outs ++ [v]) = some b → b = a := by
    intro b hh
    obtain ⟨l, e1, hl1, rfl⟩ := (readHeader_some_iff _ _).1 hh
    have e2 : Config.opcRead :: (addrBytesOf a ++ List.replicate n Config.dummyByte)
        = Config.opcRead :: (l ++ rest) := by
      rw [e, ← List.cons_append, ← e1]; simp
    rw [List.cons.injEq] at e2
    rw [← (List.append_inj e2.2 (hlenA.trans hl1.symm)).1, joinAddr_addrBytesOf]
  cases hm with
  | busy b _ hh hb => exact .inl ⟨hb, rfl⟩
  | range b _ hh hb hc =>
    rw [hhead b hh] at hc ⊢
    exact .inr (.inl ⟨hb, hc, rfl⟩)
  | pastEnd ha hc =>
    obtain ⟨l0, rfl, hl0⟩ := (answerAfter_array_iff outs).1 ha
    rw [List.cons_append, List.cons.injEq] at e
    obtain ⟨l, rfl⟩ : ∃ l, l0 = addrBytesOf a ++ l := by
      refine ⟨l0.drop Config.addrBytes, ?_⟩
      have := congrArg (List.take Config.addrBytes) e.2
      rw [List.take_left' hlenA, List.take_append_of_le_length hl0] at this
      rw [this, List.take_append_drop]
    have e3 := e.2
    rw [List.append_assoc] at e3
    have e4 := (List.append_inj e3 rfl).2
    have hlen : l.length < n := by
      have := congrArg List.length e4
      rw [List.length_replicate, List.length_append, List.length_cons] at this; omega
    have htake : ∀ k, (Config.opcRead :: (addrBytesOf a ++ l)).take (1 + Config.addrBytes + k)
        = Config.opcRead :: (addrBytesOf a ++ l.take k) := by
      intro k
      rw [show 1 + Config.addrBytes + k = (Config.addrBytes + k) + 1 by omega, List.take_succ_cons, ← hlenA,
        List.take_length_add_append]
    have hh := hA.header Config.addrBytes a (by simp [hlenA]) ((readHeader_some_iff _ _).2
      ⟨addrBytesOf a, by have := htake 0; rw [List.take_zero, List.append_nil] at this; rw [← this]; congr 1, hlenA,
        joinAddr_addrBytesOf a⟩)
    rw [rdptrAfter_read] at hc
    have hcap : a.toNat + l.length = s.params.capacity := by
      rcases hk : l.length with _ | k
      · omega
      · have hi : 1 + Config.addrBytes + k < ins.length := by
          rw [hl, List.length_cons, List.length_append, hlenA]; omega
        have hb := (hA.array (1 + Config.addrBytes + k) ins[1 + Config.addrBytes + k] (List.getElem?_eq_getElem hi)
          (by rw [htake]; exact (answerAfter_array_iff _).2 ⟨_, rfl, by rw [List.length_append, hlenA]; omega⟩)).1
        rw [htake, rdptrAfter_read, List.length_take] at hb
        omega
    rw [rdptrAfter_read, hcap]
    exact .inr (.inr ⟨hh.1, hh.2, by omega, rfl⟩)

/-- A frame with the reference device that meets no fault inside: the device's end of the command, then the block's. -/
theorem transaction_reference {r : Request} {i : Instr} {s : State} (hg : transactionGate s = none)
    (hr : s.params.device = .reference) (hd : decodeFrame r.doBytes = .command i) :
    (∃ t hins got, transaction r s = andThen (endCommand i (driveCsn true t)) (fun u =>
        .next { setPhase .idle u with ret := transactionRet u.block })
      ∧ Sending s r r.doBytes (hins ++ got) t ∧ hins.length = 1 + r.doAddr.length
      ∧ got.length = r.doPayload.length ∧ t.block.buf = bufferAfter r got ∧ t.block.idx = r.doPayload.length)
    ∨ ∃ f, transaction r s = .fault f ∧ MidStop s r.doBytes f := by
  rcases transaction_cases r hg with ⟨t, hins, got, ht, hs, h1, h2, h3, h4⟩ | h
  · refine .inl ⟨t, hins, got, ?_, hs, h1, h2, h3, h4⟩
    rw [ht, endFrame, setCsn, if_neg (by rw [hs.inFrame.csn]; decide)]
    have hp : (driveCsn true t).params.device = .reference := by
      have : (driveCsn true t).params = t.params := rfl
      rw [this, hs.inFrame.params, hr]
    have hdev := (hs.inFrame.dev_reference hr).frame
    have hrb : (driveCsn true t).dev.rxBits = 0 := by
      show t.dev.rxBits = 0
      rw [hdev]
    have hrx : (driveCsn true t).dev.rxBytes = r.doBytes := by
      show t.dev.rxBytes = _
      rw [hdev]
    have hdp : decodePulses (pulsesSeen (driveCsn true t).dev) (driveCsn true t).dev.rxBytes = .command i := by
      rw [decodePulses, pulsesSeen, hrb, hrx, if_pos (by simp), hd]
    unfold csnEdge
    simp only [hp, if_true, onDeselect, hdp]
  · exact .inr h

/-- A frame with the oracle: every byte of it goes out, the bytes that come in are the next ones of the script while it
lasts, and nothing else happens (R3, R170; log 8). -/
theorem transaction_oracle (r : Request) {s : State} (hg : transactionGate s = none)
    (ho : s.params.device = .oracle) :
    ∃ t ins, transaction r s = .next t ∧ TransactionRan r ins s t ∧ t.dev = s.dev
      ∧ (8 * ins.length ≤ s.script.length → ins.flatMap bitsOf = s.script.take (8 * ins.length)) := by
  rcases transaction_cases r hg with ⟨t, hins, got, ht, hs, h1, h2, h3, h4⟩ | ⟨f, _, h, _⟩
  · refine ⟨{ setPhase .idle (driveCsn true t) with ret := transactionRet (driveCsn true t).block }, hins ++ got, ?_,
      hs.ran h1 h2 h3 h4 rfl rfl rfl rfl rfl rfl rfl, hs.inFrame.dev_oracle ho,
      fun hl => (hs.inFrame.script_oracle ho hl).2⟩
    rw [ht, endFrame, setCsn, if_neg (by rw [hs.inFrame.csn]; decide)]
    have hp : (driveCsn true t).params.device = .oracle := by
      have : (driveCsn true t).params = t.params := rfl
      rw [this, hs.inFrame.params, ho]
    unfold csnEdge
    simp only [hp, andThen_next]
  · rw [ho] at h; cases h

/-! ### A frame by mnemonic -/

/-- Every command is the transaction of its encoding, and what it returns (R175 to R182). -/
theorem exec_transaction (i : Instr) (s : State) : exec i s = andThen (transaction (encodeFrame i) s) fun t =>
    .next (if i = .rdsr then returnByte t else t) := by
  cases i <;> first
    | rfl
    | simp only [reduceCtorEq, if_false]; exact (andThen_right _).symm

/-- What has come in during the frame of a command, by the buffer and by `ExtractPayload` (R116). -/
theorem filled_encodeFrame (i : Instr) {ins : List Byte} : ins.length = (encodeFrame i).doBytes.length →
    filled (encodeFrame i) ins = (match i with
      | .program _ v => [v]
      | .wrsr v => [v]
      | i => extractPayload i ins) := by
  intro h
  cases i with
  | read a n =>
    have hl : ins.length = 1 + Config.addrBytes + n := by
      rw [h, show (encodeFrame (.read a n)).doBytes = _ from encode_read a n]; simp; omega
    simp only [filled, extractPayload, encodeFrame, Request.doAddr, addrBytesOf_length]
    rw [List.take_of_length_le (by rw [List.length_drop]; omega)]
  | rdsr =>
    have hl : ins.length = 2 := h
    simp only [filled, extractPayload, encodeFrame, Request.doAddr, List.length_nil, Nat.add_zero]
    rw [List.take_of_length_le (by rw [List.length_drop]; omega)]
  | _ => rfl

/-- A command that has run, from its transaction. -/
theorem TransactionRan.command {i : Instr} {ins : List Byte} {s t : State} (h : TransactionRan (encodeFrame i) ins s t) :
    CommandRan i ins s (if i = .rdsr then returnByte t else t) := by
  have hf := filled_encodeFrame i h.lengths
  cases i with
  | rdsr =>
    refine ⟨⟨⟨h.kept.params, h.kept.session, h.kept.pending, h.kept.outside, h.kept.guest, h.kept.inited⟩, h.idle,
      h.trace, h.lengths, h.opc, h.ap, h.addr, h.dir, h.len, h.idx, h.buf⟩, ?_⟩
    simp only [if_true, returnByte, firstOfBuf, h.buf, hf, commandRet, List.headD_eq_head?_getD]
  | read a n =>
    refine ⟨by simpa using h.toFrameRan, ?_⟩
    simp only [reduceCtorEq, if_false, h.ret, givenBack, commandRet, encodeFrame, hf.symm]
  | _ => exact ⟨by simpa using h.toFrameRan, h.ret⟩

/-! ### The device at the end of a command -/

/-- Starting an operation changes BUSY, the operation in flight and the model's own counters, nothing else. -/
theorem startFlight_eq (op : FlightOp) (s : State) : startFlight op s = { s with
    dev := { s.dev with status := setMask (busyMask s.params) s.dev.status, inflight := some ⟨op, drawnDelay s⟩ }
    delays := (startFlight op s).delays, draws := (startFlight op s).draws } := by
  simp only [startFlight, afterDelay]
  cases s.delays <;> rfl

/-- What the device's end of a command can change: STATUS, EWSR_ARMED, the operation in flight, and the model's own
counters (R64, R83). -/
theorem endCommand_next {i : Instr} {s u : State} (h : endCommand i s = .next u) : u = { s with
    dev := { s.dev with status := u.dev.status, armed := u.dev.armed, inflight := u.dev.inflight }
    delays := u.delays, draws := u.draws } := by
  have hacc : ∀ opc a op, acceptWrite opc a op s = .next u → u = { s with
      dev := { s.dev with status := u.dev.status, armed := u.dev.armed, inflight := u.dev.inflight }
      delays := u.delays, draws := u.draws } := fun opc a op h => by
    unfold acceptWrite at h
    split at h
    · cases h
    · cases h
      rw [startFlight_eq]; rfl
  cases i with
  | read _ _ => cases h; rfl
  | rdsr => cases h; rfl
  | program a v => exact hacc _ _ _ h
  | se a => exact hacc _ _ _ h
  | ce => exact hacc _ _ _ h
  | wren =>
    simp only [endCommand, endWren] at h
    split at h <;> cases h
    rfl
  | ewsr =>
    simp only [endCommand, endEwsr] at h
    split at h <;> cases h
    rfl
  | wrsr v =>
    simp only [endCommand, endWrsr] at h
    split at h
    · cases h
    · split at h
      · cases h
      · cases h
        unfold wrsrFlight
        split
        · rw [startFlight_eq]; rfl
        · rfl

/-- A program or erase is accepted exactly when no test of R254 fails. -/
theorem writeGate_none {opc : Byte} {a : Option Nat} {s : State} (hb : isBusy s = false) (hw : isWel s = true)
    (hp : isProt s = false) (ha : ∀ x, a = some x → x < s.params.capacity) : writeGate opc a s = none := by
  simp only [writeGate, hb, hw, hp]
  cases a with
  | none => rfl
  | some x =>
    have := ha x rfl
    simp only [Bool.not_true, Bool.false_eq_true, if_false]
    rw [if_neg (by omega)]

end Sys2Proof.Machine
end

