-- ==== Sys2Proof/Laws/Device.lean ====
section
/-! SUPPORT. The status flags bit by bit (spec/10_state.md R29; spec/20_memory.md R69 to R71, R84) and the device's
finishing step (R70). -/

namespace Sys2Proof.Machine

open Sys2Proof

/-! ### Flags, bit by bit -/

theorem bitMask_getLsbD (k : Fin 8) (i : Nat) : (bitMask k).getLsbD i = decide (i = k.val) := by
  unfold bitMask
  by_cases hi : i < 8
  · have h : ∀ (k : Fin 8) (i : Fin 8), (1#8 <<< k.val).getLsbD i.val = decide (i.val = k.val) := by decide
    exact h k ⟨i, hi⟩
  · rw [BitVec.getLsbD_of_ge _ _ (by omega)]
    have : ¬ i = k.val := by omega
    simp [this]

/-- Setting one bit leaves the others. -/
theorem setMask_bit (k : Fin 8) (st : Byte) (i : Nat) :
    (setMask (bitMask k) st).getLsbD i = (st.getLsbD i || decide (i = k.val)) := by
  simp [setMask, bitMask_getLsbD]

/-- Clearing one bit leaves the others. -/
theorem clearMask_bit (k : Fin 8) (st : Byte) (i : Nat) :
    (clearMask (bitMask k) st).getLsbD i = (st.getLsbD i && !decide (i = k.val)) := by
  unfold clearMask
  rw [BitVec.getLsbD_and, BitVec.getLsbD_not, bitMask_getLsbD]
  by_cases hi : i < 8
  · simp [hi]
  · rw [BitVec.getLsbD_of_ge st i (by omega)]; simp

/-- WRSR leaves every bit that is no protection bit (R84). -/
theorem writeProtection_bit {p : Params} (st v : Byte) (k : Fin 8) (h : p.bpMask.getLsbD k.val = false) :
    (writeProtection p st v).getLsbD k.val = st.getLsbD k.val := by
  simp only [writeProtection, BitVec.getLsbD_or, BitVec.getLsbD_and, BitVec.getLsbD_not, h]
  simp

/-- BUSY, WEL and the protection bits are apart (R11). -/
theorem Params.wf_bits {p : Params} (h : p.wf = true) :
    p.busyBit ≠ p.welBit ∧ p.bpMask.getLsbD p.busyBit.val = false ∧ p.bpMask.getLsbD p.welBit.val = false := by
  simp [Params.wf] at h
  simp [h.1.1.1.1.1.1, h.1.1.1.1.1.2, h.1.1.1.1.2]

/-! ### The finishing step (R70) -/

/-- BUSY is 0 after every operation (R70). -/
theorem finishedStatus_busy (op : FlightOp) (s : State) : busyIn s.params (finishedStatus op s) = false := by
  cases op <;> (simp only [busyIn, finishedStatus, busyMask, welMask, clearMask_bit]; simp)

/-- WEL is 0 after a program or erase, and the bits that are neither BUSY nor WEL are as before (R70). -/
theorem finishedStatus_rest {op : FlightOp} (h : op ≠ .writeStatus) (s : State) :
    welIn s.params (finishedStatus op s) = false
    ∧ ∀ k, k ≠ s.params.busyBit.val → k ≠ s.params.welBit.val →
      (finishedStatus op s).getLsbD k = s.dev.status.getLsbD k := by
  have e : finishedStatus op s = clearMask (welMask s.params) (clearMask (busyMask s.params) s.dev.status) := by
    cases op <;> first | rfl | contradiction
  rw [e]
  refine ⟨?_, fun k h1 h2 => ?_⟩
  · simp only [welIn, busyMask, welMask, clearMask_bit]; simp
  · simp [busyMask, welMask, clearMask_bit, h1, h2]

/-- No operation touches RDPTR, EWSR_ARMED or the decoding position. -/
theorem flightEffect_frame (op : FlightOp) (s : State) : flightEffect op s = { s.dev with
    mem := (flightEffect op s).mem, lost := (flightEffect op s).lost } := by
  cases op with
  | program a v => simp only [flightEffect, programEffect]; split <;> rfl
  | sectorErase a => rfl
  | chipErase => rfl
  | writeStatus => rfl

/-- Which addresses lie in the sector of `a` (R61). -/
theorem sectorIndex_eq_iff (a x : Nat) :
    sectorIndex x = sectorIndex a ↔ a - a % 4096 ≤ x ∧ x < a - a % 4096 + 4096 := by
  unfold sectorIndex Config.sectorSize; omega

end Sys2Proof.Machine
end

