-- ==== Sys2Proof/Laws/Step.lean ====
section
/-! SUPPORT. Whose turn it is in one step (spec/00_scope.md R8; log 2, log 9), and runs of steps. -/

namespace Sys2Proof.Machine

open Sys2Proof

/-! ### The tick -/

/-- The tick touches the operation in flight, nothing else. -/
theorem tick_frame (s : State) : tick s = { s with dev := { s.dev with inflight := (tick s).dev.inflight } } := by
  unfold tick; cases s.dev.inflight <;> rfl

@[simp] theorem tick_params (s : State) : (tick s).params = s.params := by rw [tick_frame]
@[simp] theorem tick_block (s : State) : (tick s).block = s.block := by rw [tick_frame]
@[simp] theorem tick_session (s : State) : (tick s).session = s.session := by rw [tick_frame]
@[simp] theorem tick_pending (s : State) : (tick s).pending = s.pending := by rw [tick_frame]
@[simp] theorem tick_outside (s : State) : (tick s).outside = s.outside := by rw [tick_frame]
@[simp] theorem tick_guest (s : State) : (tick s).guest = s.guest := by rw [tick_frame]
@[simp] theorem tick_ret (s : State) : (tick s).ret = s.ret := by rw [tick_frame]
@[simp] theorem tick_trace (s : State) : (tick s).trace = s.trace := by rw [tick_frame]
@[simp] theorem tick_dev_mem (s : State) : (tick s).dev.mem = s.dev.mem := by rw [tick_frame]
@[simp] theorem tick_dev_lost (s : State) : (tick s).dev.lost = s.dev.lost := by rw [tick_frame]
@[simp] theorem tick_dev_status (s : State) : (tick s).dev.status = s.dev.status := by rw [tick_frame]
@[simp] theorem tick_dev_armed (s : State) : (tick s).dev.armed = s.dev.armed := by rw [tick_frame]
@[simp] theorem tick_dev_rxBits (s : State) : (tick s).dev.rxBits = s.dev.rxBits := by rw [tick_frame]

/-- With nothing in flight the tick is nothing. -/
theorem tick_of_none {s : State} (h : s.dev.inflight = none) : tick s = s := by unfold tick; rw [h]

/-- The operation in flight comes one step nearer. -/
theorem tick_of_some {s : State} {op : FlightOp} {n : Nat} (h : s.dev.inflight = some ⟨op, n⟩) :
    (tick s).dev.inflight = some ⟨op, n - 1⟩ := by unfold tick; rw [h]

/-! ### One step -/

theorem step_quiet {s : State} (h : s.outside = []) : step s = insideStep s := by
  unfold step takeTurn; rw [h]

/-- An operation that is due: the step is the device's (R70). -/
theorem step_due {s : State} {op : FlightOp} (ho : s.outside = []) (hf : s.dev.inflight = some ⟨op, 0⟩) :
    step s = .next (finishFlight ⟨op, 0⟩ s) := by
  rw [step_quiet ho, insideStep, flightDue, hf]; rfl

@[simp] theorem tick_linesInUse (s : State) : linesInUse (tick s) = linesInUse s := by
  unfold linesInUse; rw [tick_block]

@[simp] theorem tick_guestHolds (s : State) : guestHolds (tick s) = guestHolds s := by
  unfold guestHolds; rw [tick_guest, tick_linesInUse]

/-- On an idle bus no exchange or frame is driven by hand (R37; log 14). -/
theorem linesInUse_of_idle {s : State} (h : BusIdle s) : linesInUse s = false := by
  simp [linesInUse, h.2.2.1, h.2.2.2]

theorem guestHolds_of_idle {s : State} (h : BusIdle s) : guestHolds s = false := by
  rw [guestHolds, linesInUse_of_idle h, Bool.and_false]

/-- An operation is in progress exactly when the block has something in progress, a driver operation has begun, or the
lines are not idle after `Init` (R12, R264(6); log 14). -/
theorem operationInProgress_iff (s : State) : operationInProgress s = true ↔
    blockBusy s = true ∨ driverBusy s = true ∨ (s.block.inited = true ∧ (s.block.sck = true ∨ s.block.csn = false)) := by
  simp [operationInProgress, linesInUse, or_assoc]

/-- Nothing due, nothing in progress in the block: the caller moves, and its own act is refused while the second caller's
exchange or frame is on the lines (R288; log 19). -/
theorem step_caller_cases {s : State} {a : Act} {rest : List Act} (ho : s.outside = []) (hf : flightDue s = none)
    (hb : blockBusy s = false) (hp : s.pending = a :: rest) :
    step s = if guestHolds s && !isDriverRest a then .refused .secondCaller
      else perform a { tick s with pending := rest } := by
  have hb' : blockBusy (tick s) = false := by unfold blockBusy; rw [tick_block]; exact hb
  rw [step_quiet ho, insideStep, hf]
  simp only [blockStep, hb', Bool.false_eq_true, if_false, callerStep, tick_pending, hp, tick_guestHolds]

/-- The step is the caller's next act, where the second caller does not hold the lines. -/
theorem step_caller {s : State} {a : Act} {rest : List Act} (ho : s.outside = []) (hf : flightDue s = none)
    (hb : blockBusy s = false) (hg : guestHolds s = false) (hp : s.pending = a :: rest) :
    step s = perform a { tick s with pending := rest } := by
  rw [step_caller_cases ho hf hb hp, hg]; rfl

/-- The second caller's operation as the next input: refused, or taken up at once (R288; log 19). -/
theorem step_secondCaller {s : State} {a : Act} {rest : List Outside} (ho : s.outside = .secondCaller a :: rest) :
    step s = secondCallerStep a { s with outside := rest } := by
  unfold step takeTurn; rw [ho]

/-- Nothing due, something in progress in the block: the step is its next micro-step (R172). -/
theorem step_block {s : State} (ho : s.outside = []) (hf : flightDue s = none) (hb : blockBusy s = true) :
    step s = resume (tick s) := by
  have hb' : blockBusy (tick s) = true := by unfold blockBusy; rw [tick_block]; exact hb
  rw [step_quiet ho, insideStep, hf]
  simp only [blockStep, hb', if_true]

/-- After `Init` an act is performed. -/
theorem perform_of_inited {a : Act} {s : State} (h : s.block.inited = true) : perform a s = performInited a s := by
  simp [perform, h]

/-! ### Runs -/

theorem run_succ (n : Nat) (s : State) : run (n + 1) s = andThen (step s) (run n) := rfl

theorem run_add (a b : Nat) : ∀ s, run (a + b) s = andThen (run a s) (run b) := by
  induction a with
  | zero => intro s; rw [Nat.zero_add]; rfl
  | succ a ih =>
    intro s
    rw [show a + 1 + b = (a + b) + 1 by omega, run_succ, run_succ]
    cases step s with
    | next t => exact ih t
    | fault f => rfl
    | refused f => rfl

end Sys2Proof.Machine
end

