-- ==== Sys2Proof/Laws/Wire.lean ====
section
/-! SUPPORT. What the line operations, a bit cell and a byte exchange can change in ANY state, aligned with the device's
bytes or not; and what each of them leaves alone. -/

namespace Sys2Proof.Machine

open Sys2Proof

/-- What no activity on the lines changes but the end of a frame: the parameters, the session, the caller's side, the
array, STATUS, the latches and the operation in flight (R64, R83). -/
structure WireKept (s t : State) : Prop where
  params : t.params = s.params
  session : t.session = s.session
  pending : t.pending = s.pending
  ret : t.ret = s.ret
  outside : t.outside = s.outside
  guest : t.guest = s.guest
  delays : t.delays = s.delays
  mem : t.dev.mem = s.dev.mem
  lost : t.dev.lost = s.dev.lost
  status : t.dev.status = s.dev.status
  armed : t.dev.armed = s.dev.armed
  inflight : t.dev.inflight = s.dev.inflight
  rxBits : s.dev.rxBits < 8 → t.dev.rxBits < 8

theorem WireKept.refl (s : State) : WireKept s s := ⟨rfl, rfl, rfl, rfl, rfl, rfl, rfl, rfl, rfl, rfl, rfl, rfl, id⟩

theorem WireKept.trans {s t u : State} (h : WireKept s t) (k : WireKept t u) : WireKept s u where
  params := k.params.trans h.params
  session := k.session.trans h.session
  pending := k.pending.trans h.pending
  ret := k.ret.trans h.ret
  outside := k.outside.trans h.outside
  guest := k.guest.trans h.guest
  delays := k.delays.trans h.delays
  mem := k.mem.trans h.mem
  lost := k.lost.trans h.lost
  status := k.status.trans h.status
  armed := k.armed.trans h.armed
  inflight := k.inflight.trans h.inflight
  rxBits hb := k.rxBits (h.rxBits hb)

/-- The block and the trace are no part of it. -/
theorem WireKept.wire (s : State) (b : Block) (tr : List LineEvent) : WireKept s { s with block := b, trace := tr } :=
  ⟨rfl, rfl, rfl, rfl, rfl, rfl, rfl, rfl, rfl, rfl, rfl, rfl, id⟩

theorem WireKept.drew (s : State) (sc : List Bool) (n : Nat) : WireKept s { s with script := sc, draws := n } :=
  ⟨rfl, rfl, rfl, rfl, rfl, rfl, rfl, rfl, rfl, rfl, rfl, rfl, id⟩

/-- The decoding position is no part of it, but for its bound. -/
theorem WireKept.position (s : State) (rx : List Byte) (sh : Byte) (n : Nat) (tx : Byte) (di : Level) (k : Nat)
    (h : s.dev.rxBits < 8 → n < 8) : WireKept s { s with dev := { s.dev with
      rxBytes := rx, rxShift := sh, rxBits := n, txByte := tx, di := di, rdptr := k } } :=
  ⟨rfl, rfl, rfl, rfl, rfl, rfl, rfl, rfl, rfl, rfl, rfl, rfl, h⟩

theorem afterDraw_kept (s : State) : WireKept s (afterDraw s) := by
  unfold afterDraw
  split
  · exact .drew s _ _
  · exact .drew s _ _

theorem presentNext_kept (s : State) : WireKept s (presentNext s) := by
  have h := presentNext_dev s
  exact ⟨presentNext_params s, presentNext_session s, presentNext_pending s, presentNext_ret s, presentNext_outside s,
    presentNext_guest s,
    presentNext_delays s, by rw [h], by rw [h], by rw [h], by rw [h], by rw [h], by rw [h]; exact id⟩

/-- What the device does at a falling edge of CSN: it looks at neither the block nor the trace. -/
theorem onSelect_kept (s : State) :
    WireKept s (onSelect s) ∧ (onSelect s).block = s.block ∧ (onSelect s).trace = s.trace
    ∧ (onSelect s).dev.rxBits = 0 := by
  have k : WireKept s { s with dev := { s.dev with rxBytes := [], rxShift := 0, rxBits := 0 } } :=
    ⟨rfl, rfl, rfl, rfl, rfl, rfl, rfl, rfl, rfl, rfl, rfl, rfl, fun _ => (by decide : 0 < 8)⟩
  refine ⟨k.trans (presentNext_kept _), presentNext_block _, presentNext_trace _, ?_⟩
  unfold onSelect; rw [presentNext_dev]

theorem onFall_kept (s : State) :
    WireKept s (onFall s) ∧ (onFall s).block = s.block ∧ (onFall s).trace = s.trace := by
  unfold onFall
  split
  · exact ⟨presentNext_kept s, presentNext_block s, presentNext_trace s⟩
  · exact ⟨⟨rfl, rfl, rfl, rfl, rfl, rfl, rfl, rfl, rfl, rfl, rfl, rfl, id⟩, rfl, rfl⟩

/-- The first rising edge of a byte changes at most the byte presented. -/
theorem onFirstRise_next {s t : State} (h : onFirstRise s = .next t) :
    ∃ v, t = { s with dev := { s.dev with txByte := v } } := by
  unfold onFirstRise at h
  split at h
  · cases h; exact ⟨s.dev.txByte, rfl⟩
  · cases h; unfold sampleStatus; split
    · exact ⟨_, rfl⟩
    · exact ⟨s.dev.txByte, rfl⟩
  · split at h
    · cases h
    · cases h; exact ⟨s.dev.txByte, rfl⟩

theorem onRise_kept {s t : State} (h : onRise s = .next t) :
    WireKept s t ∧ t.block = s.block ∧ t.trace = s.trace := by
  unfold onRise at h
  split at h
  · rename_i h0
    obtain ⟨u, hu, h⟩ := andThen_eq_next.1 h
    obtain ⟨v, rfl⟩ := onFirstRise_next hu
    cases h
    refine ⟨⟨rfl, rfl, rfl, rfl, rfl, rfl, rfl, rfl, rfl, rfl, rfl, rfl, fun _ => ?_⟩, rfl, rfl⟩
    show s.dev.rxBits + 1 < 8
    omega
  · split at h
    · rcases onByte_cases (answerAfter s.dev.rxBytes) (wholeByte s.block.dout s) with ⟨f, hf⟩ | ⟨k, hk⟩
      · rw [hf] at h; cases h
      · rw [hk] at h; cases h
        exact ⟨⟨rfl, rfl, rfl, rfl, rfl, rfl, rfl, rfl, rfl, rfl, rfl, rfl, fun _ => (by decide : 0 < 8)⟩, rfl, rfl⟩
    · rename_i h8
      cases h
      refine ⟨⟨rfl, rfl, rfl, rfl, rfl, rfl, rfl, rfl, rfl, rfl, rfl, rfl, fun hb => ?_⟩, rfl, rfl⟩
      simp only [Config.byteBits] at h8
      show s.dev.rxBits + 1 < 8
      omega

theorem riseWith_kept {d : Level} {s t : State} (h : riseWith d s = .next t) :
    WireKept s t ∧ t.block = { s.block with sck := true } ∧ t.trace = .rise d :: s.trace := by
  unfold riseWith at h
  have hw : WireKept s (clockHigh d s) := .wire s _ _
  split at h
  · obtain ⟨h1, h2, h3⟩ := onRise_kept h
    exact ⟨hw.trans h1, h2, h3⟩
  · cases h
    exact ⟨hw, rfl, rfl⟩

theorem fallEdge_kept (s : State) :
    WireKept s (fallEdge s) ∧ (fallEdge s).block = { s.block with sck := false }
    ∧ (fallEdge s).trace = .fall :: s.trace := by
  unfold fallEdge
  have hw : WireKept s (clockLow s) := .wire s _ _
  split
  · obtain ⟨h1, h2, h3⟩ := onFall_kept (clockLow s)
    exact ⟨hw.trans h1, h2, h3⟩
  · exact ⟨hw, rfl, rfl⟩

theorem afterSample_kept (s : State) :
    WireKept s (afterSample s) ∧ (afterSample s).block = s.block ∧ (afterSample s).trace = s.trace := by
  unfold afterSample
  split
  · exact ⟨.refl s, rfl, rfl⟩
  · exact ⟨afterDraw_kept s, afterDraw_block s, afterDraw_trace s⟩

/-- A bit cell, in any state in which it does not fault. -/
theorem bitCell_kept {s t : State} (h : bitCell s = .next t) :
    WireKept s t ∧ ∃ d, t.block = cellBlock d s.block ∧ t.trace = cellTrace d s := by
  unfold bitCell at h
  obtain ⟨u, hu, h⟩ := andThen_eq_next.1 h
  cases h
  generalize sampledDi s = d at hu ⊢
  obtain ⟨k1, b1, t1⟩ := afterSample_kept (setDo s.block.sr.b7 s)
  obtain ⟨k2, b2, t2⟩ := riseWith_kept hu
  obtain ⟨k3, b3, t3⟩ := fallEdge_kept (shiftIn d u)
  have k0 : WireKept s (setDo s.block.sr.b7 s) := .wire s _ _
  have k4 : WireKept u (shiftIn d u) := .wire u _ _
  have k5 : WireKept (fallEdge (shiftIn d u)) (countCell (fallEdge (shiftIn d u))) := .wire _ _ _
  refine ⟨k0.trans (k1.trans (k2.trans (k4.trans (k3.trans k5)))), d, ?_, ?_⟩
  · show { (fallEdge (shiftIn d u)).block with bitcnt := (fallEdge (shiftIn d u)).block.bitcnt + 1 } = _
    rw [b3]
    show { u.block with sck := false, sr := shiftReg u.block.sr d, bitcnt := u.block.bitcnt + 1 } = _
    rw [b2, b1]; rfl
  · show (fallEdge (shiftIn d u)).trace = _
    rw [t3]
    show .fall :: u.trace = _
    rw [t2, t1]; rfl

/-! ### A step of an exchange and the whole of one, in any state -/

/-- One step of the exchange before its last cell. -/
theorem transportStep_kept {s t : State} (h7 : s.block.bitcnt < 7) (h : transportStep s = .next t) :
    WireKept s t ∧ ∃ d, t.block = cellBlock d s.block ∧ t.trace = cellTrace d s := by
  have h1 : s.block.bitcnt < Config.byteBits := by simp [Config.byteBits]; omega
  unfold transportStep at h
  cases hp : s.params.transport <;> rw [hp] at h
  · simp only [bitbangStep, if_pos h1] at h
    obtain ⟨u, hu, h⟩ := andThen_eq_next.1 h
    cases h
    obtain ⟨k, d, hb, ht⟩ := bitCell_kept hu
    have hc : closeExchange u = u := by
      rw [closeExchange, if_neg]
      rw [hb]; simp [cellBlock, Config.byteBits]; omega
    rw [hc]
    exact ⟨k, d, hb, ht⟩
  · simp only [shifterStep, if_pos h1] at h
    exact bitCell_kept h

/-- The eighth cell, and what closes the exchange. -/
theorem runExchange_last_kept {s t : State} (h7 : s.block.bitcnt = 7)
    (h : runExchange (exchangeSteps s.params - 7) s = .next t) :
    WireKept s t ∧ ∃ d, t.block = { cellBlock d s.block with
        xact := false
        done := match s.params.transport with
          | .bitbang => s.block.done
          | .peripheral => true } ∧ t.trace = cellTrace d s := by
  have h1 : s.block.bitcnt < Config.byteBits := by simp [Config.byteBits]; omega
  cases hp : s.params.transport with
  | bitbang =>
    have hn : exchangeSteps s.params - 7 = 1 := by simp [exchangeSteps, hp, Config.byteBits]
    rw [hn, runExchange] at h
    obtain ⟨u, hu, h⟩ := andThen_eq_next.1 h
    cases h
    simp only [transportStep, hp, bitbangStep, if_pos h1] at hu
    obtain ⟨v, hv, hu⟩ := andThen_eq_next.1 hu
    cases hu
    obtain ⟨k, d, hb, ht⟩ := bitCell_kept hv
    have hc : closeExchange v = { v with block := { v.block with xact := false } } := by
      rw [closeExchange, if_pos]
      rw [hb]; simp [cellBlock, h7, Config.byteBits]
    rw [hc]
    exact ⟨k.trans (.wire _ _ _), d, by simp only [hb]; rfl, ht⟩
  | peripheral =>
    have hn : exchangeSteps s.params - 7 = 2 := by simp [exchangeSteps, hp, Config.byteBits]
    rw [hn, runExchange] at h
    obtain ⟨u, hu, h⟩ := andThen_eq_next.1 h
    simp only [transportStep, hp, shifterStep, if_pos h1] at hu
    obtain ⟨k, d, hb, ht⟩ := bitCell_kept hu
    rw [runExchange] at h
    obtain ⟨v, hv, h⟩ := andThen_eq_next.1 h
    cases h
    have hp' : u.params.transport = .peripheral := by rw [k.params, hp]
    have h8 : ¬ u.block.bitcnt < Config.byteBits := by rw [hb]; simp [cellBlock, h7, Config.byteBits]
    simp only [transportStep, hp', shifterStep, if_neg h8] at hv
    cases hv
    exact ⟨k.trans (.wire _ _ _), d, by simp only [hb], ht⟩

/-- `PutByte(v)` in any state in which it does not fault (R140, R142, R143, R146). -/
theorem putByte_kept {v : Byte} {s t : State} (h : putByte v s = .next t) :
    WireKept s t ∧ ∃ w, t.block = exchangedBlock s.params v w s.block
      ∧ t.trace = (byteEvents v w).reverse ++ s.trace := by
  have hsteps : exchangeSteps s.params = 7 + (exchangeSteps s.params - 7) := by
    cases hp : s.params.transport <;> simp [exchangeSteps, hp, Config.byteBits]
  have step : ∀ (n k : Nat) (x y : State), x.block.bitcnt = k → k < 7 → runExchange (n + 1) x = .next y →
      ∃ z d, runExchange n z = .next y ∧ WireKept x z ∧ z.block = cellBlock d x.block ∧ z.trace = cellTrace d x
        ∧ z.block.bitcnt = k + 1 := fun n k x y hk hlt hxy => by
    rw [runExchange] at hxy
    obtain ⟨z, hz, hxy⟩ := andThen_eq_next.1 hxy
    obtain ⟨kk, d, hb, ht⟩ := transportStep_kept (by omega) hz
    exact ⟨z, d, hxy, kk, hb, ht, by rw [hb, ← hk]; rfl⟩
  have k0 : WireKept s (loadByte v s) := .wire s _ s.trace
  rw [putByte, hsteps] at h
  have e : ∀ m, 7 + m = m + 1 + 1 + 1 + 1 + 1 + 1 + 1 := fun m => by omega
  rw [e] at h
  obtain ⟨s1, d0, h, k1, b1, t1, c1⟩ := step _ 0 _ _ rfl (by omega) h
  obtain ⟨s2, d1, h, k2, b2, t2, c2⟩ := step _ 1 _ _ c1 (by omega) h
  obtain ⟨s3, d2, h, k3, b3, t3, c3⟩ := step _ 2 _ _ c2 (by omega) h
  obtain ⟨s4, d3, h, k4, b4, t4, c4⟩ := step _ 3 _ _ c3 (by omega) h
  obtain ⟨s5, d4, h, k5, b5, t5, c5⟩ := step _ 4 _ _ c4 (by omega) h
  obtain ⟨s6, d5, h, k6, b6, t6, c6⟩ := step _ 5 _ _ c5 (by omega) h
  obtain ⟨s7, d6, h, k7, b7, t7, c7⟩ := step _ 6 _ _ c6 (by omega) h
  have k := k0.trans (k1.trans (k2.trans (k3.trans (k4.trans (k5.trans (k6.trans k7))))))
  rw [← k.params] at h
  obtain ⟨kl, d7, bl, tl⟩ := runExchange_last_kept c7 h
  refine ⟨k.trans kl, regByte ⟨d0, d1, d2, d3, d4, d5, d6, d7⟩, ?_, ?_⟩
  · rw [exchangedBlock, loadReg_regByte, bl, b7, b6, b5, b4, b3, b2, b1, k.params]
    cases hp : s.params.transport <;>
      simp [cellBlock, loadByte, shiftReg, loadReg, hp, Config.byteBits]
  · have hb := regByte_bits ⟨d0, d1, d2, d3, d4, d5, d6, d7⟩
    rw [tl, cellTrace, t7, cellTrace, t6, cellTrace, t5, cellTrace, t4, cellTrace, t3, cellTrace, t2, cellTrace, t1,
      cellTrace, b7, b6, b5, b4, b3, b2, b1]
    simp [byteEvents, cellEvents, cellBlock, loadByte, loadReg, shiftReg, hb]

end Sys2Proof.Machine
end

