-- ==== Sys2Proof/Laws/Moves.lean ====
section
/-! SUPPORT. What a transaction and its parts may do in ANY state, whatever the device's decoding position: they move
the device as `DevMove` says and keep the block in its ranges; none of them ends in the stuck state of R263(1). -/

namespace Sys2Proof.Machine

open Sys2Proof

/-- What an operation answers: a next state with `P`, or a stop that is not the stuck state of R263(1). -/
def Res (P : State → Prop) (r : Result) : Prop :=
  (∀ t, r = .next t → P t) ∧ r ≠ .fault .stuckOnDone

theorem Res.next {P : State → Prop} {t} (h : P t) : Res P (.next t) := ⟨fun u hu => by cases hu; exact h, by simp⟩

theorem Res.fault {P : State → Prop} {f : Fault} (h : f ≠ .stuckOnDone) : Res P (.fault f) :=
  ⟨fun u hu => (by cases hu), fun hc => by cases hc; exact h rfl⟩

theorem Res.refused {P : State → Prop} {f : Refusal} : Res P (.refused f) :=
  ⟨fun u hu => (by cases hu), by simp⟩

theorem Res.bind {P Q : State → Prop} {r f} (h : Res P r) (k : ∀ t, P t → Res Q (f t)) : Res Q (andThen r f) := by
  cases r with
  | next t => exact k t (h.1 t rfl)
  | fault e => exact .fault (fun hc => h.2 (by rw [hc]))
  | refused e => exact .refused

theorem Res.mono {P Q : State → Prop} {r} (h :
    Res P r) (k : ∀ t, P t → Q t) : Res Q r := ⟨fun t ht => k t (h.1 t ht), h.2⟩

/-- What the caller's and the block's activity may do to the device: the array and the lost sectors stay, a byte being
assembled stays short of eight bits, BUSY and the operation in flight stay or start together (R64, R70). -/
structure DevMove (p : Params) (d d' : Device) : Prop where
  mem : d'.mem = d.mem
  lost : d'.lost = d.lost
  rxBits : d.rxBits < 8 → d'.rxBits < 8
  busy : p.wf = true → (busyIn p d'.status = busyIn p d.status ∧ d'.inflight = d.inflight)
    ∨ (busyIn p d'.status = true ∧ ∃ f, d'.inflight = some f ∧ flightInRange p.capacity f.op = true)

theorem DevMove.refl (p d) : DevMove p d d := ⟨rfl, rfl, id, fun _ => .inl ⟨rfl, rfl⟩⟩

theorem DevMove.trans {p a b c} (h : DevMove p a b) (k : DevMove p b c) : DevMove p a c :=
  ⟨k.mem.trans h.mem, k.lost.trans h.lost, fun x => k.rxBits (h.rxBits x), fun w => by
    rcases k.busy w with ⟨h1, h2⟩ | h'
    · rcases h.busy w with ⟨h3, h4⟩ | ⟨h3, f, h4, h5⟩
      · exact .inl ⟨h1.trans h3, h2.trans h4⟩
      · exact .inr ⟨h1.trans h3, f, h2.trans h4, h5⟩
    · exact .inr h'⟩

/-- What the caller's and the block's activity on the bus may do: the device as `DevMove` says, the parameters, the
session, the caller's side and the inputs not at all. -/
structure Moved (s t : State) : Prop where
  params : t.params = s.params
  session : t.session = s.session
  pending : t.pending = s.pending
  outside : t.outside = s.outside
  guest : t.guest = s.guest
  dev : DevMove s.params s.dev t.dev

theorem Moved.refl (s) : Moved s s := ⟨rfl, rfl, rfl, rfl, rfl, .refl _ _⟩

theorem Moved.trans {s t u} (h : Moved s t) (k : Moved t u) : Moved s u :=
  ⟨k.params.trans h.params, k.session.trans h.session, k.pending.trans h.pending, k.outside.trans h.outside,
    k.guest.trans h.guest, h.dev.trans (h.params ▸ k.dev)⟩

theorem Moved.of {s t} (k : WireKept s t) : Moved s t :=
  ⟨k.params, k.session, k.pending, k.outside, k.guest, ⟨k.mem, k.lost, k.rxBits, fun _ => .inl ⟨by rw [k.status], k.inflight⟩⟩⟩

/-- An operation that does not touch the device. -/
theorem Moved.blk {s t : State} (hp : t.params = s.params) (hs : t.session = s.session) (hq : t.pending = s.pending)
    (ho : t.outside = s.outside) (hg : t.guest = s.guest) (hd : t.dev = s.dev) :
    Moved s t :=
  ⟨hp, hs, hq, ho, hg, hd ▸ .refl _ _⟩

/-- The end of a command in the device. -/
theorem endCommand_moved (i : Instr) (s : State) : Res (fun t => Moved s t ∧ t.block = s.block) (endCommand i s) := by
  have hacc : ∀ opc a op, (∀ x, a = some x → x < s.params.capacity → flightInRange s.params.capacity op = true) → (a = none → flightInRange s.params.capacity op = true) →
      Res (fun t => Moved s t ∧ t.block = s.block) (acceptWrite opc a op s) := by
    intro opc a op h1 h2
    rw [acceptWrite]
    cases hg : writeGate opc a s with
    | some f =>
      apply Res.fault
      intro hc; subst hc
      unfold writeGate at hg
      cases a <;> (simp only at hg; split_ifs at hg <;> cases hg)
    | none =>
      apply Res.next
      have hrange : flightInRange s.params.capacity op = true := by
        cases a with
        | none => exact h2 rfl
        | some x =>
          refine h1 x rfl ?_
          unfold writeGate at hg
          simp only at hg
          split_ifs at hg
          omega
      rw [startFlight_eq]
      refine ⟨⟨rfl, rfl, rfl, rfl, rfl, ⟨rfl, rfl, id, fun _ => .inr ⟨?_, _, rfl, hrange⟩⟩⟩, rfl⟩
      show (setMask (bitMask s.params.busyBit) s.dev.status).getLsbD _ = true
      rw [setMask_bit]; simp
  cases i with
  | read _ _ => exact Res.next ⟨⟨rfl, rfl, rfl, rfl, rfl, ⟨rfl, rfl, id, fun _ => .inl ⟨rfl, rfl⟩⟩⟩, rfl⟩
  | rdsr => exact Res.next ⟨⟨rfl, rfl, rfl, rfl, rfl, ⟨rfl, rfl, id, fun _ => .inl ⟨rfl, rfl⟩⟩⟩, rfl⟩
  | program a v => exact hacc _ _ _ (fun x hx h => by cases hx; simpa [flightInRange] using h) (fun h => by cases h)
  | se a => exact hacc _ _ _ (fun x hx h => by cases hx; simpa [flightInRange] using h) (fun h => by cases h)
  | ce => exact hacc _ _ _ (fun x hx h => by cases hx) (fun h => rfl)
  | wren =>
    simp only [endCommand, endWren]
    split
    · exact Res.fault (by simp)
    · refine Res.next ⟨⟨rfl, rfl, rfl, rfl, rfl, ⟨rfl, rfl, id, fun w => .inl ⟨?_, rfl⟩⟩⟩, rfl⟩
      show (setMask (bitMask s.params.welBit) s.dev.status).getLsbD _ = s.dev.status.getLsbD _
      rw [setMask_bit]
      have : ¬ s.params.busyBit.val = s.params.welBit.val := fun h => (Params.wf_bits w).1 (Fin.ext h)
      simp [this]
  | ewsr =>
    simp only [endCommand, endEwsr]
    split
    · exact Res.fault (by simp)
    · exact Res.next ⟨⟨rfl, rfl, rfl, rfl, rfl, ⟨rfl, rfl, id, fun w => .inl ⟨rfl, rfl⟩⟩⟩, rfl⟩
  | wrsr v =>
    simp only [endCommand, endWrsr]
    split
    · exact Res.fault (by simp)
    · split
      · exact Res.fault (by simp)
      · unfold wrsrFlight
        split
        · apply Res.next
          rw [startFlight_eq]
          refine ⟨⟨rfl, rfl, rfl, rfl, rfl, ⟨rfl, rfl, id, fun _ => .inr ⟨?_, _, rfl, rfl⟩⟩⟩, rfl⟩
          show (setMask (bitMask s.params.busyBit) _).getLsbD _ = true
          rw [setMask_bit]; simp
        · exact Res.next ⟨⟨rfl, rfl, rfl, rfl, rfl, ⟨rfl, rfl, id, fun w => .inl ⟨writeProtection_bit _ _ _ (Params.wf_bits w).2.1, rfl⟩⟩⟩, rfl⟩

theorem onByte_nostuck (w s) : onByte w s ≠ .fault .stuckOnDone := by
  cases w
  case array => simp [onByte]
  all_goals
    unfold onByte
    cases readHeader s.dev.rxBytes with
    | none => simp
    | some a =>
      simp only [acceptReadHeader]
      split
      · simp [raise]
      split <;> simp [raise]

theorem onRise_res (s) : Res (fun t => WireKept s t ∧ t.block = s.block) (onRise s) := by
  refine ⟨fun t h => ⟨(onRise_kept h).1, (onRise_kept h).2.1⟩, ?_⟩
  unfold onRise
  split
  · refine (Res.bind (P := fun _ => True) (Q := fun _ => True) ⟨fun _ _ => trivial, ?_⟩ fun _ _ => Res.next trivial).2
    unfold onFirstRise
    split
    · simp
    · simp
    · split <;> simp [raise]
  · split
    · exact onByte_nostuck _ _
    · simp

theorem riseWith_res (d s) : Res (fun t => WireKept s t ∧ t.block = { s.block with sck := true }) (riseWith d s) := by
  refine ⟨fun t h => ⟨(riseWith_kept h).1, (riseWith_kept h).2.1⟩, ?_⟩
  unfold riseWith; split
  · exact (onRise_res _).2
  · simp

theorem bitCell_res (s) : Res (fun t => WireKept s t ∧ ∃ d, t.block = cellBlock d s.block) (bitCell s) := by
  refine ⟨fun t h => ?_, ?_⟩
  · obtain ⟨k, d, hb, _⟩ := bitCell_kept h; exact ⟨k, d, hb⟩
  · exact ((riseWith_res _ _).bind (Q := fun _ => True) fun t _ => Res.next trivial).2

/-- A chip-select edge. -/
theorem setCsn_res (b s) : Res (fun t => Moved s t ∧ t.block = { s.block with csn := b }) (setCsn b s) := by
  have h0 : Moved s (driveCsn b s) := .blk rfl rfl rfl rfl rfl rfl
  unfold setCsn
  split
  · exact .next ⟨h0, rfl⟩
  · unfold csnEdge
    cases (driveCsn b s).params.device with
    | oracle => exact .next ⟨h0, rfl⟩
    | reference =>
      cases b with
      | false =>
        obtain ⟨k, hb, _, _⟩ := onSelect_kept (driveCsn false s)
        exact .next ⟨h0.trans (.of k), hb⟩
      | true =>
        simp only [if_true, onDeselect]
        cases decodePulses (pulsesSeen (driveCsn true s).dev) (driveCsn true s).dev.rxBytes with
        | command i => exact (endCommand_moved i _).mono fun t h => ⟨h0.trans h.1, h.2⟩
        | illegal _ => exact Res.fault (by simp)

/-- One micro-step of an exchange: a bit cell, or its end (R143, R148). -/
theorem transportStep_res (s : State) : Res (fun t => WireKept s t ∧
    ((s.block.bitcnt < 8 ∧ ∃ d, t.block = { cellBlock d s.block with xact := t.block.xact } ∧ (s.params.transport = .peripheral → t.block.xact = s.block.xact))
    ∨ (¬ s.block.bitcnt < 8 ∧ t.block = { s.block with xact := false, done := t.block.done } ∧ (s.params.transport = .peripheral → t.block.done = true)))) (transportStep s) := by
  unfold transportStep
  cases hp : s.params.transport with
  | bitbang =>
    simp only [bitbangStep]
    split
    · rename_i h8
      refine (bitCell_res s).bind fun t h => .next ?_
      obtain ⟨k, d, hb⟩ := h
      unfold closeExchange; split
      · exact ⟨k.trans (.wire _ _ _), .inl ⟨h8, d, by simp [hb], fun h => by cases h⟩⟩
      · exact ⟨k, .inl ⟨h8, d, by rw [hb], fun h => by cases h⟩⟩
    · rename_i h8
      exact .next ⟨.wire _ _ _, .inr ⟨h8, rfl, fun h => by cases h⟩⟩
  | peripheral =>
    simp only [shifterStep]
    split
    · rename_i h8
      refine (bitCell_res s).mono fun t h => ?_
      obtain ⟨k, d, hb⟩ := h
      exact ⟨k, .inl ⟨h8, d, by rw [hb], fun _ => by rw [hb]; rfl⟩⟩
    · rename_i h8
      exact .next ⟨.wire _ _ _, .inr ⟨h8, rfl, fun _ => rfl⟩⟩

theorem runExchange_nostuck (n) : ∀ s, runExchange n s ≠ .fault .stuckOnDone := by
  induction n with
  | zero => intro s; simp [runExchange]
  | succ n ih =>
    intro s
    exact ((transportStep_res s).bind (Q := fun _ => True) fun t _ => ⟨fun _ _ => trivial, ih t⟩).2

/-- A byte exchange in any state. -/
theorem putByte_res (v s) :
    Res (fun t => WireKept s t ∧ ∃ w, t.block = exchangedBlock s.params v w s.block) (putByte v s) := by
  refine ⟨fun t h => ?_, runExchange_nostuck _ _⟩
  obtain ⟨k, w, hb, _⟩ := putByte_kept h; exact ⟨k, w, hb⟩

/-- The block between two exchanges of a transaction of `r`. -/
structure BMid (r : Request) (b : Block) : Prop where
  sck : b.sck = false
  xact : b.xact = false
  bitcnt : b.bitcnt ≤ 8
  len : b.len = r.buf.length
  buf : b.buf.length = b.len

theorem BMid.put {r b p v w} (h : BMid r b) : BMid r (exchangedBlock p v w b) := ⟨rfl, rfl, Nat.le_refl 8, h.len, h.buf⟩

theorem put_mid {r v} {s : State} (h : BMid r s.block) (p : Phase) :
    Res (fun t => Moved s t ∧ BMid r t.block ∧ t.block.idx = s.block.idx) (putByte v (setPhase p s)) := by
  refine (putByte_res v (setPhase p s)).mono fun t ht => ?_
  obtain ⟨k, w, hb⟩ := ht
  refine ⟨(Moved.blk rfl rfl rfl rfl rfl rfl : Moved s (setPhase p s)).trans (.of k), ?_, by rw [hb]; rfl⟩
  rw [hb]; exact ⟨rfl, rfl, Nat.le_refl 8, h.len, h.buf⟩

theorem put_mid' {r v} {s : State} (h : BMid r s.block) :
    Res (fun t => Moved s t ∧ BMid r t.block ∧ t.block.idx = s.block.idx
      ∧ t.block.phase = s.block.phase) (putByte v s) := by
  refine (putByte_res v s).mono fun t ht => ?_
  obtain ⟨k, w, hb⟩ := ht
  refine ⟨.of k, ?_, by rw [hb]; rfl, by rw [hb]; rfl⟩
  rw [hb]; exact ⟨rfl, rfl, Nat.le_refl 8, h.len, h.buf⟩

/-- The address bytes at any places. -/
theorem sendPlaces_res {r} (ks : List (Fin Config.addrBytes)) : ∀ {s : State}, BMid r s.block →
    Res (fun t => Moved s t ∧ BMid r t.block ∧ t.block.idx = s.block.idx) (sendPlaces ks s) := by
  induction ks with
  | nil => intro s h; exact .next ⟨.refl _, h, rfl⟩
  | cons k ks ih =>
    intro s h
    exact (put_mid h _).bind fun t ht => (ih ht.2.1).mono fun u hu =>
      ⟨ht.1.trans hu.1, hu.2.1, hu.2.2.trans ht.2.2⟩

/-- The address phase. -/
theorem sendAddr_res {r} {s : State} (h : BMid r s.block) :
    Res (fun t => Moved s t ∧ BMid r t.block ∧ t.block.idx = s.block.idx) (sendAddr s) := by
  unfold sendAddr
  split
  · exact sendPlaces_res _ h
  · exact .next ⟨.refl _, h, rfl⟩

/-- The payload phase. -/
theorem payload_res {r} (k) :
    ∀ s : State, BMid r s.block → s.block.idx + k = s.block.len → Res (fun t => Moved s t ∧ BMid r t.block
      ∧ t.block.idx = t.block.len) (payloadLoop k s) := by
  induction k with
  | zero => intro s h hk; exact .next ⟨.refl _, h, by omega⟩
  | succ k ih =>
    intro s h hk
    rw [payloadLoop]
    refine (put_mid' h).bind fun t ht => ?_
    have hs : BMid r (storePayload t.block) ∧ (storePayload t.block).idx = t.block.idx + 1 := by
      unfold storePayload
      have := ht.2.1
      split
      · exact ⟨⟨this.sck, this.xact, this.bitcnt, this.len, by simpa using this.buf⟩, rfl⟩
      · exact ⟨⟨this.sck, this.xact, this.bitcnt, this.len, this.buf⟩, rfl⟩
    have hl : t.block.len = s.block.len := by rw [ht.2.1.len, h.len]
    refine (ih { t with block := storePayload t.block } hs.1 ?_).mono fun u hu => ?_
    · show (storePayload t.block).idx + k = (storePayload t.block).len
      rw [hs.2, ht.2.2.1, hs.1.len, ← ht.2.1.len]; omega
    · exact ⟨ht.1.trans ((Moved.blk rfl rfl rfl rfl rfl rfl : Moved t { t with block := storePayload t.block }).trans hu.1), hu.2.1, hu.2.2⟩

/-- The end of a transaction. -/
theorem endFrame_res {s : State} :
    Res (fun t => Moved s t ∧ t.block = { s.block with csn := true, phase := .idle }) (endFrame s) := by
  unfold endFrame
  refine (setCsn_res true s).bind fun t ht => .next ⟨ht.1.trans (.blk rfl rfl rfl rfl rfl rfl), ?_⟩
  show { t.block with phase := .idle } = _
  rw [ht.2]

/-- The start of a transaction. -/
theorem startFrame_res (r) {s : State} (hg : transactionGate s = none) (hb : s.block.bitcnt ≤ 8) :
    Res (fun t => Moved s t ∧ BMid r t.block ∧ t.block.idx = 0 ∧ t.block.phase = .opcode
      ∧ t.block.csn = false) (startFrame r s) := by
  obtain ⟨hi, hx, hp, hs, hc⟩ := (transactionGate_none_iff s).1 hg
  unfold startFrame
  refine (setCsn_res false _).bind fun t ht => .next ?_
  refine ⟨(Moved.blk rfl rfl rfl rfl rfl rfl : Moved s { s with block := latchRequest r s.block }).trans (ht.1.trans (.blk rfl rfl rfl rfl rfl rfl)), ?_, ?_, rfl, ?_⟩
  · constructor <;> simp only [setPhase_block_sck, setPhase_block_xact, setPhase_block_bitcnt, setPhase_block_len, setPhase_block_buf, ht.2]
    · exact hs
    · exact hx
    · exact hb
    · rfl
    · rfl
  · simp only [setPhase_block_idx, ht.2]; rfl
  · simp only [setPhase_block_csn, ht.2]

theorem setPhase_moved (p s) : Moved s (setPhase p s) := .blk rfl rfl rfl rfl rfl rfl

/-- A whole transaction: it moves the device, and leaves an idle bus with the buffer full. -/
theorem transaction_res (r) {s : State} (hb : s.block.bitcnt ≤ 8) :
    Res (fun t => Moved s t ∧ BMid r t.block ∧ t.block.idx = t.block.len ∧ t.block.phase = .idle
      ∧ t.block.csn = true) (transaction r s) := by
  unfold transaction
  cases hg : transactionGate s with
  | some e => exact .refused
  | none =>
    refine (startFrame_res r hg hb).bind fun t ht => ?_
    unfold frameBody
    refine (put_mid' ht.2.1).bind fun t1 h1 => ?_
    refine (sendAddr_res h1.2.1).bind fun t2 h2 => ?_
    refine (payload_res (r := r) _ (setPhase .payload t2) ⟨h2.2.1.sck, h2.2.1.xact, h2.2.1.bitcnt, h2.2.1.len, h2.2.1.buf⟩ ?_).bind fun t3 h3 => ?_
    · show t2.block.idx + t2.block.len = t2.block.len
      rw [h2.2.2, h1.2.2.1, ht.2.2.1]; omega
    · refine endFrame_res.mono fun u hu => ?_
      refine ⟨ht.1.trans (h1.1.trans (h2.1.trans ((setPhase_moved _ _).trans (h3.1.trans hu.1)))), ?_, ?_, ?_, ?_⟩
      · rw [hu.2]; exact ⟨h3.2.1.sck, h3.2.1.xact, h3.2.1.bitcnt, h3.2.1.len, h3.2.1.buf⟩
      · rw [hu.2]; exact h3.2.2
      · rw [hu.2]
      · rw [hu.2]

end Sys2Proof.Machine
end

