-- ==== Sys2Proof/Laws/PerInstr.lean ====
section
/-! SUPPORT. Statements about every instruction as syntax, one lemma per constructor. -/

namespace Sys2Proof.Laws.F

open Sys2Proof

/-- R103, R104: the frame begins with the opcode, the address bytes follow when an address is present, and it is
no shorter than table SHAPE allows. -/
def Statement (i : Instr) : Prop :=
  i.wf = true ∧ (encode i).head? = some (encodeFrame i).opc
  ∧ (∀ a, (encodeFrame i).addr = some a → ((encode i).drop 1).take Config.addrBytes = addrBytesOf a)
  ∧ leastLength (encodeFrame i).opc ≤ (encode i).length

theorem read (a : Addr) (n : Nat) : Statement (.read a n) := by
  refine ⟨rfl, rfl, fun x h => (by cases h; rfl), ?_⟩
  have h : (encode (.read a n)).length = 4 + n := by
    simp [encode, encodeFrame, Request.doBytes, Request.doAddr, Request.doPayload, addrBytesOf, addrPlaces, Config.addrBytes, places]
    omega
  rw [h]
  exact Nat.le_add_right 4 n

theorem program (a : Addr) (v : Byte) : Statement (.program a v) :=
  ⟨rfl, rfl, fun x h => (by cases h; rfl), Nat.le_refl 5⟩

theorem wren : Statement .wren := ⟨rfl, rfl, fun _ h => (by cases h), Nat.le_refl 1⟩

theorem rdsr : Statement .rdsr := ⟨rfl, rfl, fun _ h => (by cases h), Nat.le_refl 2⟩

theorem ce : Statement .ce := ⟨rfl, rfl, fun _ h => (by cases h), Nat.le_refl 1⟩

theorem se (a : Addr) : Statement (.se a) := ⟨rfl, rfl, fun x h => (by cases h; rfl), Nat.le_refl 4⟩

theorem ewsr : Statement .ewsr := ⟨rfl, rfl, fun _ h => (by cases h), Nat.le_refl 1⟩

theorem wrsr (v : Byte) : Statement (.wrsr v) := ⟨rfl, rfl, fun _ h => (by cases h), Nat.le_refl 2⟩

end Sys2Proof.Laws.F
end

