-- ==== Sys2Proof/Laws/Sent.lean ====
section
/-! SUPPORT. Frames sent one after the other, and the program and erase commands of a session, by their equations. -/

namespace Sys2Proof.Machine

open Sys2Proof

/-! ### Frames sent -/

theorem sent_nil {s t : State} (h : wire t = wire s) : Sent s t [] := ⟨by simp, by simp [h]⟩

/-- One frame. -/
theorem sent_one {s t : State} {outs ins : List Byte} (h : wire t = wire s ++ frameEvents outs ins)
    (hl : ins.length = outs.length) : Sent s t [⟨outs, ins⟩] := ⟨by simpa using hl, by simpa using h⟩

/-- Frames sent, then more frames. -/
theorem sent_append {s t u : State} {fs gs : List FrameEvent} (h : Sent s t fs) (k : Sent t u gs) :
    Sent s u (fs ++ gs) :=
  ⟨fun f hf => (List.mem_append.1 hf).elim (h.whole f) (k.whole f), by
    rw [k.wire, h.wire, List.flatMap_append, List.append_assoc]⟩

/-! ### Program and erase commands sent -/

theorem writeFrames_append {as bs : List Instr} {ps qs : List Nat} (h : ps.length = as.length) :
    writeFrames (as ++ bs) (ps ++ qs) = writeFrames as ps ++ writeFrames bs qs := by
  simp only [writeFrames]
  rw [List.zipWith_append h.symm, List.flatten_append]

theorem opsSent_nil {s t : State} (h : wire t = wire s) : OpsSent [] s t :=
  ⟨[], [], sent_nil h, rfl, by simp, rfl⟩

/-- Commands sent, then more commands. -/
theorem opsSent_append {s t u : State} {as bs : List Instr} (h : OpsSent as s t) (k : OpsSent bs t u) :
    OpsSent (as ++ bs) s u := by
  obtain ⟨f, p, h1, h2, h3, h4⟩ := h
  obtain ⟨g, q, k1, k2, k3, k4⟩ := k
  exact ⟨f ++ g, p ++ q, sent_append h1 k1, by simp [h2, k2],
    fun x hx => (List.mem_append.1 hx).elim (h3 x) (k3 x), by
    rw [writeFrames_append h2, List.map_append, h4, k4]⟩

/-! ### The commands of a session -/

/-- Only which sectors are in the set matters. -/
theorem sessionOps_congr {E E' : List Nat} {c : Nat} {buf : List Byte} (h : ∀ y, y ∈ E ↔ y ∈ E') :
    sessionOps E c buf = sessionOps E' c buf := by
  induction buf generalizing E E' c with
  | nil => rfl
  | cons v vs ih =>
    by_cases hm : sectorIndex c ∈ E
    · simp only [sessionOps, if_pos hm, if_pos ((h _).1 hm), ih h]
    · have : ∀ y, y ∈ sectorIndex c :: E ↔ y ∈ sectorIndex c :: E' := fun y => by simp [h y]
      simp only [sessionOps, if_neg hm, if_neg (mt (h _).2 hm), ih this]

/-- The sectors of `[c, c + n + 1)` are that of `c` and those of `[c + 1, c + 1 + n)`. -/
theorem exists_sector_succ {c n y : Nat} :
    (∃ x, c ≤ x ∧ x < c + (n + 1) ∧ y = sectorIndex x)
      ↔ y = sectorIndex c ∨ ∃ x, c + 1 ≤ x ∧ x < c + 1 + n ∧ y = sectorIndex x := by
  constructor
  · rintro ⟨x, a, b, d⟩
    by_cases hx : x = c
    · exact .inl (hx ▸ d)
    · exact .inr ⟨x, by omega, by omega, d⟩
  · rintro (d | ⟨x, a, b, d⟩)
    · exact ⟨c, by omega, by omega, d⟩
    · exact ⟨x, by omega, by omega, d⟩

/-- The commands of a buffer are those of its first part, then those of the rest with the sectors of the first part in
the set (R220, R230). -/
theorem sessionOps_append {E E' : List Nat} {c : Nat} {buf more : List Byte}
    (h : ∀ y, y ∈ E' ↔ y ∈ E ∨ ∃ x, c ≤ x ∧ x < c + buf.length ∧ y = sectorIndex x) :
    sessionOps E c (buf ++ more) = sessionOps E c buf ++ sessionOps E' (c + buf.length) more := by
  induction buf generalizing E c with
  | nil =>
    refine sessionOps_congr fun y => ((h y).trans ⟨fun k => k.elim id ?_, .inl⟩).symm
    rintro ⟨x, h1, h2, _⟩
    simp only [List.length_nil] at h2
    omega
  | cons v vs ih =>
    simp only [List.length_cons, exists_sector_succ] at h
    have hc : c + (v :: vs).length = c + 1 + vs.length := by simp only [List.length_cons]; omega
    by_cases hm : sectorIndex c ∈ E
    · have : ∀ y, y ∈ E' ↔ y ∈ E ∨ ∃ x, c + 1 ≤ x ∧ x < c + 1 + vs.length ∧ y = sectorIndex x := fun y => by
        rw [h y]
        exact ⟨fun k => k.elim .inl fun k => k.elim (fun k => .inl (k ▸ hm)) .inr, fun k => k.elim .inl (.inr ∘ .inr)⟩
      simp only [List.cons_append, sessionOps, if_pos hm, hc, ih this]
    · have : ∀ y, y ∈ E' ↔ y ∈ sectorIndex c :: E ∨ ∃ x, c + 1 ≤ x ∧ x < c + 1 + vs.length ∧ y = sectorIndex x :=
        fun y => by rw [h y, List.mem_cons, ← or_assoc, or_comm (a := y ∈ E)]
      simp only [List.cons_append, sessionOps, if_neg hm, hc, ih this]

end Sys2Proof.Machine
end

