-- ==== Sys2Proof/Tests/Slice0.lean ====
section
/-! SUPPORT. Tests: ill-formed terms refused, words written out from spec/30_encoding.md, the vectors of
spec/95_test_vectors.md, and for every statement with hypotheses a state that meets them. -/

namespace Sys2Proof.Tests

open Sys2Proof Sys2Proof.Machine

/-! ### Helpers -/

/-- What a result satisfies when it is a next state. -/
def onNext (r : Result) (f : State → Bool) : Bool :=
  match r with
  | .next t => f t
  | _ => false

/-- The result is this fault. -/
def faults (r : Result) (f : Fault) : Bool :=
  match r with
  | .fault e => e == f
  | _ => false

/-- The result is this refusal. -/
def refuses (r : Result) (f : Refusal) : Bool :=
  match r with
  | .refused e => e == f
  | _ => false

/-- The result is some next state. -/
def answers (r : Result) : Bool := onNext r fun _ => true

theorem exists_of_answers {r : Result} (h : answers r = true) : ∃ t, r = .next t := by
  cases r with
  | next t => exact ⟨t, rfl⟩
  | fault e => cases h
  | refused e => cases h

/-- The drawn bits all 0, as spec/95 prints them. -/
def zeros : List Bool := List.replicate 64 false

/-- A ready machine with the reference device in the given status and arming, holding three bytes. -/
def dev (status : Byte) (armed : Bool) : State :=
  { State.reset with
    dev := { State.reset.dev with
      status := status, armed := armed, mem := [(0x10, 0xF0#8), (0xFFF, 0x12#8), (0x1000, 0x34#8)] }
    script := zeros
    delays := [3] }

/-- Idle and unprotected, WEL = 0. -/
def idleDev : State := dev 0x00#8 false
/-- Idle and unprotected, WEL = 1. -/
def welDev : State := dev 0x02#8 false
/-- A program of 0x3C at 0x10 in flight, `n` steps from its end. -/
def busyDev (n : Nat) : State :=
  { dev 0x03#8 false with dev := { (dev 0x03#8 false).dev with inflight := some ⟨.program 0x10 0x3C#8, n⟩ } }
/-- An erase in flight. -/
def erasingDev (op : FlightOp) : State :=
  { dev 0x03#8 false with dev := { (dev 0x03#8 false).dev with inflight := some ⟨op, 0⟩ } }
/-- The caller's next acts. -/
def withActs (acts : List Act) (s : State) : State := { s with pending := acts }
/-- A peripheral instance. -/
def peripheral (s : State) : State := { s with params := { s.params with transport := .peripheral } }
/-- An oracle at the other end. -/
def oracle (s : State) : State := { s with params := { s.params with device := .oracle } }
/-- With `wrsrBusy` (log 20). -/
def busyWrsr (s : State) : State := { s with params := { s.params with wrsrBusy := true } }
/-- With a budget of `n` polls. -/
def budgeted (n : Nat) (s : State) : State := { s with params := { s.params with pollBudget := some n } }
/-- An exchange in progress in a peripheral instance, `n` bit cells done. -/
def shifting (n : Nat) : State :=
  let s := peripheral idleDev
  { s with block := { s.block with bitcnt := n, xact := true, done := false } }

/-! ### WellFormed: an ill-formed term for each check -/

theorem test_wf_every_command : [Instr.read 0#24 0, .program 0#24 0#8, .wren, .rdsr, .ce, .se 0#24, .ewsr, .wrsr 0#8].all
    Instr.wf = true := by decide
/-- Table SHAPE, READ: an address, inbound. -/
theorem test_shape_read : Request.admitted ⟨0x03#8, none, .inbound, [0#8]⟩ = false
    ∧ Request.admitted ⟨0x03#8, some 0#24, .outbound, [0#8]⟩ = false := by decide
/-- Table SHAPE, PROGRAM: an address, exactly one byte, outbound (R228). -/
theorem test_shape_program : Request.admitted ⟨0x02#8, none, .outbound, [0#8]⟩ = false
    ∧ Request.admitted ⟨0x02#8, some 0#24, .outbound, []⟩ = false
    ∧ Request.admitted ⟨0x02#8, some 0#24, .outbound, [0#8, 0#8]⟩ = false
    ∧ Request.admitted ⟨0x02#8, some 0#24, .inbound, [0#8]⟩ = false := by decide
/-- Table SHAPE, RDSR and WRSR: no address, one byte, the right direction. -/
theorem test_shape_status : Request.admitted ⟨0x05#8, some 0#24, .inbound, [0#8]⟩ = false
    ∧ Request.admitted ⟨0x05#8, none, .inbound, []⟩ = false ∧ Request.admitted ⟨0x05#8, none, .outbound, [0#8]⟩ = false
    ∧ Request.admitted ⟨0x01#8, some 0#24, .outbound, [0#8]⟩ = false
    ∧ Request.admitted ⟨0x01#8, none, .outbound, []⟩ = false
    ∧ Request.admitted ⟨0x01#8, none, .inbound, [0#8]⟩ = false := by decide
/-- Table SHAPE, SE: an address and no payload; WREN, CE, EWSR: neither; an unassigned opcode: none. -/
theorem test_shape_bare : Request.admitted ⟨0x20#8, none, .outbound, []⟩ = false
    ∧ Request.admitted ⟨0x20#8, some 0#24, .outbound, [0#8]⟩ = false
    ∧ Request.admitted ⟨0x06#8, some 0#24, .outbound, []⟩ = false ∧ Request.admitted ⟨0x06#8, none, .outbound, [0#8]⟩ = false
    ∧ Request.admitted ⟨0x60#8, some 0#24, .outbound, []⟩ = false ∧ Request.admitted ⟨0x60#8, none, .outbound, [0#8]⟩ = false
    ∧ Request.admitted ⟨0x50#8, some 0#24, .outbound, []⟩ = false ∧ Request.admitted ⟨0x50#8, none, .outbound, [0#8]⟩ = false
    ∧ Request.admitted ⟨0x9F#8, none, .outbound, []⟩ = false := by decide
/-- R110: with no payload byte the direction is immaterial (log 21). -/
theorem test_shape_direction : Request.admitted ⟨0x03#8, some 0#24, .outbound, []⟩ = true
    ∧ Request.admitted ⟨0x06#8, none, .inbound, []⟩ = true := by decide
/-- R11, one ill-formed parameter set for each constraint. -/
theorem test_params : Params.suggested.wf = true ∧ { Params.suggested with welBit := 0 }.wf = false
    ∧ { Params.suggested with bpMask := 0x3D#8 }.wf = false ∧ { Params.suggested with bpMask := 0x3E#8 }.wf = false
    ∧ { Params.suggested with capacity := 0 }.wf = false ∧ { Params.suggested with capacity := 4097 }.wf = false
    ∧ { Params.suggested with capacity := 16781312 }.wf = false
    ∧ { Params.suggested with pollBudget := some 0 }.wf = false := by decide
/-- R104: the widest address, and the first that does not fit (spec/95 2.3). -/
theorem test_address_width : addrFits 16777215 = true ∧ addrFits 16777216 = false := by decide

/-! ### Encoding: words of spec/95 2.3 and 2.4 -/

theorem test_decode_read : decodeFrame [0x03#8, 0x01#8, 0x23#8, 0x45#8, 0x00#8, 0x00#8, 0x00#8]
    = .command (.read 0x012345#24 3) := by decide
/-- V20: the length 0 form. -/
theorem test_decode_read_none : decodeFrame [0x03#8, 0x01#8, 0x23#8, 0x45#8] = .command (.read 0x012345#24 0) := by decide
/-- V55: the dummies are not looked at. -/
theorem test_decode_read_dummies : decodeFrame [0x03#8, 0x00#8, 0x0F#8, 0xFA#8, 0x11#8, 0x22#8]
    = .command (.read 0x000FFA#24 2) := by decide
theorem test_decode_program : decodeFrame [0x02#8, 0xFF#8, 0xFF#8, 0xFF#8, 0xFF#8]
    = .command (.program 0xFFFFFF#24 0xFF#8) := by decide
theorem test_decode_wren : decodeFrame [0x06#8] = .command .wren := by decide
/-- V54. -/
theorem test_decode_rdsr : decodeFrame [0x05#8, 0xA7#8] = .command .rdsr := by decide
theorem test_decode_ce : decodeFrame [0x60#8] = .command .ce := by decide
/-- V27: the address is not masked. -/
theorem test_decode_se : decodeFrame [0x20#8, 0x00#8, 0x0F#8, 0xFF#8] = .command (.se 0x000FFF#24) := by decide
theorem test_decode_ewsr : decodeFrame [0x50#8] = .command .ewsr := by decide
theorem test_decode_wrsr : decodeFrame [0x01#8, 0x5A#8] = .command (.wrsr 0x5A#8) := by decide
/-- V22 and V26, the encoder's side. -/
theorem test_encode : encode (.program 0x000FFA#24 0x01#8) = [0x02#8, 0x00#8, 0x0F#8, 0xFA#8, 0x01#8]
    ∧ encode (.se 0x001000#24) = [0x20#8, 0x00#8, 0x10#8, 0x00#8]
    ∧ encode (.read 0x012345#24 2) = [0x03#8, 0x01#8, 0x23#8, 0x45#8, 0x00#8, 0x00#8] := by decide
/-- V41 to V48. -/
theorem test_illegal_length : decodeFrame [0x06#8, 0x00#8] = .illegal .length
    ∧ decodeFrame [0x02#8, 0#8, 0#8, 0#8] = .illegal .length
    ∧ decodeFrame [0x02#8, 0#8, 0#8, 0#8, 1#8, 2#8] = .illegal .length
    ∧ decodeFrame [0x03#8, 0#8, 0#8] = .illegal .length ∧ decodeFrame [0x05#8] = .illegal .length
    ∧ decodeFrame [0x05#8, 0#8, 0#8] = .illegal .length ∧ decodeFrame [0x20#8, 0#8, 0x10#8] = .illegal .length
    ∧ decodeFrame [0x60#8, 0#8, 0#8, 0#8] = .illegal .length := by decide
/-- V49 to V53. -/
theorem test_illegal_opcode : decodeFrame [0x04#8] = .illegal .opcode
    ∧ decodeFrame [0x0B#8, 0#8, 0#8, 0#8, 0#8] = .illegal .opcode ∧ decodeFrame [0x9F#8] = .illegal .opcode
    ∧ decodeFrame [0x00#8] = .illegal .opcode ∧ decodeFrame [0xFF#8] = .illegal .opcode := by decide
/-- R109: nine pulses are no frame, eight are (one byte). -/
theorem test_pulses : decodePulses 9 [0x06#8] = .illegal .length ∧ decodePulses 8 [0x06#8] = .command .wren
    ∧ decodePulses 7 [] = .illegal .length ∧ decodePulses 0 [] = .illegal .empty := by decide
/-- `ExtractPayload`, spec/95 2.4. -/
theorem test_extract : extractPayload (.read 0x012345#24 3) [0x9A#8, 0x9B#8, 0x9C#8, 0x9D#8, 0xDE#8, 0xAD#8, 0xBE#8]
      = [0xDE#8, 0xAD#8, 0xBE#8]
    ∧ extractPayload .rdsr [0x77#8, 0x03#8] = [0x03#8] := by decide
/-- The opcode table's own numbering: byte 1 is bits 15..8 (log 2). -/
theorem test_table_word : decodeTableWord 8 0x06 = some .wren ∧ decodeTableWord 32 0x00100020 = some (.se 0x001000#24)
    ∧ decodeTableWord 40 0x5AFA0F0002 = some (.program 0x000FFA#24 0x5A#8)
    ∧ decodeTableWord 16 0x0005 = some .rdsr ∧ decodeTableWord 8 0x9F = none := by decide

/-! ### BitTransport: V1, and the two ends of the bit order (V5, V6) -/

theorem test_v1_result : onNext (putByte 0xA5#8 { State.reset with
      script := [false, false, true, true, true, true, false, false] })
    (fun t => regByte t.block.sr == 0x3C#8 && t.block.dout && t.block.bitcnt == 8 && !t.block.xact
      && wire t == byteEvents 0xA5#8 0x3C#8) = true := by decide
theorem test_v1_trace : byteEvents 0xA5#8 0x3C#8 = [.dout true, .rise false, .fall, .dout false, .rise false, .fall,
    .dout true, .rise true, .fall, .dout false, .rise true, .fall, .dout false, .rise true, .fall,
    .dout true, .rise true, .fall, .dout false, .rise false, .fall, .dout true, .rise false, .fall] := by decide
theorem test_v5_v6 : onNext (putByte 0x80#8 { State.reset with
      script := [false, false, false, false, false, false, false, true] }) (fun t => regByte t.block.sr == 0x01#8) = true
    ∧ onNext (putByte 0x01#8 { State.reset with
      script := [true, false, false, false, false, false, false, false] }) (fun t => regByte t.block.sr == 0x80#8) = true := by
  decide
/-- P6: the completion step. -/
theorem test_done : onNext (shifterStep (shifting 8)) (fun t => t.block.done && !t.block.xact && t.trace == []) = true := by
  decide
/-- R145: the line primitives have their effect in a PERIPHERAL instance too (log 15). -/
theorem test_primitives_peripheral : onNext (perform (.setClock true) (peripheral idleDev))
      (fun t => t.block.sck && t.trace == [.rise false]) = true
    ∧ onNext (perform (.setData true) (peripheral idleDev)) (fun t => t.block.dout && t.trace == [.dout true]) = true := by
  decide
/-- R145, R37: with `SCK = 1` the level CSN has already may be written, a change is refused (log 14). -/
theorem test_select_clock_high : (let s := { idleDev with block := { idleDev.block with sck := true } }
    onNext (perform (.selectChip false) s) (fun t => t.block.csn && t.trace == [.cs true]) = true
    ∧ refuses (perform (.selectChip true) s) .secondCaller = true) := by decide
/-- A frame driven by hand, open on the lines: the second caller's, or not. -/
def handFrame (guest : Bool) : State :=
  { idleDev with block := { idleDev.block with csn := false }, guest := guest }
/-- R288: no byte of a second caller goes into a frame the first drives by hand, nor the other way; its own goes on, and
the lines are free again when it deselects (log 14, log 19). -/
theorem test_second_caller_lines :
    refuses (step { handFrame false with outside := [.secondCaller (.putByte 0x06#8)] }) .secondCaller = true
    ∧ refuses (step { handFrame true with pending := [.putByte 0x06#8] }) .secondCaller = true
    ∧ onNext (step { idleDev with outside := [.secondCaller (.selectChip true)] }) (fun t => t.guest && !t.block.csn) = true
    ∧ onNext (step { handFrame true with outside := [.secondCaller (.putByte 0x06#8)] })
      (fun t => t.guest && t.dev.rxBytes == [0x06#8]) = true
    ∧ onNext (step { handFrame true with
        dev := { idleDev.dev with rxBytes := [0x06#8] }, outside := [.secondCaller (.selectChip false)] })
      (fun t => !t.guest && t.block.csn && isWel t) = true := by decide
/-- R264(6): a second caller's operation while another is in progress is SecondCaller, whatever it is (log 33). -/
theorem test_second_caller_first :
    refuses (step { handFrame false with outside := [.secondCaller (.readWord 0)] }) .secondCaller = true
    ∧ refuses (step { idleDev with outside := [.secondCaller (.readWord 0)] }) .unspecified = true := by decide
/-- R225, R7: `Init` records its `CS(1)`, before any and later. -/
theorem test_init_event : onNext (perform .init (State.beforeInit Params.suggested [])) (fun t => t.trace == [.cs true]) = true
    ∧ onNext (perform .init idleDev) (fun t => t.trace == [.cs true]) = true := by decide
/-- V9: RDSR on the wire, 50 events; the level-B view. -/
theorem test_v9_levels : (frameEvents [0x05#8, 0x00#8] [0x00#8, 0x03#8]).length = 50
    ∧ levelB (frameEvents [0x05#8, 0x00#8] [0x00#8, 0x03#8])
      = some [.sel, .xfer 0x05#8 0x00#8, .xfer 0x00#8 0x03#8, .desel] := by decide

/-! ### The reference device: spec/95 2.5 -/

/-- V60. -/
theorem test_wren_sets : onNext (exec .wren idleDev) (fun t => t.dev.status == 0x02#8) = true := by decide
/-- V72. -/
theorem test_wren_busy : faults (exec .wren (busyDev 5)) (.busyViolation 0x06#8) = true := by decide
/-- V62, at `CS(1)`: BUSY = 1, WEL still 1. -/
theorem test_program_accepted : onNext (exec (.program 0x000010#24 0x5A#8) welDev)
    (fun t => t.dev.status == 0x03#8 && memRead t.dev.mem 0x10 == 0xF0#8
      && t.dev.inflight == some ⟨.program 0x10 0x5A#8, 3⟩) = true := by decide
/-- V63, the finishing step: 0xF0 AND 0x3C. -/
theorem test_program_finishes : onNext (step (busyDev 0))
    (fun t => memRead t.dev.mem 0x10 == 0x30#8 && t.dev.status == 0x00#8) = true := by decide
/-- V71, the unnamed bits drawn as 0. -/
theorem test_rdsr_busy : onNext (exec .rdsr (busyDev 5)) (fun t => t.ret == .byte 0x03#8) = true := by decide
/-- R149: DI holds its level over the finishing step; R72: STATUS is sampled at the first rising edge of its byte (log 10),
and where its bit 7 would have to change there, the byte set up at the falling edge stays. -/
theorem test_status_sampled_at_rise : (let s := { busyDev 0 with dev := { (busyDev 0).dev with
        rxBytes := [0x05#8], txByte := 0x03#8, di := false } }
      onNext (step s) (fun t => t.dev.di == s.dev.di) = true
      ∧ onNext (andThen (step s) onRise) (fun t => t.dev.txByte == 0x00#8 && t.dev.di == false) = true)
    ∧ (let s := { idleDev with
          params := { idleDev.params with busyBit := 7 }
          dev := { idleDev.dev with rxBytes := [0x05#8], txByte := 0x80#8, di := true } }
      onNext (onRise s) (fun t => t.dev.txByte == 0x80#8 && t.dev.di) = true) := by decide
/-- V81. -/
theorem test_rdsr_disarms : onNext (exec .rdsr (dev 0x3C#8 true))
    (fun t => t.ret == .byte 0x3C#8 && !t.dev.armed) = true := by decide
/-- V66, CE in flight and due. -/
theorem test_ce_finishes : onNext (step (erasingDev .chipErase))
    (fun t => t.dev.mem == [] && t.dev.status == 0x00#8) = true := by decide
/-- E1's frame, accepted. -/
theorem test_ce_accepted : onNext (exec .ce welDev) (fun t => t.dev.status == 0x03#8) = true := by decide
/-- V65, E2: the sector of 0xFFF, and nothing of the next one. -/
theorem test_se_finishes : onNext (step (erasingDev (.sectorErase 0xFFF)))
    (fun t => memRead t.dev.mem 0x10 == 0xFF#8 && memRead t.dev.mem 0xFFF == 0xFF#8
      && memRead t.dev.mem 0x1000 == 0x34#8) = true := by decide
/-- V69: WelMissing outranks Protected. -/
theorem test_se_wel_first : faults (exec (.se 0x000000#24) (dev 0x3C#8 false)) (.welMissing 0x20#8) = true := by decide
/-- V78. -/
theorem test_ewsr_arms : onNext (exec .ewsr (dev 0x3C#8 false))
    (fun t => t.dev.armed && t.dev.status == 0x3C#8) = true := by decide
/-- V79. -/
theorem test_wrsr_unprotects : onNext (exec (.wrsr 0x00#8) (dev 0x3C#8 true))
    (fun t => t.dev.status == 0x00#8 && !t.dev.armed) = true := by decide
/-- V82: only the protection bits are written. -/
theorem test_wrsr_masks : onNext (exec (.wrsr 0xFF#8) (dev 0x3C#8 true)) (fun t => t.dev.status == 0x3C#8) = true := by
  decide
/-- E3's frame: one byte of the array. -/
theorem test_read_byte : onNext (exec (.read 0x000FFF#24 1) idleDev) (fun t => t.ret == .bytes [0x12#8]) = true := by decide
/-- V76. -/
theorem test_read_past_end : faults (exec (.read 0x1FFFFF#24 2) idleDev) (.addrRange 0x200000) = true := by decide
/-- V83, V84: bytes that are no admitted frame, clocked into the device. -/
theorem test_illegal_frame : faults (onDeselect { idleDev with dev := { idleDev.dev with rxBytes := [0x04#8] } })
      (.illegalFrame [0x04#8]) = true
    ∧ faults (onDeselect { welDev with dev := { welDev.dev with rxBytes := [0x02#8, 0#8, 0#8, 0x10#8, 1#8, 2#8] } })
      (.illegalFrame [0x02#8, 0#8, 0#8, 0x10#8, 1#8, 2#8]) = true := by decide

/-! ### Driver: spec/95 2.6 -/

theorem test_runs : runs 4090 10 = [(4090, 6), (4096, 4)] ∧ runs 0 0 = [] ∧ runs 4095 2 = [(4095, 1), (4096, 1)]
    ∧ runs 4093 7 = [(4093, 3), (4096, 4)] := by decide
/-- Spec/95 2.3. -/
theorem test_sector_index : sectorIndex 4095 = 0 ∧ sectorIndex 4096 = 4096 ∧ sectorIndex 74565 = 0x12000 := by decide
/-- V95. -/
theorem test_no_session : refuses (perform (.writeIncrementalArray [1#8]) idleDev) .noSession = true := by decide
/-- R264(2): a wide address operand, and a range that holds one, decided before anything is sent (log 22). -/
theorem test_wide_address : refuses (perform (.beginWrite 16777216) idleDev) .addrWidth = true
    ∧ (let s := { idleDev with session := ⟨.opened, 16777215, []⟩ }
      refuses (perform (.writeIncrementalArray [1#8, 2#8]) s) .addrWidth = true
      ∧ answers (perform (.writeIncrementalArray [1#8]) s) = true) := by decide
/-- V96. -/
theorem test_begin_write : onNext (perform (.beginWrite 100) { idleDev with session := ⟨.opened, 4090, [0]⟩ })
    (fun t => t.session == ⟨.opened, 100, []⟩ && t.trace == []) = true := by decide
/-- P5e. -/
theorem test_before_init : refuses (perform (.readByte 0) (State.beforeInit Params.suggested [])) .notInitialised = true := by
  decide
/-- P5d: the budget is spent. -/
theorem test_budget : faults (perform (.poll 2) (budgeted 2 idleDev))
    .hardwareFault = true := by decide

/-! ### Memory -/

/-- Writing what an unlisted address reads as removes the entry. -/
theorem test_mem_canonical : memWrite 0x10 0xFF#8 idleDev.dev.mem = [(0xFFF, 0x12#8), (0x1000, 0x34#8)]
    ∧ memWf State.reset.dev.mem = true ∧ memWf [(2, 0#8), (1, 0#8)] = false ∧ memWf [(2, 0xFF#8)] = false := by decide

/-! ### Fetching -/

/-- A frame placed where `step` fetches is run by the first step after reset (log 2). -/
theorem test_first_step : onNext (step (State.reset.withFetchWord 8 0x06)) (fun t => isWel t) = true
    ∧ onNext (step (State.reset.withFetchWord 8 0x50)) (fun t => t.dev.armed) = true := by decide

/-! ### For every statement with hypotheses, a state and operands that meet them -/

theorem test_wit_RoundTrip : decodeFrame [0x03#8, 0x1F#8, 0xFF#8, 0xFF#8, 0x00#8] = .command (.read 0x1FFFFF#24 1)
    ∧ (∀ b ∈ dummies (.read 0x1FFFFF#24 1) [0x03#8, 0x1F#8, 0xFF#8, 0xFF#8, 0x00#8], b = 0x00#8)
    ∧ encode (.wrsr 0x00#8) = encode (.wrsr 0x00#8) := by decide
/-- One for each clause, at the lengths on either side of the admitted one. -/
theorem test_wit_IllegalEncodings : (0x04#8 : Byte) ∉ [0x01#8, 0x02#8, 0x03#8, 0x05#8, 0x06#8, 0x20#8, 0x50#8, 0x60#8]
    ∧ [0#8].length ≠ 0 ∧ ([] : List Byte).length ≠ 1 ∧ [0#8, 0#8].length ≠ 1 ∧ [0#8, 0#8].length ≠ 3
    ∧ [0#8, 0#8, 0#8, 0#8].length ≠ 3 ∧ [0#8, 0#8, 0#8].length ≠ 4 ∧ [0#8, 0#8, 0#8, 0#8, 0#8].length ≠ 4
    ∧ [0#8, 0#8].length < 3 ∧ 9 % 8 ≠ 0
    ∧ { idleDev with dev := { idleDev.dev with rxBits := 7 } }.dev.rxBits % 8 ≠ 0 := by decide
theorem test_wit_AdmittedAreTheEightFrames : Request.admitted ⟨0x03#8, some 0xFFFFFF#24, .inbound, []⟩ = true := by decide
theorem test_wit_PutByteExchangesOneByte : State.reset.block.sck = false ∧ listening State.reset = false
    ∧ (∃ t, putByte 0xA5#8 State.reset = .next t) :=
  ⟨rfl, rfl, exists_of_answers (by decide)⟩
theorem test_wit_GetByteIsPutByteOfZero : idleDev.block.inited = true ∧ idleDev.block.sck = false
    ∧ blockBusy idleDev = false ∧ ∃ t, perform .getByte idleDev = .next t :=
  ⟨rfl, rfl, rfl, exists_of_answers (by decide)⟩
theorem test_wit_DoneProtocol : (shifting 7).params.transport = .peripheral ∧ (shifting 7).block.bitcnt < 8
    ∧ (∃ t, shifterStep (shifting 7) = .next t) ∧ (shifting 8).block.bitcnt = 8 :=
  ⟨rfl, by decide, exists_of_answers (by decide), rfl⟩
theorem test_wit_FrameOnTheWire : ∃ t, exec .rdsr idleDev = .next t := exists_of_answers (by decide)
theorem test_wit_TraceLevels : Request.admitted ⟨0x05#8, none, .inbound, [0#8]⟩ = true
    ∧ (∃ t, transaction ⟨0x05#8, none, .inbound, [0#8]⟩ idleDev = .next t) ∧ [0x05#8, 0x00#8].length = [0x00#8, 0x03#8].length :=
  ⟨by decide, exists_of_answers (by decide), rfl⟩
theorem test_wit_WhenACommandIsRefused : (State.beforeInit Params.suggested []).block.inited = false
    ∧ ((shifting 3).block.inited = true ∧ blockBusy (shifting 3) = true)
    ∧ (let s := setPhase .idle { idleDev with block := { idleDev.block with sck := true } }
      s.block.inited = true ∧ blockBusy s = false ∧ s.block.sck = true)
    ∧ (let s := { idleDev with block := { idleDev.block with csn := false } }
      s.block.inited = true ∧ blockBusy s = false ∧ s.block.csn = false) ∧ Ready idleDev := by decide
theorem test_wit_MicroStepsRunTheFrame : Ready idleDev ∧ Ready (peripheral idleDev) := by decide

/-- The last byte of the array. -/
theorem test_wit_ReadReturnsTheArray : Ready idleDev ∧ Reference idleDev ∧ isBusy idleDev = false
    ∧ (0x1FFFFF#24 : Addr).toNat < idleDev.params.capacity ∧ (0x1FFFFF#24 : Addr).toNat + 1 ≤ idleDev.params.capacity
    ∧ isLost idleDev ((0x1FFFFF#24 : Addr).toNat + 0) = false := by decide
theorem test_wit_RdsrReturnsTheStatus : Ready (busyDev 5) ∧ Reference (busyDev 5) := by decide
theorem test_wit_WrenSetsTheLatch : Ready idleDev ∧ Reference idleDev ∧ isBusy idleDev = false
    ∧ 2 ≠ idleDev.params.welBit.val := by decide
theorem test_wit_ProgramIsAccepted : Ready welDev ∧ Reference welDev ∧ isBusy welDev = false ∧ isWel welDev = true
    ∧ isProt welDev = false ∧ (0x1FFFFF#24 : Addr).toNat < welDev.params.capacity := by decide
theorem test_wit_SectorEraseIsAccepted : Ready welDev ∧ Reference welDev ∧ isBusy welDev = false ∧ isWel welDev = true
    ∧ isProt welDev = false ∧ (0x000FFF#24 : Addr).toNat < welDev.params.capacity := by decide
theorem test_wit_ChipEraseIsAccepted : Ready welDev ∧ Reference welDev ∧ isBusy welDev = false ∧ isWel welDev = true
    ∧ isProt welDev = false := by decide
theorem test_wit_EwsrArms : Ready idleDev ∧ Reference idleDev ∧ isBusy idleDev = false := by decide
/-- Without and with `wrsrBusy`. -/
theorem test_wit_WrsrWritesProtection : (let s := dev 0x3C#8 true
      Ready s ∧ Reference s ∧ isBusy s = false ∧ s.dev.armed = true ∧ s.params.wrsrBusy = false ∧ s.params.wf = true)
    ∧ (let s := busyWrsr (dev 0x3C#8 true)
      Ready s ∧ Reference s ∧ isBusy s = false ∧ s.dev.armed = true ∧ s.params.wrsrBusy = true) := by decide
theorem test_wit_EveryCommandCompletesWithTheOracle : Ready (oracle idleDev) ∧ (oracle idleDev).params.device = .oracle := by
  decide
theorem test_wit_TheOracleMayAnswerAnything : Ready (oracle idleDev) ∧ (oracle idleDev).params.device = .oracle
    ∧ [0x77#8, 0x03#8].length = (encode .rdsr).length := by decide
/-- Busy; out of range; streaming past the end, at the boundaries. -/
theorem test_wit_ReadFaults : (Ready (busyDev 5) ∧ Reference (busyDev 5) ∧ isBusy (busyDev 5) = true)
    ∧ (Ready idleDev ∧ Reference idleDev ∧ isBusy idleDev = false
      ∧ idleDev.params.capacity ≤ (0x200000#24 : Addr).toNat
      ∧ (0x1FFFFF#24 : Addr).toNat < idleDev.params.capacity
      ∧ idleDev.params.capacity < (0x1FFFFF#24 : Addr).toNat + 2) := by decide
/-- V67, V68, V74 and a busy device. -/
theorem test_wit_WriteFaultsInOrder : (∃ x v, Instr.program 0x200000#24 0#8 = .program x v ∧ (0x02#8 : Byte) = 0x02#8
      ∧ some 0x200000 = some x.toNat)
    ∧ (Ready (busyDev 5) ∧ Reference (busyDev 5) ∧ isBusy (busyDev 5) = true)
    ∧ (Ready idleDev ∧ Reference idleDev ∧ isBusy idleDev = false ∧ isWel idleDev = false)
    ∧ (let s := dev 0x3E#8 false
      Ready s ∧ Reference s ∧ isBusy s = false ∧ isWel s = true ∧ isProt s = true)
    ∧ (Ready welDev ∧ Reference welDev ∧ isBusy welDev = false ∧ isWel welDev = true ∧ isProt welDev = false
      ∧ welDev.params.capacity ≤ 0x200000) :=
  ⟨⟨0x200000#24, 0#8, rfl, rfl, by decide⟩, by decide⟩
theorem test_wit_StatusFrameFaults : (Ready (busyDev 5) ∧ Reference (busyDev 5) ∧ isBusy (busyDev 5) = true
      ∧ (busyDev 5).dev.armed = false)
    ∧ (let s := dev 0x3D#8 true
      Ready s ∧ Reference s ∧ isBusy s = true ∧ s.dev.armed = true) := by decide
theorem test_wit_OnlyRdsrWhileBusy : Ready (busyDev 5) ∧ Reference (busyDev 5) ∧ isBusy (busyDev 5) = true := by decide
/-- A WREN that raises WEL, a CE that raises BUSY, a WRSR that changes PROT. -/
theorem test_wit_WhichCommandWritesWhichFlag : Reference idleDev ∧ idleDev.params.wf = true
    ∧ (∃ t, exec .wren idleDev = .next t) ∧ onNext (exec .wren idleDev) (fun t => isWel t) = true ∧ isWel idleDev = false
    ∧ onNext (exec .ce welDev) (fun t => isBusy t) = true ∧ isBusy welDev = false
    ∧ onNext (exec (.wrsr 0x00#8) (dev 0x3C#8 true)) (fun t => !isProt t) = true
    ∧ isProt (dev 0x3C#8 true) = true :=
  ⟨rfl, by decide, exists_of_answers (by decide), by decide, by decide, by decide, by decide, by decide, by decide⟩
theorem test_wit_ProgramFinishes : (busyDev 0).outside = [] ∧ (busyDev 0).dev.inflight = some ⟨.program 0x10 0x3C#8, 0⟩
    ∧ memWf (busyDev 0).dev.mem = true ∧ isLost (busyDev 0) 0x10 = false := by decide
theorem test_wit_SectorEraseFinishes : (erasingDev (.sectorErase 0xFFF)).outside = []
    ∧ (erasingDev (.sectorErase 0xFFF)).dev.inflight = some ⟨.sectorErase 0xFFF, 0⟩ := by decide
theorem test_wit_ChipEraseFinishes : (erasingDev .chipErase).outside = []
    ∧ (erasingDev .chipErase).dev.inflight = some ⟨.chipErase, 0⟩ := by decide
theorem test_wit_OnlyTheFinishingStepWritesTheArray :
    onNext (step (busyDev 0)) (fun t => t.dev.mem != (busyDev 0).dev.mem) = true := by decide
/-- The finishing step, and a loss of power. -/
theorem test_wit_NothingElseEndsAnOperation : (busyDev 0).params.wf = true ∧ isBusy (busyDev 0) = true
    ∧ onNext (step (busyDev 0)) (fun t => !isBusy t) = true
    ∧ onNext (step { busyDev 5 with outside := [.powerLoss] }) (fun t => !isBusy t) = true := by decide

/-- The two clauses. -/
theorem test_wit_StepRunsTheDecodedFrame : (let s := withActs [.frame [0x06#8]] (busyDev 5)
      s.outside = [] ∧ flightDue s = none ∧ blockBusy s = false ∧ s.block.inited = true
      ∧ s.pending = .frame [0x06#8] :: [] ∧ decodeFrame [0x06#8] = .command .wren)
    ∧ decodeTableWord 16 0x0005 = some .rdsr := by decide
theorem test_wit_ResetValues : Params.suggested.wf = true ∧ Params.suggested.bpMask ≠ 0 := by decide
/-- An array with its first and its last byte listed. -/
theorem test_wit_ResetMeetsTheInvariant : Params.suggested.wf = true ∧ memWf [(0, 0x12#8), (0x1FFFFF, 0x34#8)] = true
    ∧ ∀ c ∈ [(0, 0x12#8), (0x1FFFFF, 0x34#8)], c.1 < Params.suggested.capacity := by decide
/-- A state in the middle of an operation that meets the invariant, its lines at rest, and takes a step. -/
theorem test_wit_StepKeepsTheInvariant : LinesAtRest (busyDev 5).block ∧ Inv (busyDev 5)
    ∧ ∃ t, step (busyDev 5) = .next t := by
  refine ⟨by decide, ⟨by decide, ⟨by decide, by decide, by decide, ?_, by decide, by decide, by decide⟩,
    ⟨by decide, by decide, by decide, by decide, by decide, by decide⟩, by decide, by decide⟩, exists_of_answers (by decide)⟩
  intro f hf
  cases hf
  decide
/-- Inside an exchange of a peripheral instance. -/
theorem test_wit_NeverStuckOnDone : Inv (shifting 7) := by
  refine ⟨by decide, ⟨by decide, by decide, by decide, ?_, by decide, by decide, by decide⟩,
    ⟨by decide, by decide, by decide, by decide, by decide, by decide⟩, by decide, by decide⟩
  intro f hf
  cases hf
theorem test_wit_ParametersAreFixed : ∃ t, step (busyDev 5) = .next t := exists_of_answers (by decide)
theorem test_wit_TheDeviceFinishes : (busyDev 5).outside = [] ∧ (busyDev 5).pending = [] ∧ blockBusy (busyDev 5) = false
    ∧ (busyDev 5).dev.inflight = some ⟨.program 0x10 0x3C#8, 5⟩ := by decide

/-- Before `Init`, and again later on idle lines. -/
theorem test_wit_InitEstablishesReset : (State.beforeInit Params.suggested []).block.inited = false
    ∧ (idleDev.block.sck = false ∧ idleDev.block.csn = true) := by decide
theorem test_wit_NothingBeforeInit : (State.beforeInit Params.suggested []).block.inited = false
    ∧ Act.readByte 0 ≠ .init := by decide
theorem test_wit_RefusedBeforeAnythingIsSent : idleDev.block.inited = true
    ∧ Request.admitted ⟨0x9F#8, none, .outbound, []⟩ = false ∧ 2 ^ 24 ≤ 16777216 ∧ idleDev.session.mode = .idle
    ∧ (let s := { idleDev with session := ⟨.opened, 16777215, []⟩ }
      s.block.inited = true ∧ s.session.mode = .opened ∧ [1#8, 2#8] ≠ []
      ∧ 2 ^ 24 < s.session.cursor + [1#8, 2#8].length) := by decide
theorem test_wit_PollEndsAtOnceWhenIdle : (let s := withActs [.waitNotBusy] idleDev
    Ready s ∧ Reference s ∧ s.params.wf = true ∧ s.outside = [] ∧ s.dev.inflight = none ∧ isBusy s = false
    ∧ s.pending = .waitNotBusy :: []) := by decide
/-- A budget of 2 polls (V92). -/
theorem test_wit_PollBudgetIsKept : (let s := withActs [.waitNotBusy] (budgeted 2 (busyDev 8))
    Ready s ∧ Reference s ∧ s.outside = [] ∧ s.params.pollBudget = some 2 ∧ isBusy s = true
    ∧ s.dev.inflight = some ⟨.program 0x10 0x3C#8, 8⟩ ∧ 3 * 2 + 2 ≤ (8 : Nat) ∧ s.pending = .waitNotBusy :: []) := by decide

theorem writeReady_withActs (acts : List Act) : WriteReady (withActs acts idleDev) :=
  ⟨by show Ready idleDev; decide, by show Reference idleDev; decide, by show isBusy idleDev = false; decide, rfl,
    by show isProt idleDev = false; decide, rfl, by show memWf idleDev.dev.mem = true; decide,
    by show idleDev.params.wf = true; decide⟩
theorem test_wit_WriteByteEndsWithTheByteWritten : WriteReady (withActs [.writeByte 0x1FFFFF 0x5A#8] idleDev)
    ∧ 0x1FFFFF < idleDev.params.capacity ∧ idleDev.params.pollBudget = none ∧ isLost idleDev 0x1FFFFF = false
    ∧ (withActs [.writeByte 0x1FFFFF 0x5A#8] idleDev).pending = .writeByte 0x1FFFFF 0x5A#8 :: [] :=
  ⟨writeReady_withActs _, by decide, rfl, by decide, rfl⟩
theorem test_wit_SectorEraseEndsWithTheSectorErased : WriteReady (withActs [.sectorErase 0xFFF] idleDev)
    ∧ 0xFFF < idleDev.params.capacity ∧ idleDev.params.pollBudget = none
    ∧ (withActs [.sectorErase 0xFFF] idleDev).pending = .sectorErase 0xFFF :: [] :=
  ⟨writeReady_withActs _, by decide, rfl, rfl⟩
theorem test_wit_ChipEraseEndsWithTheArrayErased : WriteReady (withActs [.chipErase] idleDev)
    ∧ idleDev.params.pollBudget = none ∧ (withActs [.chipErase] idleDev).pending = .chipErase :: [] :=
  ⟨writeReady_withActs _, rfl, rfl⟩
/-- Without and with `wrsrBusy`, and its finishing step. -/
theorem test_wit_ResetWriteProtectionUnprotects : (let s := withActs [.resetWriteProtection] (dev 0x3C#8 false)
      Ready s ∧ Reference s ∧ s.params.wf = true ∧ s.params.wrsrBusy = false ∧ s.outside = [] ∧ s.dev.inflight = none
      ∧ isBusy s = false ∧ s.pending = .resetWriteProtection :: [])
    ∧ (let s := busyWrsr (withActs [.resetWriteProtection] (dev 0x3C#8 false))
      Ready s ∧ Reference s ∧ s.params.wf = true ∧ s.params.wrsrBusy = true ∧ s.params.pollBudget = none
      ∧ s.outside = [] ∧ s.dev.inflight = none ∧ isBusy s = false ∧ s.pending = .resetWriteProtection :: [])
    ∧ (erasingDev .writeStatus).outside = [] ∧ (erasingDev .writeStatus).dev.inflight = some ⟨.writeStatus, 0⟩ := by
  decide
/-- Both clauses, the second up to the end of the array. -/
theorem test_wit_ReadOperationsAreOneFrame : Ready idleDev ∧ Reference idleDev ∧ idleDev.outside = []
    ∧ idleDev.dev.inflight = none ∧ isBusy idleDev = false ∧ idleDev.dev.lost = []
    ∧ (0x1FFFFE#24 : Addr).toNat < idleDev.params.capacity
    ∧ (withActs [.readByte 0x1FFFFE] idleDev).pending = .readByte (0x1FFFFE#24 : Addr).toNat :: []
    ∧ (withActs [.readArray 0x1FFFFE 2] idleDev).pending = .readArray (0x1FFFFE#24 : Addr).toNat 2 :: []
    ∧ (0x1FFFFE#24 : Addr).toNat + 2 ≤ idleDev.params.capacity := by decide
/-- Nothing in flight; a busy device at the least time left; one that finishes during the call, at both ends. -/
theorem test_wit_IsWriteBusyIsOneStatusRead : (let s := withActs [.isWriteBusy] (busyDev 3)
      Ready s ∧ Reference s ∧ s.outside = [] ∧ s.pending = .isWriteBusy :: [])
    ∧ (∀ f, (busyDev 3).dev.inflight = some f → 3 ≤ f.left)
    ∧ (∀ f, idleDev.dev.inflight = some f → 3 ≤ f.left)
    ∧ (∃ f, (busyDev 0).dev.inflight = some f ∧ f.left < 3) ∧ ∃ f, (busyDev 2).dev.inflight = some f ∧ f.left < 3 :=
  ⟨by decide, by rintro f ⟨⟩; decide, by rintro f ⟨⟩, ⟨_, rfl, by decide⟩, ⟨_, rfl, by decide⟩⟩
theorem test_wit_RunsPartitionTheRange : (10 : Nat) ≠ 0 ∧ (runs 4090 10)[0]? = some (4090, 6)
    ∧ (runs 4090 10)[0 + 1]? = some (4096, 4) := by decide
theorem test_wit_SectorIndexMasksTwelveBits : 0xFFFFFF < 2 ^ 24 := by decide
/-- The widest address. -/
theorem test_wit_BeginWriteOpensASession : idleDev.block.inited = true ∧ 16777215 < 2 ^ 24 := by decide
theorem test_wit_FirstTouchErases : idleDev.block.inited = true := rfl
/-- E6: across a sector boundary. -/
theorem test_wit_IncrementalWriteStoresTheBuffer :
    (let s := { withActs [.writeIncrementalArray [1#8, 2#8, 3#8]] idleDev with session := ⟨.opened, 4094, []⟩ }
    WriteReady s ∧ s.params.pollBudget = none ∧ s.dev.lost = [] ∧ s.session.mode = .opened
    ∧ s.session.cursor + [1#8, 2#8, 3#8].length ≤ s.params.capacity
    ∧ s.pending = .writeIncrementalArray [1#8, 2#8, 3#8] :: []) := by
  have w := writeReady_withActs []
  exact ⟨⟨w.1, w.2, w.3, w.4, w.5, w.6, w.7, w.8⟩, rfl, rfl, rfl, by decide, rfl⟩
theorem test_wit_SplittingACallChangesNothing :
    (let s := { idleDev with session := ⟨.opened, 4090, []⟩ }
    WriteReady s ∧ s.params.pollBudget = none ∧ s.dev.lost = [] ∧ s.session.mode = .opened
    ∧ s.session.cursor + ([1#8, 2#8, 3#8].length + [4#8, 5#8].length) ≤ s.params.capacity) := by
  have w := writeReady_withActs []
  exact ⟨⟨w.1, w.2, w.3, w.4, w.5, w.6, w.7, w.8⟩, rfl, rfl, rfl, by decide⟩
theorem test_wit_OnlySessionOperationsTouchTheSession :
    onNext (perform (.beginWrite 8) idleDev) (fun t => t.session != idleDev.session) = true := by decide
/-- Each kind of operation in flight, and none. -/
theorem test_wit_PowerLossInterrupts : ({ idleDev with outside := [.powerLoss] } : State).outside = .powerLoss :: []
    ∧ idleDev.params.wf = true ∧ idleDev.dev.inflight = none
    ∧ (busyDev 0).dev.inflight = some ⟨.program 0x10 0x3C#8, 0⟩
    ∧ (erasingDev (.sectorErase 0xFFF)).dev.inflight = some ⟨.sectorErase 0xFFF, 0⟩
    ∧ (erasingDev .chipErase).dev.inflight = some ⟨.chipErase, 0⟩ := by decide
/-- Each thing that can be in progress, nothing, the second caller's own frame, and the first caller meeting it. -/
theorem test_wit_SecondCallerIsRefused :
    ({ idleDev with outside := [.secondCaller .init] } : State).outside = .secondCaller .init :: []
    ∧ blockBusy (shifting 3) = true ∧ (∃ x ∈ [Act.poll 0], isDriverRest x = true)
    ∧ ((handFrame false).block.inited = true ∧ (handFrame false).block.csn = false ∧ (handFrame false).guest = false)
    ∧ (blockBusy idleDev = false ∧ (∀ x ∈ idleDev.pending, isDriverRest x = false) ∧ linesInUse idleDev = false)
    ∧ (linesInUse (handFrame true) = true ∧ (handFrame true).guest = true ∧ (handFrame true).outside = []
      ∧ flightDue (handFrame true) = none ∧ blockBusy (handFrame true) = false
      ∧ isDriverRest (.putByte 0x00#8) = false) := by decide

end Sys2Proof.Tests
end

section
/-! PROOFS. The scope (spec/00_scope.md R3): every command with an unconstrained oracle in the place of the device. -/

namespace Sys2Proof.Machine

open Sys2Proof

/-! ### A ready state -/

/-- A ready machine takes up a transaction (R12, R170). -/
theorem transactionGate_of_ready {s : State} (h : Ready s) : transactionGate s = none := by
  obtain ⟨hinited, hphase, hxact, hcsn, hsck⟩ := h
  exact (transactionGate_none_iff s).2 ⟨hinited, hxact, hphase, hsck, hcsn⟩

/-! ### A command with the oracle -/

/-- Every command with the oracle: it completes with its frame on the wire, the device's side stays, and the bytes that
came in are the next ones of the script while it lasts (R3, R170; log 8). -/
theorem exec_oracle (i : Instr) {s : State} (h : Ready s) (ho : s.params.device = .oracle) :
    ∃ t ins, exec i s = .next t ∧ CommandRan i ins s t ∧ t.dev = s.dev
      ∧ (8 * ins.length ≤ s.script.length → ins.flatMap bitsOf = s.script.take (8 * ins.length)) := by
  obtain ⟨t, ins, ht, hran, hdev, hscript⟩ :=
    transaction_oracle (encodeFrame i) (transactionGate_of_ready h) ho
  refine ⟨_, ins, by rw [exec_transaction, ht, andThen_next], hran.command, ?_, hscript⟩
  split
  · exact hdev
  · exact hdev

/-- Settles O22: the transaction of the command's encoding, run with the oracle. -/
theorem everyCommandCompletesWithTheOracle : Obligations.EveryCommandCompletesWithTheOracle := by
  intro i s hready horacle
  obtain ⟨t, ins, hexec, hran, hdev, _⟩ := exec_oracle i hready horacle
  exact ⟨t, ins, hexec, hran, hdev⟩

/-! ### The bits of a list of bytes -/

@[simp] theorem bitsOf_length (v : Byte) : (bitsOf v).length = 8 := rfl

/-- A byte is made of its bits. -/
theorem bitsOf_injective : Function.Injective bitsOf := by
  intro v w h
  simp only [bitsOf, List.cons.injEq, and_true] at h
  obtain ⟨h7, h6, h5, h4, h3, h2, h1, h0⟩ := h
  refine eq_of_eight_bits fun i hi => ?_
  interval_cases i <;> assumption

theorem length_flatMap_bitsOf (vs : List Byte) : (vs.flatMap bitsOf).length = 8 * vs.length := by
  simp [List.length_flatMap, Nat.mul_comm]

/-- A list of bytes is made of its bits. -/
theorem flatMap_bitsOf_injective : Function.Injective fun vs : List Byte => vs.flatMap bitsOf := by
  intro vs
  induction vs with
  | nil =>
    intro ws h
    have hlen := congrArg List.length h
    simp only [length_flatMap_bitsOf, List.length_nil] at hlen
    exact (List.length_eq_zero_iff.1 (by omega)).symm
  | cons v vs ih =>
    intro ws h
    cases ws with
    | nil =>
      have hlen := congrArg List.length h
      simp only [length_flatMap_bitsOf, List.length_cons, List.length_nil] at hlen
      omega
    | cons w ws =>
      obtain ⟨hhead, htail⟩ := List.append_inj (by simpa using h) (by simp : (bitsOf v).length = (bitsOf w).length)
      rw [bitsOf_injective hhead, ih htail]

/-- Settles O23: with the bits of `ins` as the script, what came in has those bits, and so is `ins`. -/
theorem theOracleMayAnswerAnything : Obligations.TheOracleMayAnswerAnything := by
  intro i s ins hready horacle hlen
  obtain ⟨t, got, hexec, hran, _, hscript⟩ :=
    exec_oracle i (s := { s with script := ins.flatMap bitsOf }) hready horacle
  have hgot : got.length = ins.length := hran.lengths.trans hlen.symm
  have hbits : got.flatMap bitsOf = ins.flatMap bitsOf := by
    have htake := hscript (by rw [length_flatMap_bitsOf, hgot])
    rwa [hgot, ← length_flatMap_bitsOf, List.take_length] at htake
  obtain rfl : got = ins := flatMap_bitsOf_injective hbits
  exact ⟨t, hexec, hran⟩

end Sys2Proof.Machine
end

section
/-! PROOFS. The state (spec/10_state.md): what an act of a caller can change, said once for every act. -/

namespace Sys2Proof.Machine

open Sys2Proof

/-! ### What an act does to the session and to the block -/

/-- The session after an act: only `Init`, `BeginWrite` and two steps of `WriteIncrementalArray` change it (R28, R222). -/
def sessionAfter : Act → Session → Session
  | .init, w => { w with mode := .idle }
  | .beginWrite a, _ => ⟨.opened, a, []⟩
  | .markErased x, w => { w with erased := insertRising x w.erased }
  | .advanceCursor n, w => { w with cursor := w.cursor + n }
  | _, w => w

/-- The block after `Init` (R225). -/
def initBlock (b : Block) : Block :=
  { b with inited := true, sck := false, csn := true, phase := .idle, bitcnt := 0, xact := false, done := false }

/-- The block after the load that starts an exchange (R142, R143). -/
def loadedBlock (p : Params) (v : Byte) (b : Block) : Block :=
  { b with
    sr := loadReg v, bitcnt := 0, xact := true
    done := match p.transport with
      | .bitbang => b.done
      | .peripheral => false }

theorem loadByte_block (v : Byte) (s : State) : (loadByte v s).block = loadedBlock s.params v s.block := rfl

/-- The block before and after a whole transaction: the bus idle, the buffer full (R170). -/
structure TransactionOver (b b' : Block) : Prop where
  phase : b'.phase = .idle
  xact : b'.xact = false
  csn : b'.csn = true
  sck : b'.sck = false
  ranges : b.bitcnt ≤ 8 → b'.bitcnt ≤ 8 ∧ b'.idx = b'.len ∧ b'.buf.length = b'.len

/-- The block before and after the first micro-step of a transaction: from idle lines to the load of the opcode byte
(R170, R172). -/
structure TransactionBegun (b b' : Block) : Prop where
  sck_before : b.sck = false
  csn_before : b.csn = true
  phase : b'.phase = .opcode
  xact : b'.xact = true
  csn : b'.csn = false
  sck : b'.sck = false
  bitcnt : b'.bitcnt = 0
  idx : b'.idx = 0
  buf : b'.buf.length = b'.len

/-- What an act can do to the block. -/
inductive BlockActed (p : Params) : Act → Block → Block → Prop where
  | kept {a : Act} {b : Block} : BlockActed p a b b
  | data (l : Level) {b : Block} : BlockActed p (.setData l) b { b with dout := l }
  | clock (l : Level) {b : Block} : BlockActed p (.setClock l) b { b with sck := l }
  | select (sel : Bool) {b : Block} : BlockActed p (.selectChip sel) b { b with csn := !sel }
  | init {b : Block} : BlockActed p .init b (initBlock b)
  | exchange {a : Act} (v w : Byte) {b : Block} : b.sck = false → BlockActed p a b (exchangedBlock p v w b)
  | load {a : Act} (v : Byte) {b : Block} : b.sck = false → BlockActed p a b (loadedBlock p v b)
  | whole {a : Act} {b b' : Block} : TransactionOver b b' → BlockActed p a b b'
  | begun {a : Act} {b b' : Block} : TransactionBegun b b' → BlockActed p a b b'

/-- What an act can do to the machine, in any state: its parameters, the inputs and the note of the second caller stay,
the session is what the act says, the device moves as `DevMove` says. -/
structure Acted (a : Act) (s t : State) : Prop where
  params : t.params = s.params
  outside : t.outside = s.outside
  guest : t.guest = s.guest
  session : t.session = sessionAfter a s.session
  dev : DevMove s.params s.dev t.dev
  block : BlockActed s.params a s.block t.block

/-! ### The acts that move no line -/

/-- The acts that work on the lines themselves; the others are refused, or work on `pending`, the session and the
answer only. -/
def movesLines : Act → Bool
  | .init => true
  | .putByte _ => true
  | .getByte => true
  | .setClock _ => true
  | .setData _ => true
  | .readData => true
  | .selectChip _ => true
  | .transaction _ _ _ _ => true
  | .frame _ => true
  | .frameFine _ => true
  | .putByteFine _ => true
  | _ => false

theorem movesLines_of_driverRest {a : Act} (ha : isDriverRest a = true) : movesLines a = false := by
  cases a with
  | poll polls => rfl
  | pollTest polls => rfl
  | writeRun p bytes => rfl
  | markErased x => rfl
  | advanceCursor n => rfl
  | finishOp f => rfl
  | _ => cases ha

theorem withAddr_next {a : Nat} {f : Addr → Result} {t : State} (h : withAddr a f = .next t) :
    f (operandAddr a) = .next t := by
  unfold withAddr at h
  split at h
  · exact h
  · cases h

/-- An act that moves no line changes `pending`, the session as it says, and the answer (R210, R222). -/
theorem performInited_of_still {a : Act} {s t : State} (ha : movesLines a = false) (h : performInited a s = .next t) :
    t = { s with pending := t.pending, session := sessionAfter a s.session, ret := t.ret } := by
  cases a with
  | waitNotBusy => cases h; rfl
  | readByte a => unfold performInited opReadByte at h; cases withAddr_next h; rfl
  | readArray a n => unfold performInited opReadArray at h; cases withAddr_next h; rfl
  | writeByte a v => unfold performInited opWriteByte at h; cases withAddr_next h; rfl
  | sectorErase a => unfold performInited opSectorErase at h; cases withAddr_next h; rfl
  | chipErase => cases h; rfl
  | resetWriteProtection => cases h; rfl
  | isWriteBusy => cases h; rfl
  | readWord a => cases h
  | writeWord a v => cases h
  | beginWrite a => unfold performInited opBeginWrite at h; cases withAddr_next h; rfl
  | writeIncrementalArray buf =>
    simp only [performInited, opWriteIncrementalArray] at h
    split at h
    · cases h
    · split at h <;> cases h
      rfl
  | poll polls =>
    simp only [performInited, opPoll] at h
    split at h <;> cases h
    rfl
  | pollTest polls =>
    simp only [performInited, opPollTest] at h
    split at h <;> cases h <;> rfl
  | writeRun p bytes => cases h; rfl
  | markErased x => cases h; rfl
  | advanceCursor n => cases h; rfl
  | finishOp f => cases h; rfl
  | _ => cases ha

theorem Acted.of_still {a : Act} {s t : State}
    (h : t = { s with pending := t.pending, session := sessionAfter a s.session, ret := t.ret }) : Acted a s t := by
  rw [h]
  exact ⟨rfl, rfl, rfl, rfl, .refl _ _, .kept⟩

/-! ### The acts that work on the lines -/

theorem Acted.of_moved {a : Act} {s t : State} (h : Moved s t) (hs : sessionAfter a s.session = s.session)
    (hb : BlockActed s.params a s.block t.block) : Acted a s t :=
  ⟨h.params, h.outside, h.guest, h.session.trans hs.symm, h.dev, hb⟩

theorem Acted.of_push {a : Act} {as : List Act} {s t : State} (h : Acted a (push as s) t) : Acted a s t :=
  ⟨h.params, h.outside, h.guest, h.session, h.dev, h.block⟩

theorem ret_moved (s : State) (r : Ret) : Moved s { s with ret := r } := .blk rfl rfl rfl rfl rfl rfl

theorem endDirectExchange_eq (s : State) : endDirectExchange s = { s with ret := (endDirectExchange s).ret } := by
  unfold endDirectExchange
  split <;> rfl

theorem initClock_kept (s : State) :
    WireKept s (initClock s) ∧ (initClock s).block = { s.block with sck := false } := by
  unfold initClock
  split
  · obtain ⟨hkept, hblock, _⟩ := fallEdge_kept s
    exact ⟨hkept, hblock⟩
  · next hsck =>
    have hlow : s.block.sck = false := by simpa using hsck
    exact ⟨.refl s, by rw [← hlow]⟩

theorem acted_initRegisters {s t : State} (h : Moved s t) (hb : initBlock t.block = initBlock s.block) :
    Acted .init s (initRegisters t) := by
  refine ⟨h.params, h.outside, h.guest, ?_, h.dev, ?_⟩
  · show { t.session with mode := .idle } = { s.session with mode := .idle }
    rw [h.session]
  · show BlockActed s.params .init s.block (initBlock t.block)
    rw [hb]
    exact .init

theorem opInit_acted {s t : State} (h : opInit s = .next t) : Acted .init s t := by
  unfold opInit at h
  split at h
  · obtain ⟨u, hu, h⟩ := andThen_eq_next.1 h
    cases h
    obtain ⟨hclock, hcblock⟩ := initClock_kept s
    obtain ⟨hmoved, hblock⟩ := (setCsn_res true (initClock s)).1 u hu
    exact acted_initRegisters ((Moved.of hclock).trans hmoved) (by rw [hblock, hcblock]; rfl)
  · cases h
    exact acted_initRegisters (.blk rfl rfl rfl rfl rfl rfl) rfl

theorem opPutByte_acted {a : Act} {v : Byte} {s t : State} (hs : sessionAfter a s.session = s.session)
    (h : opPutByte v s = .next t) : Acted a s t := by
  unfold opPutByte at h
  split at h
  · cases h
  · next hsck =>
    obtain ⟨u, hu, h⟩ := andThen_eq_next.1 h
    cases h
    obtain ⟨hkept, w, hblock⟩ := (putByte_res v s).1 u hu
    rw [endDirectExchange_eq]
    refine .of_moved ((Moved.of hkept).trans (ret_moved u _)) hs ?_
    rw [hblock]
    exact .exchange v w (by simpa using hsck)

theorem opPutByteFine_acted {v : Byte} {s t : State} (h : opPutByteFine v s = .next t) :
    Acted (.putByteFine v) s t := by
  unfold opPutByteFine at h
  split at h <;> cases h
  next hsck => exact .of_moved (.blk rfl rfl rfl rfl rfl rfl) rfl (.load v (by simpa using hsck))

theorem opSetClock_acted {l : Level} {s t : State} (h : opSetClock l s = .next t) : Acted (.setClock l) s t := by
  unfold opSetClock at h
  split at h
  · cases h
    exact .of_moved (ret_moved s _) rfl (.kept)
  · split at h
    · next hl =>
      obtain ⟨u, hu, h⟩ := andThen_eq_next.1 h
      cases h
      obtain ⟨hsample, hsblock, _⟩ := afterSample_kept s
      obtain ⟨hrise, hblock, _⟩ := riseWith_kept hu
      refine .of_moved ((Moved.of (hsample.trans hrise)).trans (ret_moved u _)) rfl ?_
      rw [hblock, hsblock, hl]
      exact .clock true
    · next hl =>
      cases h
      obtain ⟨hfall, hblock, _⟩ := fallEdge_kept s
      refine .of_moved ((Moved.of hfall).trans (ret_moved _ _)) rfl ?_
      rw [hblock, Bool.eq_false_of_not_eq_true hl]
      exact .clock false

theorem opReadData_acted {s t : State} (h : opReadData s = .next t) : Acted .readData s t := by
  cases h
  obtain ⟨hkept, hblock, _⟩ := afterSample_kept s
  refine .of_moved ((Moved.of hkept).trans (ret_moved _ _)) rfl ?_
  rw [hblock]
  exact .kept

theorem opSelectChip_acted {sel : Bool} {s t : State} (h : opSelectChip sel s = .next t) :
    Acted (.selectChip sel) s t := by
  unfold opSelectChip at h
  split at h
  · cases h
  · obtain ⟨u, hu, h⟩ := andThen_eq_next.1 h
    cases h
    obtain ⟨hmoved, hblock⟩ := (setCsn_res (!sel) s).1 u hu
    refine .of_moved (hmoved.trans (ret_moved u _)) rfl ?_
    rw [hblock]
    exact .select sel

/-! ### Transactions and frames -/

/-- Inside a frame the reference device has moved its decoding position only, the oracle not at all. -/
theorem Sending.moved {s t : State} {r : Request} {outs ins : List Byte} (h : Sending s r outs ins t) : Moved s t := by
  have i := h.inFrame
  refine ⟨i.params, i.session, i.pending, i.outside, i.guest, ?_⟩
  cases hk : s.params.device with
  | reference =>
    rw [(i.dev_reference hk).frame]
    exact ⟨rfl, rfl, fun _ => (by decide : 0 < 8), fun _ => .inl ⟨rfl, rfl⟩⟩
  | oracle =>
    rw [i.dev_oracle hk]
    exact .refl _ _

theorem transaction_gate {r : Request} {s t : State} (h : transaction r s = .next t) : transactionGate s = none := by
  unfold transaction at h
  split at h
  · cases h
  · assumption

/-- A transaction that ends, in any state it was begun in. -/
theorem transaction_acted {r : Request} {s t : State} (h : transaction r s = .next t) :
    Moved s t ∧ TransactionOver s.block t.block := by
  rcases transaction_cases r (transaction_gate h) with ⟨u, hins, got, hu, hs, _⟩ | ⟨f, hf, _⟩
  · obtain ⟨hmoved, hblock⟩ := endFrame_res.1 t (hu ▸ h)
    refine ⟨hs.moved.trans hmoved, ?_⟩
    have hranges : s.block.bitcnt ≤ 8 → t.block.bitcnt ≤ 8 ∧ t.block.idx = t.block.len
        ∧ t.block.buf.length = t.block.len := fun hb => by
      obtain ⟨_, hmid, hidx, _⟩ := (transaction_res r hb).1 t h
      exact ⟨hmid.bitcnt, hidx, hmid.buf⟩
    refine ⟨?_, ?_, ?_, ?_, hranges⟩ <;> rw [hblock]
    · exact hs.inFrame.xact
    · exact hs.inFrame.sck
  · rw [hf] at h
    cases h

/-- A transaction begun on idle lines and left to run by micro-steps. -/
theorem beginFine_acted {r : Request} {s t : State} (h : beginFine r s = .next t) :
    Moved s t ∧ TransactionBegun s.block t.block := by
  unfold beginFine at h
  split at h
  · cases h
  · next hgate =>
    obtain ⟨_, _, _, hsck, hcsn⟩ := (transactionGate_none_iff s).1 hgate
    obtain ⟨u, hu, hs, hidx, hbuf, hphase, _⟩ := startFrame_next r hgate
    rw [hu, andThen_next, loadPhase, if_neg (by rw [hphase]; simp)] at h
    cases h
    exact ⟨hs.moved.trans (.blk rfl rfl rfl rfl rfl rfl), hsck, hcsn, hphase, rfl, hs.inFrame.csn, hs.inFrame.sck, rfl,
      hidx, (congrArg List.length hbuf).trans hs.inFrame.len.symm⟩

theorem admittedTransaction_acted {r : Request} {s t : State} (h : admittedTransaction r s = .next t) :
    Moved s t ∧ TransactionOver s.block t.block := by
  unfold admittedTransaction at h
  split at h
  · exact transaction_acted h
  · cases h

theorem opTransaction_acted {opc : Byte} {addr : Option Nat} {dir : Dir} {buf : List Byte} {s t : State}
    (h : opTransaction opc addr dir buf s = .next t) : Acted (.transaction opc addr dir buf) s t := by
  have hrun : Moved s t ∧ TransactionOver s.block t.block := by
    cases addr with
    | none => exact admittedTransaction_acted h
    | some a => unfold opTransaction at h; exact admittedTransaction_acted (withAddr_next h)
  exact .of_moved hrun.1 rfl (.whole hrun.2)

theorem exec_acted {i : Instr} {s t : State} (h : exec i s = .next t) : Moved s t ∧ TransactionOver s.block t.block := by
  rw [exec_transaction] at h
  obtain ⟨u, hu, h⟩ := andThen_eq_next.1 h
  obtain ⟨hmoved, hover⟩ := transaction_acted hu
  split at h <;> cases h
  · exact ⟨hmoved.trans (ret_moved u _), hover⟩
  · exact ⟨hmoved, hover⟩

theorem opFrame_acted {outs : List Byte} {s t : State} (h : opFrame outs s = .next t) : Acted (.frame outs) s t := by
  unfold opFrame at h
  split at h
  · obtain ⟨hmoved, hover⟩ := exec_acted h
    exact .of_moved hmoved rfl (.whole hover)
  · cases h

theorem opFrameFine_acted {outs : List Byte} {s t : State} (h : opFrameFine outs s = .next t) :
    Acted (.frameFine outs) s t := by
  unfold opFrameFine at h
  split at h
  · next i _ =>
    obtain ⟨hmoved, hbegun⟩ := beginFine_acted h
    exact .of_push (.of_moved hmoved rfl (.begun hbegun))
  · cases h

/-! ### Every act -/

/-- WHAT AN ACT CAN DO, in any state. -/
theorem performInited_acted {a : Act} {s t : State} (h : performInited a s = .next t) : Acted a s t := by
  cases ha : movesLines a with
  | false => exact .of_still (performInited_of_still ha h)
  | true =>
    cases a with
    | init => exact opInit_acted h
    | putByte v => exact opPutByte_acted rfl h
    | getByte => exact opPutByte_acted rfl h
    | setClock l => exact opSetClock_acted h
    | setData l => cases h; exact .of_moved (.blk rfl rfl rfl rfl rfl rfl) rfl (.data l)
    | readData => exact opReadData_acted h
    | selectChip sel => exact opSelectChip_acted h
    | transaction opc addr dir buf => exact opTransaction_acted h
    | frame outs => exact opFrame_acted h
    | frameFine outs => exact opFrameFine_acted h
    | putByteFine v => exact opPutByteFine_acted h
    | _ => cases ha

theorem performInited_of_perform {a : Act} {s t : State} (h : perform a s = .next t) :
    performInited a s = .next t := by
  unfold perform at h
  split at h
  · exact h
  · cases h

theorem perform_acted {a : Act} {s t : State} (h : perform a s = .next t) : Acted a s t :=
  performInited_acted (performInited_of_perform h)

/-- A piece of a driver operation that has begun leaves the block alone: its frames are acts of their own. -/
theorem perform_driverRest_block {a : Act} {s t : State} (ha : isDriverRest a = true) (h : perform a s = .next t) :
    t.block = s.block := by
  rw [performInited_of_still (movesLines_of_driverRest ha) (performInited_of_perform h)]

/-- Settles O57: the session after an act is `sessionAfter`. -/
theorem onlySessionOperationsTouchTheSession : Obligations.OnlySessionOperationsTouchTheSession := by
  intro a s t h hne
  rw [(perform_acted h).session] at hne
  cases a with
  | init => exact .inl rfl
  | beginWrite x => exact .inr (.inl ⟨x, rfl⟩)
  | markErased x => exact .inr (.inr (.inl ⟨x, rfl⟩))
  | advanceCursor n => exact .inr (.inr (.inr ⟨n, rfl⟩))
  | _ => exact absurd rfl hne

end Sys2Proof.Machine
end

section
/-! PROOFS. The state (spec/10_state.md): what a micro-step and a machine step can change, said once, and what every step
keeps. -/

namespace Sys2Proof.Machine

open Sys2Proof

/-! ### What a micro-step of the block can do (R143, R148, R172) -/

/-- Along an arc of the framer inside a transaction: the lines and the exchange stay, IDX and BUF stay in range (R172). -/
structure FramerArc (b c : Block) : Prop where
  phase : c.phase ≠ .idle
  sck : c.sck = b.sck
  csn : c.csn = b.csn
  xact : c.xact = b.xact
  done : c.done = b.done
  bitcnt : c.bitcnt = b.bitcnt
  idx : b.idx ≤ b.len → c.idx ≤ c.len
  buf : b.buf.length = b.len → c.buf.length = c.len

/-- What a micro-step can do to the block: a bit cell, the end of an exchange, an arc of the framer with or without the
load of the next byte, the end of the transaction. -/
inductive BlockResumed (p : Params) (b : Block) : Block → Prop where
  | cell (d : Level) (x : Bool) : b.xact = true → b.bitcnt < 8 → (p.transport = .peripheral → x = true) →
      BlockResumed p b { cellBlock d b with xact := x }
  | completed (dn : Bool) : b.xact = true → (p.transport = .peripheral → dn = true) →
      BlockResumed p b { b with xact := false, done := dn }
  | rest : b.xact = false → b.phase = .idle → BlockResumed p b b
  | arc {c : Block} : b.xact = false → b.phase ≠ .idle → (p.transport = .peripheral → b.done = true) →
      FramerArc b c → BlockResumed p b c
  | arcLoad {c : Block} (v : Byte) : b.xact = false → b.phase ≠ .idle → FramerArc b c →
      BlockResumed p b (loadedBlock p v c)
  | ended : b.xact = false → b.phase ≠ .idle → BlockResumed p b { b with csn := true, phase := .idle }

theorem nextPhase_ne_idle (ap : Bool) (p : Phase) : nextPhase ap p ≠ .idle := by
  cases p with
  | idle => simp [nextPhase]
  | opcode => simp only [nextPhase]; split <;> simp
  | addr k => obtain ⟨_ | n, hk⟩ := k <;> simp [nextPhase, afterPlace]
  | payload => simp [nextPhase]

theorem nextPhase_arc (ap : Bool) (p : Phase) (b : Block) : FramerArc b { b with phase := nextPhase ap p } :=
  ⟨nextPhase_ne_idle _ _, rfl, rfl, rfl, rfl, rfl, id, id⟩

theorem storePayload_arc {b : Block} (hp : b.phase = .payload) (hi : b.idx < b.len) : FramerArc b (storePayload b) := by
  unfold storePayload
  cases b.dir with
  | inbound => exact ⟨by simp [hp], rfl, rfl, rfl, rfl, rfl, fun _ => hi, fun hb => by simpa using hb⟩
  | outbound => exact ⟨by simp [hp], rfl, rfl, rfl, rfl, rfl, fun _ => hi, id⟩

/-- The load of the byte the phase names, after an arc of the framer. -/
theorem loadPhase_resumed {p : Params} {b : Block} {s : State} (hx : b.xact = false) (hp : b.phase ≠ .idle)
    (hd : p.transport = .peripheral → b.done = true) (hpar : s.params = p) (h : FramerArc b s.block) :
    Moved s (loadPhase s) ∧ BlockResumed p b (loadPhase s).block := by
  unfold loadPhase
  split
  · exact ⟨.refl s, .arc hx hp hd h⟩
  · refine ⟨.blk rfl rfl rfl rfl rfl rfl, ?_⟩
    rw [loadByte_block, hpar]
    exact .arcLoad _ hx hp h

/-- The framer's micro-step between two exchanges. -/
theorem framerStep_resumed {s t : State} (hx : s.block.xact = false)
    (hd : s.params.transport = .peripheral → s.block.done = true) (h : framerStep s = .next t) :
    Moved s t ∧ BlockResumed s.params s.block t.block := by
  have hblk : ∀ b : Block, Moved s { s with block := b } := fun b => .blk rfl rfl rfl rfl rfl rfl
  have harc : s.block.phase ≠ .idle → ∀ b, FramerArc s.block b →
      Moved s (loadPhase { s with block := b })
      ∧ BlockResumed s.params s.block (loadPhase { s with block := b }).block := fun hp b hb => by
    obtain ⟨hmoved, hres⟩ := loadPhase_resumed (s := { s with block := b }) hx hp hd rfl hb
    exact ⟨(hblk b).trans hmoved, hres⟩
  unfold framerStep at h
  cases hp : s.block.phase with
  | idle =>
    rw [hp] at h
    cases h
    exact ⟨.refl s, .rest hx hp⟩
  | payload =>
    rw [hp] at h
    simp only at h
    split at h
    · next hi =>
      cases h
      exact harc (by simp [hp]) _ (storePayload_arc hp hi)
    · obtain ⟨hmoved, hblock⟩ := endFrame_res.1 t h
      rw [hblock]
      exact ⟨hmoved, .ended hx (by simp [hp])⟩
  | opcode =>
    rw [hp] at h
    cases h
    exact harc (by simp [hp]) _ (nextPhase_arc _ _ _)
  | addr k =>
    rw [hp] at h
    cases h
    exact harc (by simp [hp]) _ (nextPhase_arc _ _ _)

/-- WHAT A MICRO-STEP CAN DO, in any state. -/
theorem resume_resumed {s t : State} (h : resume s = .next t) :
    Moved s t ∧ BlockResumed s.params s.block t.block := by
  unfold resume at h
  split at h
  · next hx =>
    obtain ⟨u, hu, h⟩ := andThen_eq_next.1 h
    cases h
    rw [endDirectExchange_eq]
    obtain ⟨hkept, hcell | hend⟩ := (transportStep_res s).1 u hu
    · obtain ⟨h8, d, hblock, hper⟩ := hcell
      refine ⟨(Moved.of hkept).trans (ret_moved u _), ?_⟩
      show BlockResumed _ _ u.block
      rw [hblock]
      exact .cell d _ hx h8 fun hp => (hper hp).trans hx
    · obtain ⟨_, hblock, hper⟩ := hend
      refine ⟨(Moved.of hkept).trans (ret_moved u _), ?_⟩
      show BlockResumed _ _ u.block
      rw [hblock]
      exact .completed _ hx hper
  · next hx =>
    split at h
    · cases h
    · next hw =>
      refine framerStep_resumed (by simpa using hx) (fun hp => ?_) h
      simpa [waitsForever, hp] using hw

/-! ### What a machine step can do -/

/-- The state once the next input from outside has been taken. -/
def heard (s : State) : State := { s with outside := s.outside.tail }

@[simp] theorem heard_params (s : State) : (heard s).params = s.params := rfl
@[simp] theorem heard_block (s : State) : (heard s).block = s.block := rfl
@[simp] theorem heard_session (s : State) : (heard s).session = s.session := rfl
@[simp] theorem heard_dev (s : State) : (heard s).dev = s.dev := rfl
@[simp] theorem heard_pending (s : State) : (heard s).pending = s.pending := rfl
@[simp] theorem heard_guest (s : State) : (heard s).guest = s.guest := rfl

theorem heard_of_nil {s : State} (h : s.outside = []) : heard s = s := by
  unfold heard
  rw [h, List.tail_nil, ← h]

theorem heard_of_cons {s : State} {o : Outside} {rest : List Outside} (h : s.outside = o :: rest) :
    heard s = { s with outside := rest } := by
  unfold heard
  rw [h, List.tail_cons]

theorem blockBusy_tick_heard (s : State) : blockBusy (tick (heard s)) = blockBusy s := by
  simp [blockBusy]

/-- Nothing comes from outside in this step. -/
abbrev QuietOutside (s : State) : Prop := s.outside = [] ∨ ∃ rest, s.outside = .quiet :: rest

/-- The agent whose step leads from `s` to `t`: the outside, the device, the block, or a caller (R8). -/
inductive StepCase (s t : State) : Prop where
  | powerLoss (rest : List Outside) : s.outside = .powerLoss :: rest → t = powerCycle (heard s) → StepCase s t
  | secondCaller (a : Act) (rest : List Outside) (u : State) : s.outside = .secondCaller a :: rest →
      mixes s = false → perform a (tick (heard s)) = .next u → t = noteGuest (linesInUse s) u → StepCase s t
  | finish (f : Flight) : QuietOutside s → s.dev.inflight = some f → f.left = 0 → t = finishFlight f (heard s) →
      StepCase s t
  | block : blockBusy s = true → resume (tick (heard s)) = .next t → StepCase s t
  | rest : t = tick (heard s) → StepCase s t
  | caller (a : Act) (rest : List Act) : flightDue s = none → blockBusy s = false → s.pending = a :: rest →
      (guestHolds s = true → isDriverRest a = true) → perform a { tick (heard s) with pending := rest } = .next t →
      StepCase s t

theorem flightDue_eq_some {s : State} {f : Flight} (h : flightDue s = some f) :
    s.dev.inflight = some f ∧ f.left = 0 := by
  unfold flightDue at h
  split at h
  · split at h <;> cases h
    exact ⟨‹_›, ‹_›⟩
  · cases h

/-- A step of an agent inside: of the device when it is due, of the block, or of the caller. -/
theorem insideStep_case {s t : State} (hq : QuietOutside s) (h : insideStep (heard s) = .next t) : StepCase s t := by
  unfold insideStep at h
  split at h
  · next f hf =>
    cases h
    obtain ⟨hflight, hleft⟩ := flightDue_eq_some hf
    exact .finish f hq hflight hleft rfl
  · next hf =>
    unfold blockStep at h
    split at h
    · next hb =>
      exact .block ((blockBusy_tick_heard s).symm.trans hb) h
    · next hb =>
      have hbusy : blockBusy s = false := by simpa [blockBusy_tick_heard] using hb
      unfold callerStep at h
      split at h
      · cases h
        exact .rest rfl
      · next a rest hpend =>
        split at h
        · cases h
        · next hg =>
          refine .caller a rest hf hbusy (by simpa using hpend) (fun hguest => ?_) h
          have hholds : guestHolds (tick (heard s)) = true := (tick_guestHolds (heard s)).trans hguest
          simpa [hholds] using hg

/-- WHAT A STEP CAN DO: whose step it is, and what it does (R8). -/
theorem step_cases {s t : State} (h : step s = .next t) : StepCase s t := by
  unfold step takeTurn at h
  split at h
  · next ho => exact insideStep_case (.inl ho) (by rwa [heard_of_nil ho])
  · next rest ho => exact insideStep_case (.inr ⟨rest, ho⟩) (by rwa [heard_of_cons ho])
  · next rest ho =>
    cases h
    exact .powerLoss rest ho (by rw [heard_of_cons ho])
  · next a rest ho =>
    rw [← heard_of_cons ho] at h
    unfold secondCallerStep at h
    split at h
    · cases h
    · next hm =>
      obtain ⟨u, hu, h⟩ := andThen_eq_next.1 h
      cases h
      have hmix : mixes s = false := Bool.eq_false_of_not_eq_true hm
      exact .secondCaller a rest u ho hmix hu rfl

/-! ### The parameters and the array -/

/-- Settles O39: no agent's step writes the parameters. -/
theorem parametersAreFixed : Obligations.ParametersAreFixed := by
  intro s t h
  cases step_cases h with
  | powerLoss rest _ ht => rw [ht]; rfl
  | secondCaller a rest u _ _ hu ht => rw [ht, noteGuest_params, (perform_acted hu).params, tick_params]; rfl
  | finish f _ _ _ ht => rw [ht]; rfl
  | block _ hr => rw [(resume_resumed hr).1.params, tick_params]; rfl
  | rest ht => rw [ht, tick_params]; rfl
  | caller a rest _ _ _ _ hu => exact (perform_acted hu).params.trans (tick_params _)

/-- Settles O32: every step but the device's finishing step keeps the array. -/
theorem onlyTheFinishingStepWritesTheArray : Obligations.OnlyTheFinishingStepWritesTheArray := by
  intro s t h hne
  cases step_cases h with
  | finish f hq hflight hleft _ => exact ⟨hq, f.op, by rw [hflight, ← hleft]⟩
  | powerLoss rest _ ht => exact absurd (by rw [ht]; rfl) hne
  | secondCaller a rest u _ _ hu ht =>
    exact absurd (by rw [ht, noteGuest_dev, (perform_acted hu).dev.mem, tick_dev_mem]; rfl) hne
  | block _ hr => exact absurd (by rw [(resume_resumed hr).1.dev.mem, tick_dev_mem]; rfl) hne
  | rest ht => exact absurd (by rw [ht, tick_dev_mem]; rfl) hne
  | caller a rest _ _ _ _ hu => exact absurd ((perform_acted hu).dev.mem.trans (tick_dev_mem _)) hne

end Sys2Proof.Machine
end

section
/-! PROOFS. The state (spec/10_state.md R37): reset meets the invariant, every step keeps it, and only a caller's own
`setClock(1)` or `selectChip(true)` takes the lines from rest. -/

namespace Sys2Proof.Machine

open Sys2Proof

/-! ### The device's part -/

/-- A device holding `m` that is idle and at rest in its decoding, as after power-on (R282). -/
theorem DevInv.powerOn {p : Params} {m : Memory} {lost : List Nat} (hp : p.wf = true) (hm : memWf m = true)
    (hrange : ∀ c ∈ m, c.1 < p.capacity) (hrise : Rising lost)
    (hlost : ∀ x ∈ lost, x < p.capacity ∧ x % Config.sectorSize = 0) :
    DevInv p { Device.powerOn p m with lost := lost } where
  mem_wf := hm
  mem_range := hrange
  busy_iff := (Params.wf_bits hp).2.1
  flight_range f hf := by cases hf
  rx_bits := Nat.zero_lt_succ 7
  lost_rising := hrise
  lost_range := hlost

theorem DevInv.move {p : Params} {d d' : Device} (hp : p.wf = true) (h : DevInv p d) (k : DevMove p d d') :
    DevInv p d' where
  mem_wf := by rw [k.mem]; exact h.mem_wf
  mem_range := by rw [k.mem]; exact h.mem_range
  busy_iff := by
    rcases k.busy hp with ⟨hbusy, hflight⟩ | ⟨hbusy, f, hflight, _⟩
    · rw [hbusy, hflight, h.busy_iff]
    · rw [hbusy, hflight]; rfl
  flight_range f hf := by
    rcases k.busy hp with ⟨_, hflight⟩ | ⟨_, g, hflight, hrange⟩
    · exact h.flight_range f (hflight ▸ hf)
    · rw [hflight] at hf
      cases hf
      exact hrange
  rx_bits := k.rxBits h.rx_bits
  lost_rising := by rw [k.lost]; exact h.lost_rising
  lost_range := by rw [k.lost]; exact h.lost_range

theorem DevInv.tick {p : Params} {s : State} (h : DevInv p s.dev) : DevInv p (tick s).dev := by
  cases hf : s.dev.inflight with
  | none => rwa [tick_of_none hf]
  | some g =>
    have hflight := tick_of_some (op := g.op) (n := g.left) hf
    have hsome : (Machine.tick s).dev.inflight.isSome = s.dev.inflight.isSome := by rw [hflight, hf]; rfl
    refine ⟨by rw [tick_dev_mem]; exact h.mem_wf, by rw [tick_dev_mem]; exact h.mem_range,
      by rw [tick_dev_status, hsome, h.busy_iff], fun f hf' => ?_, by rw [tick_dev_rxBits]; exact h.rx_bits,
      by rw [tick_dev_lost]; exact h.lost_rising, by rw [tick_dev_lost]; exact h.lost_range⟩
    rw [hflight] at hf'
    cases hf'
    exact h.flight_range g hf

/-- An operation's effect keeps the array canonical and inside the capacity (R66 to R68). -/
theorem flightEffect_mem {op : FlightOp} {s : State} (h : DevInv s.params s.dev)
    (hop : flightInRange s.params.capacity op = true) :
    memWf (flightEffect op s).mem = true ∧ ∀ c ∈ (flightEffect op s).mem, c.1 < s.params.capacity := by
  cases op with
  | program a v =>
    simp only [flightEffect, programEffect]
    split
    · exact ⟨h.mem_wf, h.mem_range⟩
    · refine ⟨memWf_memWrite h.mem_wf, fun c hc => ?_⟩
      rcases mem_memWrite hc with haddr | hmem
      · rw [haddr]; exact of_decide_eq_true hop
      · exact h.mem_range c hmem
  | sectorErase a => exact ⟨memWf_memErase h.mem_wf, fun c hc => h.mem_range c (mem_memErase hc)⟩
  | chipErase => exact ⟨memWf_memErase h.mem_wf, fun c hc => h.mem_range c (mem_memErase hc)⟩
  | writeStatus => exact ⟨h.mem_wf, h.mem_range⟩

/-- An operation's effect makes no sector undefined (R74). -/
theorem flightEffect_lost (op : FlightOp) (s : State) : (flightEffect op s).lost.Sublist s.dev.lost := by
  cases op with
  | program a v => simp only [flightEffect, programEffect]; split <;> exact .refl _
  | sectorErase a => exact List.filter_sublist
  | chipErase => exact List.nil_sublist _
  | writeStatus => exact .refl _

theorem DevInv.finish {s : State} {f : Flight} (h : DevInv s.params s.dev) (hf : s.dev.inflight = some f) :
    DevInv s.params (finishFlight f s).dev := by
  obtain ⟨hmem, hrange⟩ := flightEffect_mem h (h.flight_range f hf)
  have hlost := flightEffect_lost f.op s
  refine ⟨hmem, hrange, finishedStatus_busy f.op s, fun g hg => (by cases hg), ?_,
    List.Pairwise.sublist hlost h.lost_rising, fun x hx => h.lost_range x (hlost.subset hx)⟩
  show (flightEffect f.op s).rxBits < _
  rw [flightEffect_frame]
  exact h.rx_bits

/-- What an interrupted operation leaves undefined are sectors of the array (R74). -/
theorem interruptedSectors_range {p : Params} {o : Option Flight} {x : Nat}
    (h : ∀ f, o = some f → flightInRange p.capacity f.op = true) (hx : x ∈ interruptedSectors p o) :
    x < p.capacity ∧ x % Config.sectorSize = 0 := by
  have hsector : ∀ a, a < p.capacity → sectorIndex a < p.capacity ∧ sectorIndex a % Config.sectorSize = 0 :=
    fun a ha => ⟨lt_of_le_of_lt (sectorIndex_le a) ha, sectorIndex_mod a⟩
  match o, h, hx with
  | some ⟨.program a _, _⟩, h, hx =>
    rw [List.mem_singleton.1 hx]
    exact hsector a (of_decide_eq_true (h _ rfl))
  | some ⟨.sectorErase a, _⟩, h, hx =>
    rw [List.mem_singleton.1 hx]
    exact hsector a (of_decide_eq_true (h _ rfl))
  | some ⟨.chipErase, _⟩, _, hx =>
    obtain ⟨k, hk, rfl⟩ := List.mem_map.1 hx
    have hlt := List.mem_range.1 hk
    exact ⟨by unfold Config.sectorSize at *; omega, Nat.mul_mod_left _ _⟩
  | some ⟨.writeStatus, _⟩, _, hx => cases hx
  | none, _, hx => cases hx

theorem mem_foldr_insertRising {x : Nat} {l base : List Nat} :
    x ∈ l.foldr insertRising base ↔ x ∈ l ∨ x ∈ base := by
  induction l with
  | nil => simp
  | cons y l ih => rw [List.foldr_cons, mem_insertRising, ih, List.mem_cons, or_assoc]

theorem rising_foldr_insertRising {l base : List Nat} (h : Rising base) : Rising (l.foldr insertRising base) := by
  induction l with
  | nil => exact h
  | cons y l ih => exact rising_insertRising ih

theorem DevInv.powerCycle {s : State} (hp : s.params.wf = true) (h : DevInv s.params s.dev) :
    DevInv s.params (powerCycledDevice s) := by
  refine .powerOn hp h.mem_wf h.mem_range (rising_foldr_insertRising h.lost_rising) fun x hx => ?_
  rcases mem_foldr_insertRising.1 hx with hinterrupted | hlost
  · exact interruptedSectors_range h.flight_range hinterrupted
  · exact h.lost_range x hlost

/-! ### The block's part -/

/-- Outside an exchange and a transaction only the ranges are asked of the block. -/
theorem BlockInv.of_idle {p : Params} {b : Block} (hx : b.xact = false) (hp : b.phase = .idle) (h8 : b.bitcnt ≤ 8)
    (hi : b.idx ≤ b.len) (hb : b.buf.length = b.len) : BlockInv p b where
  bitcnt_le := h8
  idx_le := hi
  buf_length := hb
  clock_low h := by simp [hx, hp] at h
  selected h := absurd hp h
  done_set _ h := absurd hp h

/-- While an exchange is in progress DONE is not asked for. -/
theorem BlockInv.of_xact {p : Params} {b : Block} (hx : b.xact = true) (hs : b.sck = false)
    (hc : b.phase ≠ .idle → b.csn = false) (h8 : b.bitcnt ≤ 8) (hi : b.idx ≤ b.len) (hb : b.buf.length = b.len) :
    BlockInv p b where
  bitcnt_le := h8
  idx_le := hi
  buf_length := hb
  clock_low _ := hs
  selected := hc
  done_set _ _ h := by rw [hx] at h; cases h

theorem BlockInv.reset (p : Params) (i : Bool) : BlockInv p { Block.reset with inited := i } :=
  .of_idle rfl rfl (Nat.zero_le 8) (Nat.le_refl 0) rfl

/-- An act taken up with nothing in progress keeps the block's part. -/
theorem BlockInv.acted {p : Params} {a : Act} {b b' : Block} (h : BlockInv p b) (hx : b.xact = false)
    (hp : b.phase = .idle) (k : BlockActed p a b b') : BlockInv p b' := by
  cases k with
  | kept => exact h
  | data l => exact .of_idle hx hp h.bitcnt_le h.idx_le h.buf_length
  | clock l => exact .of_idle hx hp h.bitcnt_le h.idx_le h.buf_length
  | select sel => exact .of_idle hx hp h.bitcnt_le h.idx_le h.buf_length
  | init => exact .of_idle rfl rfl (Nat.zero_le 8) h.idx_le h.buf_length
  | exchange v w hs => exact .of_idle rfl hp (Nat.le_refl 8) h.idx_le h.buf_length
  | load v hs => exact .of_xact rfl hs h.selected (Nat.zero_le 8) h.idx_le h.buf_length
  | whole hover =>
    obtain ⟨h8, hidx, hbuf⟩ := hover.ranges h.bitcnt_le
    exact .of_idle hover.xact hover.phase h8 (Nat.le_of_eq hidx) hbuf
  | begun hb =>
    exact .of_xact hb.xact hb.sck (fun _ => hb.csn) (hb.bitcnt ▸ Nat.zero_le 8) (hb.idx ▸ Nat.zero_le _) hb.buf

/-- A micro-step keeps the block's part. -/
theorem BlockInv.resumed {p : Params} {b b' : Block} (h : BlockInv p b) (k : BlockResumed p b b') : BlockInv p b' := by
  cases k with
  | cell d x hx h8 hper =>
    exact ⟨h8, h.idx_le, h.buf_length, fun _ => rfl, h.selected, fun htr _ hx' => by rw [hper htr] at hx'; cases hx'⟩
  | completed dn hx hper =>
    exact ⟨h.bitcnt_le, h.idx_le, h.buf_length, fun _ => h.clock_low (.inl hx), h.selected, fun htr _ _ => hper htr⟩
  | rest => exact h
  | arc hx hp hd harc =>
    exact ⟨harc.bitcnt ▸ h.bitcnt_le, harc.idx h.idx_le, harc.buf h.buf_length,
      fun _ => harc.sck.trans (h.clock_low (.inr hp)), fun _ => harc.csn.trans (h.selected hp),
      fun htr _ _ => harc.done.trans (hd htr)⟩
  | arcLoad v hx hp harc =>
    exact .of_xact rfl (harc.sck.trans (h.clock_low (.inr hp))) (fun _ => harc.csn.trans (h.selected hp))
      (Nat.zero_le 8) (harc.idx h.idx_le) (harc.buf h.buf_length)
  | ended hx hp => exact .of_idle hx rfl h.bitcnt_le h.idx_le h.buf_length

/-! ### The second caller's exchange or frame (log 19) -/

theorem blockBusy_eq_false_iff (s : State) : blockBusy s = false ↔ s.block.xact = false ∧ s.block.phase = .idle := by
  simp [blockBusy]

/-- The second caller is heard only while the block has nothing in progress (R184, R288). -/
theorem blockBusy_of_not_mixes {s : State} (h : mixes s = false) : blockBusy s = false := by
  simp only [mixes, Bool.or_eq_false_iff] at h
  exact h.1.1

theorem linesInUse_iff (s : State) : linesInUse s = true ↔
    s.block.inited = true ∧ (s.block.sck = true ∨ s.block.csn = false) := by
  simp [linesInUse]

/-- An act begins no transaction on lines in use (R264(6)). -/
theorem BlockActed.phase_idle {p : Params} {a : Act} {b b' : Block} (k : BlockActed p a b b') (hp : b.phase = .idle)
    (hl : b.sck = true ∨ b.csn = false) : b'.phase = .idle := by
  cases k with
  | init => rfl
  | whole hover => exact hover.phase
  | begun hb => simp [hb.sck_before, hb.csn_before] at hl
  | _ => exact hp

/-- The second caller's direct exchange leaves its frame on the lines. -/
theorem BlockResumed.guest_holds {p : Params} {b b' : Block} (k : BlockResumed p b b') (h : BlockInv p b)
    (hp : b.phase = .idle) (hl : b.sck = true ∨ b.csn = false) :
    b'.phase = .idle ∧ b'.inited = b.inited ∧ (b'.sck = true ∨ b'.csn = false) := by
  cases k with
  | cell d x hx _ _ =>
    have hsck : b.sck = false := h.clock_low (.inl hx)
    have hcsn : b.csn = false := by simpa [hsck] using hl
    exact ⟨hp, rfl, .inr hcsn⟩
  | completed dn _ _ => exact ⟨hp, rfl, hl⟩
  | rest => exact ⟨hp, rfl, hl⟩
  | arc _ hne _ _ => exact absurd hp hne
  | arcLoad v _ hne _ => exact absurd hp hne
  | ended _ hne => exact absurd hp hne

/-! ### The invariant -/

/-- An act taken up with nothing in progress keeps the invariant; `g` is the note of the second caller afterwards. -/
theorem Inv.acted {a : Act} {s t : State} (h : Inv s) (hb : blockBusy s = false) (k : Acted a s t) (g : Bool)
    (hg : g = true → t.block.phase = .idle ∧ linesInUse t = true) : Inv { t with guest := g } := by
  obtain ⟨hx, hp⟩ := (blockBusy_eq_false_iff s).1 hb
  refine ⟨?_, ?_, ?_, ?_, hg⟩
  · show t.params.wf = true
    rw [k.params]
    exact h.params_wf
  · show DevInv t.params t.dev
    rw [k.params]
    exact h.dev.move h.params_wf k.dev
  · show BlockInv t.params t.block
    rw [k.params]
    exact h.block.acted hx hp k.block
  · show Rising t.session.erased
    rw [k.session]
    cases a with
    | beginWrite x => exact List.Pairwise.nil
    | markErased x => exact rising_insertRising h.erased_rising
    | _ => exact h.erased_rising

theorem Inv.resumed {s t : State} (h : Inv s) (hm : Moved s t) (k : BlockResumed s.params s.block t.block) : Inv t where
  params_wf := by rw [hm.params]; exact h.params_wf
  dev := by rw [hm.params]; exact h.dev.move h.params_wf hm.dev
  block := by rw [hm.params]; exact h.block.resumed k
  erased_rising := by rw [hm.session]; exact h.erased_rising
  guest_holds hg := by
    obtain ⟨hp, hl⟩ := h.guest_holds (hm.guest ▸ hg)
    obtain ⟨hinited, hlines⟩ := (linesInUse_iff s).1 hl
    obtain ⟨hphase, hkept, hlines'⟩ := k.guest_holds h.block hp hlines
    exact ⟨hphase, (linesInUse_iff t).2 ⟨hkept.trans hinited, hlines'⟩⟩

theorem Inv.tick {s : State} (h : Inv s) : Inv (tick s) where
  params_wf := by rw [tick_params]; exact h.params_wf
  dev := by rw [tick_params]; exact h.dev.tick
  block := by rw [tick_params, tick_block]; exact h.block
  erased_rising := by rw [tick_session]; exact h.erased_rising
  guest_holds hg := by
    rw [tick_guest] at hg
    rw [tick_block, tick_linesInUse]
    exact h.guest_holds hg

/-- The inputs and the caller's next acts are no part of the invariant. -/
theorem Inv.heard {s : State} (h : Inv s) : Inv (heard s) :=
  ⟨h.params_wf, h.dev, h.block, h.erased_rising, h.guest_holds⟩

theorem Inv.withPending {s : State} (as : List Act) (h : Inv s) : Inv { s with pending := as } :=
  ⟨h.params_wf, h.dev, h.block, h.erased_rising, h.guest_holds⟩

theorem Inv.finish {s : State} {f : Flight} (h : Inv s) (hf : s.dev.inflight = some f) : Inv (finishFlight f s) :=
  ⟨h.params_wf, h.dev.finish hf, h.block, h.erased_rising, h.guest_holds⟩

theorem Inv.powerCycle {s : State} (h : Inv s) : Inv (powerCycle s) :=
  ⟨h.params_wf, DevInv.powerCycle (s := s) h.params_wf h.dev, .reset _ false, List.Pairwise.nil, fun hg => by cases hg⟩

/-- The caller's act: while the second caller holds the lines only the rest of a driver operation is performed. -/
theorem Inv.caller {a : Act} {rest : List Act} {s t : State} (h : Inv s) (hb : blockBusy s = false)
    (hg : guestHolds s = true → isDriverRest a = true) (hu : perform a { s with pending := rest } = .next t) : Inv t := by
  have hacted := perform_acted hu
  refine (h.withPending rest).acted hb hacted t.guest fun hguest => ?_
  have hbefore : s.guest = true := hacted.guest ▸ hguest
  obtain ⟨hp, hl⟩ := h.guest_holds hbefore
  have hrest : isDriverRest a = true := hg (by rw [guestHolds, hbefore, hl, Bool.true_and])
  have hblock : t.block = s.block := perform_driverRest_block (s := { s with pending := rest }) hrest hu
  rw [linesInUse_iff, hblock, ← linesInUse_iff]
  exact ⟨hp, hl⟩

/-- The second caller's act: on lines in use it begins no transaction, so what it leaves there is driven by hand. -/
theorem Inv.secondCaller {a : Act} {s t : State} (h : Inv s) (hm : mixes s = false) (hu : perform a s = .next t) :
    Inv (noteGuest (linesInUse s) t) := by
  have hb := blockBusy_of_not_mixes hm
  have hp : s.block.phase = .idle := ((blockBusy_eq_false_iff s).1 hb).2
  refine h.acted hb (perform_acted hu) _ fun hg => ?_
  obtain ⟨hlines, hown⟩ := Bool.and_eq_true_iff.1 hg
  refine ⟨?_, hlines⟩
  rcases Bool.or_eq_true_iff.1 hown with hbefore | hidle
  · exact (perform_acted hu).block.phase_idle hp ((linesInUse_iff s).1 hbefore).2
  · exact ((blockBusy_eq_false_iff t).1 (by simpa using hidle)).2

theorem linesInUse_tick_heard (s : State) : linesInUse (tick (heard s)) = linesInUse s := tick_linesInUse (heard s)

theorem mixes_tick_heard (s : State) : mixes (tick (heard s)) = mixes s := by
  simp [mixes, blockBusy, driverBusy, linesInUse]

/-- Every step of every agent keeps the invariant. -/
theorem Inv.step {s t : State} (h : Inv s) (hs : step s = .next t) : Inv t := by
  have hticked : Inv (Machine.tick (Machine.heard s)) := h.heard.tick
  cases step_cases hs with
  | powerLoss rest _ ht => rw [ht]; exact h.heard.powerCycle
  | secondCaller a rest u _ hm hu ht =>
    rw [ht, ← linesInUse_tick_heard]
    exact hticked.secondCaller ((mixes_tick_heard s).trans hm) hu
  | finish f _ hf _ ht => rw [ht]; exact h.heard.finish hf
  | block _ hr => exact hticked.resumed (resume_resumed hr).1 (resume_resumed hr).2
  | rest ht => rw [ht]; exact hticked
  | caller a rest _ hb _ hg hu =>
    refine hticked.caller ((blockBusy_tick_heard s).trans hb) (fun hholds => hg ?_) hu
    rwa [tick_guestHolds] at hholds

/-! ### The lines at rest -/

/-- An act on idle lines leaves them at rest, or is `setClock(1)` or `selectChip(true)`. -/
theorem BlockActed.atRest {p : Params} {a : Act} {b b' : Block} (k : BlockActed p a b b') (hs : b.sck = false)
    (hc : b.csn = true) : LinesAtRest b' ∨ a = .setClock true ∨ a = .selectChip true := by
  cases k with
  | kept => exact .inl ⟨hs, fun _ => hc⟩
  | data l => exact .inl ⟨hs, fun _ => hc⟩
  | clock l =>
    cases l with
    | true => exact .inr (.inl rfl)
    | false => exact .inl ⟨rfl, fun _ => hc⟩
  | select sel =>
    cases sel with
    | true => exact .inr (.inr rfl)
    | false => exact .inl ⟨hs, fun _ => rfl⟩
  | init => exact .inl ⟨rfl, fun _ => rfl⟩
  | exchange v w _ => exact .inl ⟨rfl, fun _ => hc⟩
  | load v _ => exact .inl ⟨hs, fun _ => hc⟩
  | whole hover => exact .inl ⟨hover.sck, fun _ => hover.csn⟩
  | begun hb => exact .inl ⟨hb.sck, fun hidle => by rw [hb.phase] at hidle; cases hidle⟩

/-- A micro-step leaves the lines at rest (R37, R171). -/
theorem BlockResumed.atRest {p : Params} {b b' : Block} (k : BlockResumed p b b') (h : LinesAtRest b) :
    LinesAtRest b' := by
  cases k with
  | cell d x _ _ _ => exact ⟨rfl, h.2⟩
  | completed dn _ _ => exact h
  | rest => exact h
  | arc _ _ _ harc => exact ⟨harc.sck.trans h.1, fun hidle => absurd hidle harc.phase⟩
  | arcLoad v _ _ harc => exact ⟨harc.sck.trans h.1, fun hidle => absurd hidle harc.phase⟩
  | ended _ _ => exact ⟨h.1, fun _ => rfl⟩

/-- A caller's act with nothing in progress and the lines at rest. -/
theorem perform_atRest {a : Act} {s t : State} (h : LinesAtRest s.block) (hb : blockBusy s = false)
    (hu : perform a s = .next t) : LinesAtRest t.block ∨ a = .setClock true ∨ a = .selectChip true :=
  (perform_acted hu).block.atRest h.1 (h.2 ((blockBusy_eq_false_iff s).1 hb).2)

/-- From lines at rest a step ends on lines at rest, or is a caller's own `setClock(1)` or `selectChip(true)`. -/
theorem step_atRest {s t : State} (h : LinesAtRest s.block) (hs : step s = .next t) :
    LinesAtRest t.block ∨ ∃ a, (a = .setClock true ∨ a = .selectChip true) ∧ blockBusy s = false
      ∧ ((flightDue s = none ∧ ∃ rest, s.pending = a :: rest) ∨ ∃ rest, s.outside = .secondCaller a :: rest) := by
  have hticked : LinesAtRest (tick (heard s)).block := by rwa [tick_block, heard_block]
  cases step_cases hs with
  | powerLoss rest _ ht => rw [ht]; exact .inl ⟨rfl, fun _ => rfl⟩
  | secondCaller a rest u ho hm hu ht =>
    have hb := blockBusy_of_not_mixes hm
    rw [ht]
    refine (perform_atRest hticked ((blockBusy_tick_heard s).trans hb) hu).imp_right fun ha => ?_
    exact ⟨a, ha, hb, .inr ⟨rest, ho⟩⟩
  | finish f _ _ _ ht => rw [ht]; exact .inl h
  | block _ hr => exact .inl ((resume_resumed hr).2.atRest hticked)
  | rest ht => rw [ht]; exact .inl hticked
  | caller a rest hf hb hpend _ hu =>
    refine (perform_atRest (s := { tick (heard s) with pending := rest }) hticked
      ((blockBusy_tick_heard s).trans hb) hu).imp_right fun ha => ?_
    exact ⟨a, ha, hb, .inl ⟨hf, rest, hpend⟩⟩

/-- Settles O37: `Inv.step` and `step_atRest`, each by whose step it is. -/
theorem stepKeepsTheInvariant : Obligations.StepKeepsTheInvariant :=
  ⟨fun _ _ h hs => h.step hs, fun _ _ h hs => step_atRest h hs⟩

/-! ### Reset -/

theorem Inv.resetWith {p : Params} {m : Memory} (hp : p.wf = true) (hm : memWf m = true)
    (hrange : ∀ c ∈ m, c.1 < p.capacity) : Inv (State.resetWith p m) :=
  ⟨hp, .powerOn hp hm hrange List.Pairwise.nil fun _ hx => (by cases hx), .reset p true, List.Pairwise.nil,
    fun hg => (by cases hg)⟩

theorem Inv.beforeInit {p : Params} {m : Memory} (hp : p.wf = true) (hm : memWf m = true)
    (hrange : ∀ c ∈ m, c.1 < p.capacity) : Inv (State.beforeInit p m) :=
  ⟨hp, .powerOn hp hm hrange List.Pairwise.nil fun _ hx => (by cases hx), .reset p false, List.Pairwise.nil,
    fun hg => (by cases hg)⟩

/-- Settles O36: `State.reset` is `State.resetWith` at admitted parameters with an empty list. -/
theorem resetMeetsTheInvariant : Obligations.ResetMeetsTheInvariant :=
  ⟨fun _ _ hp hm hrange => ⟨.resetWith hp hm hrange, .beforeInit hp hm hrange⟩,
    .resetWith (by decide) memWf_nil fun _ hc => by cases hc⟩

/-- Settles O35: STATUS at power-on is `BP_MASK`, which holds neither BUSY nor WEL (R11, R38). -/
theorem resetValues : Obligations.ResetValues := by
  intro p m hp
  obtain ⟨_, hbusy, hwel⟩ := Params.wf_bits hp
  have hstatus : (State.resetWith p m).dev.status = p.bpMask := rfl
  refine ⟨rfl, rfl, rfl, rfl, rfl, rfl, rfl, hbusy, hwel, ?_, fun hne => ?_, rfl, rfl⟩
  · rw [hstatus, BitVec.and_self]
  · show (p.bpMask &&& p.bpMask != 0#8) = true
    rw [BitVec.and_self]
    simpa using hne

end Sys2Proof.Machine
end

section
/-! PROOFS. Which command writes which flag of the device (spec/10_state.md R33; spec/20_memory.md R69, R70, R84). -/

namespace Sys2Proof.Machine

open Sys2Proof

/-! ### The decoder reads what the encoder wrote -/

/-- The bytes of a command's frame decode to it (R112). -/
theorem decodeFrame_encode (i : Instr) : decodeFrame (encode i) = .command i := by
  cases i with
  | read a n =>
    have hlen := addrBytesOf_length a
    rw [encode_read]
    show decodeOAN .read (addrBytesOf a ++ List.replicate n Config.dummyByte) = _
    rw [decodeOAN, if_pos (by rw [List.length_append, hlen]; omega), List.take_left' hlen, joinAddr_addrBytesOf,
      List.length_append, hlen, List.length_replicate, Nat.add_sub_cancel_left]
  | program a v =>
    have hlen := addrBytesOf_length a
    show decodeOAP .program (addrBytesOf a ++ [v]) = _
    rw [decodeOAP, List.drop_left' hlen, List.take_left' hlen, joinAddr_addrBytesOf]
  | se a =>
    show decodeOA .se (addrBytesOf a ++ []) = _
    rw [List.append_nil, decodeOA, if_pos (addrBytesOf_length a), joinAddr_addrBytesOf]
  | wren => rfl
  | rdsr => rfl
  | ce => rfl
  | ewsr => rfl
  | wrsr v => rfl

/-! ### The flags after a mask -/

theorem busyIn_setMask (p : Params) (k : Fin 8) (st : Byte) :
    busyIn p (setMask (bitMask k) st) = (busyIn p st || decide (p.busyBit = k)) := by
  rw [busyIn, busyIn, setMask_bit, decide_eq_decide.2 Fin.ext_iff]

theorem welIn_setMask (p : Params) (k : Fin 8) (st : Byte) :
    welIn p (setMask (bitMask k) st) = (welIn p st || decide (p.welBit = k)) := by
  rw [welIn, welIn, setMask_bit, decide_eq_decide.2 Fin.ext_iff]

/-- A bit that is no protection bit leaves PROT alone (R71). -/
theorem protIn_setMask {p : Params} {k : Fin 8} (st : Byte) (h : p.bpMask.getLsbD k.val = false) :
    protIn p (setMask (bitMask k) st) = protIn p st := by
  have hmask : setMask (bitMask k) st &&& p.bpMask = st &&& p.bpMask := by
    refine eq_of_eight_bits fun i _ => ?_
    rw [BitVec.getLsbD_and, BitVec.getLsbD_and, setMask_bit]
    by_cases hi : i = k.val
    · rw [hi, h, Bool.and_false, Bool.and_false]
    · simp [hi]
  rw [protIn, hmask, protIn]

/-! ### The device at the end of a command -/

/-- What the end of the command `i` does to the flags, from the device `d` to the device `d'` (R33, R69, R70, R84). -/
structure FlagsWritten (p : Params) (i : Instr) (d d' : Device) : Prop where
  wel : welIn p d'.status ≠ welIn p d.status → i = .wren ∧ welIn p d'.status = true
  busy : busyIn p d'.status ≠ busyIn p d.status → busyIn p d'.status = true ∧ d'.inflight.isSome = true
    ∧ ((∃ a v, i = .program a v) ∨ (∃ a, i = .se a) ∨ i = .ce ∨ (p.wrsrBusy = true ∧ ∃ v, i = .wrsr v))
  prot : protIn p d'.status ≠ protIn p d.status → ∃ v, i = .wrsr v
  armed : d'.armed = true ↔ i = .ewsr

/-- The end of a command that writes EWSR_ARMED and no bit of STATUS. -/
theorem FlagsWritten.of_status {p : Params} {i : Instr} {d d' : Device} (h : d'.status = d.status)
    (ha : d'.armed = true ↔ i = .ewsr) : FlagsWritten p i d d' :=
  ⟨fun hne => absurd (by rw [h]) hne, fun hne => absurd (by rw [h]) hne, fun hne => absurd (by rw [h]) hne, ha⟩

/-- An operation that starts sets BUSY and no other flag (R70). -/
theorem startFlight_status {s : State} (hp : s.params.wf = true) (op : FlightOp) :
    busyIn s.params (startFlight op s).dev.status = true
    ∧ welIn s.params (startFlight op s).dev.status = welIn s.params s.dev.status
    ∧ protIn s.params (startFlight op s).dev.status = protIn s.params s.dev.status := by
  obtain ⟨hapart, hbusy, _⟩ := Params.wf_bits hp
  have hstatus : (startFlight op s).dev.status = setMask (bitMask s.params.busyBit) s.dev.status := rfl
  rw [hstatus, busyIn_setMask, welIn_setMask, protIn_setMask _ hbusy]
  simp [Ne.symm hapart]

/-- The end of a PROGRAM, SE or CE frame: accepted, it sets BUSY, starts its operation and disarms. -/
theorem acceptWrite_flags {opc : Byte} {a : Option Nat} {op : FlightOp} {i : Instr} {s u : State}
    (hp : s.params.wf = true) (hi : (∃ a v, i = .program a v) ∨ (∃ a, i = .se a) ∨ i = .ce)
    (h : acceptWrite opc a op s = .next u) : FlagsWritten s.params i s.dev u.dev := by
  unfold acceptWrite at h
  split at h
  · cases h
  · cases h
    obtain ⟨hbusy, hwel, hprot⟩ := startFlight_status hp op
    refine ⟨fun hne => absurd hwel hne, fun _ => ⟨hbusy, rfl, ?_⟩, fun hne => absurd hprot hne, ?_⟩
    · exact hi.imp_right (Or.imp_right .inl)
    · rcases hi with ⟨_, _, rfl⟩ | ⟨_, rfl⟩ | rfl <;> simp

theorem endWren_flags {s u : State} (hp : s.params.wf = true) (h : endWren s = .next u) :
    FlagsWritten s.params .wren s.dev u.dev := by
  obtain ⟨hapart, _, hwelBit⟩ := Params.wf_bits hp
  unfold endWren at h
  split at h <;> cases h
  have hstatus : (setArmed false (setStatus (setMask (welMask s.params) s.dev.status) s)).dev.status
      = setMask (bitMask s.params.welBit) s.dev.status := rfl
  refine ⟨fun _ => ⟨rfl, ?_⟩, fun hne => absurd ?_ hne, fun hne => absurd ?_ hne, by simp⟩
  · rw [hstatus, welIn_setMask]; simp
  · rw [hstatus, busyIn_setMask]; simp [hapart]
  · rw [hstatus, protIn_setMask _ hwelBit]

theorem endEwsr_flags {s u : State} (h : endEwsr s = .next u) : FlagsWritten s.params .ewsr s.dev u.dev := by
  unfold endEwsr at h
  split at h <;> cases h
  exact .of_status rfl (by simp)

/-- The end of a WRSR frame: the protection bits, and BUSY with `wrsrBusy` (R84; log 20). -/
theorem endWrsr_flags {v : Byte} {s u : State} (hp : s.params.wf = true) (h : endWrsr v s = .next u) :
    FlagsWritten s.params (.wrsr v) s.dev u.dev := by
  obtain ⟨_, hbusyBit, hwelBit⟩ := Params.wf_bits hp
  have hwelKept : welIn s.params (writeProtection s.params s.dev.status v) = welIn s.params s.dev.status :=
    writeProtection_bit _ _ _ hwelBit
  unfold endWrsr at h
  split at h
  · cases h
  split at h
  · cases h
  cases h
  generalize hw : setArmed false (setStatus (writeProtection s.params s.dev.status v) s) = w
  have hpar : w.params = s.params := by rw [← hw]; rfl
  have hstatus : w.dev.status = writeProtection s.params s.dev.status v := by rw [← hw]; rfl
  have harmed : w.dev.armed = false := by rw [← hw]; rfl
  unfold wrsrFlight
  split
  · next hbusy =>
    obtain ⟨hset, hwel, _⟩ := startFlight_status (hpar ▸ hp) .writeStatus
    rw [hpar] at hset hwel hbusy
    refine ⟨fun hne => absurd (hwel.trans ?_) hne, fun _ => ⟨hset, rfl, .inr (.inr (.inr ⟨hbusy, v, rfl⟩))⟩,
      fun _ => ⟨v, rfl⟩, ?_⟩
    · rw [hstatus, hwelKept]
    · show w.dev.armed = true ↔ _
      simp [harmed]
  · refine ⟨fun hne => absurd ?_ hne, fun hne => absurd ?_ hne, fun _ => ⟨v, rfl⟩, by simp [harmed]⟩
    · rw [hstatus, hwelKept]
    · rw [hstatus]
      exact writeProtection_bit _ _ _ hbusyBit

/-- The end of any command. -/
theorem endCommand_flags {i : Instr} {s u : State} (hp : s.params.wf = true) (h : endCommand i s = .next u) :
    FlagsWritten s.params i s.dev u.dev := by
  cases i with
  | read a n => cases h; exact .of_status rfl (by simp)
  | program a v => exact acceptWrite_flags hp (.inl ⟨a, v, rfl⟩) h
  | wren => exact endWren_flags hp h
  | rdsr => cases h; exact .of_status rfl (by simp)
  | ce => exact acceptWrite_flags hp (.inr (.inr rfl)) h
  | se a => exact acceptWrite_flags hp (.inr (.inl ⟨a, rfl⟩)) h
  | ewsr => exact endEwsr_flags h
  | wrsr v => exact endWrsr_flags hp h

/-! ### A whole command -/

/-- A command that ends with the reference device ends in the device's end of it, from a state whose STATUS is that before
the frame. -/
theorem exec_endCommand {i : Instr} {s t : State} (hr : Reference s) (h : exec i s = .next t) :
    ∃ u w, u.params = s.params ∧ u.dev.status = s.dev.status ∧ endCommand i u = .next w ∧ t.dev = w.dev := by
  rw [exec_transaction] at h
  obtain ⟨x, hx, h⟩ := andThen_eq_next.1 h
  rcases transaction_reference (transaction_gate hx) hr (decodeFrame_encode i) with
    ⟨y, hins, got, hy, hs, _⟩ | ⟨f, hf, _⟩
  · obtain ⟨w, hw, hend⟩ := andThen_eq_next.1 (hy ▸ hx)
    cases hend
    refine ⟨driveCsn true y, w, hs.inFrame.params, ?_, hw, ?_⟩
    · show y.dev.status = s.dev.status
      rw [(hs.inFrame.dev_reference hr).frame]
    · split at h <;> cases h <;> rfl
  · rw [hf] at hx
    cases hx

/-- Settles O28: the flags are written by the device's end of the command, and no command moves the array. -/
theorem whichCommandWritesWhichFlag : Obligations.WhichCommandWritesWhichFlag := by
  intro i s t hr hp h
  obtain ⟨hmoved, _⟩ := exec_acted h
  obtain ⟨u, w, hpar, hstatus, hend, hdev⟩ := exec_endCommand hr h
  obtain ⟨hwel, hbusy, hprot, harmed⟩ := endCommand_flags (hpar ▸ hp) hend
  rw [hpar, hstatus, ← hdev, ← hmoved.params] at hwel hbusy hprot
  rw [← hdev] at harmed
  simp only [isWel, isBusy, isProt]
  rw [← hmoved.params]
  refine ⟨hwel, hbusy, hprot, harmed, fun a => ⟨by rw [hmoved.dev.mem], ?_⟩⟩
  rw [isLost, hmoved.dev.lost, isLost]

end Sys2Proof.Machine
end

section
/-! PROOFS. Where the reference device stops a command (spec/20_memory.md R65, R73, R82, R84; spec/60_exceptions.md
R254). -/

namespace Sys2Proof.Machine

open Sys2Proof

/-! ### A frame that the device has taken in whole -/

/-- The device at the end of the frame of `i` begun in `s`: what the tests at that end look at (R69, R82, R84). -/
structure FrameTaken (s : State) (i : Instr) (u : State) : Prop where
  params : u.params = s.params
  status : u.dev.status = s.dev.status
  armed : u.dev.armed = s.dev.armed
  rxBytes : u.dev.rxBytes = encode i

theorem FrameTaken.isBusy {s u : State} {i : Instr} (h : FrameTaken s i u) : isBusy u = isBusy s := by
  rw [Machine.isBusy, Machine.isBusy, h.params, h.status]

/-- The block's end of the frame of `i`, the device having ended the command in `w`: PHASE, and what the caller gets back
(R170, R175, R178). -/
def commandEnded (i : Instr) (w : State) : State :=
  if i = .rdsr then returnByte { setPhase .idle w with ret := transactionRet w.block }
  else { setPhase .idle w with ret := transactionRet w.block }

/-- A COMMAND WITH THE REFERENCE DEVICE: its frame is taken in whole and the command ends as the device ends it, the bytes
`ins` having come in; or the device faults inside the frame (R83, R254). -/
theorem exec_reference_cases (i : Instr) {s : State} (h : Ready s) (hr : Reference s) :
    (∃ u ins, FrameTaken s i u ∧ ins.length = (encode i).length ∧ Answered s (encode i) ins
      ∧ exec i s = andThen (endCommand i u) fun w => .next (commandEnded i w))
    ∨ ∃ f, exec i s = .fault f ∧ MidStop s (encode i) f := by
  rcases transaction_reference (transactionGate_of_ready h) hr (decodeFrame_encode i) with
    ⟨t, hins, got, ht, hs, _⟩ | ⟨f, hf, hm⟩
  · have hdev := (hs.inFrame.dev_reference hr).frame
    refine .inl ⟨driveCsn true t, hins ++ got, ⟨hs.inFrame.params, ?_, ?_, ?_⟩, hs.inFrame.lengths, hs.answered hr, ?_⟩
    · show t.dev.status = _
      rw [hdev]
    · show t.dev.armed = _
      rw [hdev]
    · show t.dev.rxBytes = _
      rw [hdev]
      rfl
    · rw [exec_transaction, ht, andThen_assoc]
      rfl
  · exact .inr ⟨f, by rw [exec_transaction, hf, andThen_fault], hm⟩

/-- A command that is no READ never stops inside its frame: it ends as the device ends it. -/
theorem exec_reference_of_not_read {i : Instr} {s : State} (h : Ready s) (hr : Reference s)
    (hi : (encodeFrame i).opc ≠ Config.opcRead) :
    ∃ u, FrameTaken s i u ∧ exec i s = andThen (endCommand i u) fun w => .next (commandEnded i w) := by
  rcases exec_reference_cases i h hr with ⟨u, _, hu, _, _, he⟩ | ⟨f, _, hm⟩
  · exact ⟨u, hu, he⟩
  · exact absurd hm (not_midStop_of_opc fun hhead => hi (Option.some.inj hhead))

/-- A fault of the device at the end of the frame is the command's. -/
theorem exec_fault_of_endCommand {i : Instr} {s : State} {f : Fault} (h : Ready s) (hr : Reference s)
    (hi : (encodeFrame i).opc ≠ Config.opcRead) (hf : ∀ u, FrameTaken s i u → endCommand i u = .fault f) :
    exec i s = .fault f := by
  obtain ⟨u, hu, he⟩ := exec_reference_of_not_read h hr hi
  rw [he, hf u hu, andThen_fault]

/-! ### READ -/

/-- A READ frame that the device has answered to its end: it was idle, and every address read is in the array (R65, R73,
R82). -/
theorem Answered.read_range {s : State} {a : Addr} {n : Nat} {ins : List Byte}
    (h : Answered s (encode (.read a n)) ins) (hl : ins.length = (encode (.read a n)).length) :
    isBusy s = false ∧ a.toNat < s.params.capacity ∧ a.toNat + n ≤ s.params.capacity := by
  have hlenA := addrBytesOf_length a
  have htake : ∀ k, (encode (.read a n)).take (1 + Config.addrBytes + k)
      = Config.opcRead :: (addrBytesOf a ++ (List.replicate n Config.dummyByte).take k) := fun k => by
    rw [encode_read, show 1 + Config.addrBytes + k = (Config.addrBytes + k) + 1 by omega, List.take_succ_cons, ← hlenA,
      List.take_length_add_append]
  have hlen : (encode (.read a n)).length = 1 + Config.addrBytes + n := by
    rw [encode_read, List.length_cons, List.length_append, hlenA, List.length_replicate]; omega
  obtain ⟨hidle, hbelow⟩ := h.header Config.addrBytes a (by omega)
    ((readHeader_some_iff _ _).2 ⟨addrBytesOf a, by
      simpa [Nat.add_comm] using htake 0, hlenA, joinAddr_addrBytesOf a⟩)
  refine ⟨hidle, hbelow, ?_⟩
  cases n with
  | zero => omega
  | succ k =>
    have hi : 1 + Config.addrBytes + k < ins.length := by omega
    obtain ⟨hlast, _⟩ := h.array (1 + Config.addrBytes + k) _ (List.getElem?_eq_getElem hi)
      ((answerAfter_array_iff _).2 ⟨_, htake k, by rw [List.length_append, hlenA]; omega⟩)
    rw [htake, rdptrAfter_read, List.length_take, List.length_replicate] at hlast
    omega

/-- A READ of a busy device, or outside the array, faults inside its frame (R73, R82). -/
theorem exec_read_fault {a : Addr} {n : Nat} {s : State} (h : Ready s) (hr : Reference s)
    (hout : ¬ (isBusy s = false ∧ a.toNat < s.params.capacity ∧ a.toNat + n ≤ s.params.capacity)) :
    ∃ f, exec (.read a n) s = .fault f ∧ MidStop s (encode (.read a n)) f := by
  rcases exec_reference_cases (.read a n) h hr with ⟨_, ins, _, hl, hA, _⟩ | hfault
  · exact absurd (hA.read_range hl) hout
  · exact hfault

/-- Settles O24: such a READ stops inside its frame, and `midStop_read` says for which reason. -/
theorem readFaults : Obligations.ReadFaults := by
  intro a n s hready hreference
  refine ⟨fun hbusy => ?_, fun hidle hbeyond => ?_, fun hidle hbelow hpast => ?_⟩
  · obtain ⟨f, hf, hm⟩ := exec_read_fault (a := a) (n := n) hready hreference (by simp [hbusy])
    rcases midStop_read hm with ⟨_, rfl⟩ | ⟨hidle, _⟩ | ⟨hidle, _⟩
    · exact hf
    · simp [hbusy] at hidle
    · simp [hbusy] at hidle
  · obtain ⟨f, hf, hm⟩ := exec_read_fault (a := a) (n := n) hready hreference (by omega)
    rcases midStop_read hm with ⟨hbusy, _⟩ | ⟨_, _, rfl⟩ | ⟨_, hbelow, _⟩
    · simp [hidle] at hbusy
    · exact hf
    · omega
  · obtain ⟨f, hf, hm⟩ := exec_read_fault (a := a) (n := n) hready hreference (by omega)
    rcases midStop_read hm with ⟨hbusy, _⟩ | ⟨_, hbeyond, _⟩ | ⟨_, _, _, rfl⟩
    · simp [hidle] at hbusy
    · omega
    · exact hf

/-! ### WREN, EWSR, WRSR -/

/-- Settles O26: the device's tests at the end of the frame, on the STATUS and the latch from before it. -/
theorem statusFrameFaults : Obligations.StatusFrameFaults := by
  intro s hready hreference
  have hopc : ∀ v, (encodeFrame (.wrsr v)).opc ≠ Config.opcRead := fun _ =>
    (by decide : Config.opcWrsr ≠ Config.opcRead)
  refine ⟨fun hbusy => ⟨?_, ?_⟩, fun v => ⟨fun hunarmed => ?_, fun harmed hbusy => ?_⟩⟩
  · exact exec_fault_of_endCommand hready hreference (by decide) fun u hu => if_pos (hu.isBusy.trans hbusy)
  · exact exec_fault_of_endCommand hready hreference (by decide) fun u hu => if_pos (hu.isBusy.trans hbusy)
  · refine exec_fault_of_endCommand hready hreference (hopc v) fun u hu => ?_
    rw [endCommand, endWrsr, hu.armed, hunarmed, hu.rxBytes]
    rfl
  · refine exec_fault_of_endCommand hready hreference (hopc v) fun u hu => ?_
    rw [endCommand, endWrsr, hu.armed, harmed, hu.isBusy, hbusy]
    rfl

/-! ### While the device is busy (R82) -/

/-- While busy, the device ends no frame but RDSR's and, had its header been accepted, READ's. -/
theorem endCommand_next_of_busy {i : Instr} {u w : State} (hb : isBusy u = true) (h : endCommand i u = .next w) :
    i = .rdsr ∨ ∃ a n, i = .read a n := by
  have hgate : ∀ opc a op, acceptWrite opc a op u ≠ .next w := fun opc a op ha => by
    simp only [acceptWrite, writeGate, hb, if_true] at ha
    cases ha
  cases i with
  | rdsr => exact .inl rfl
  | read a n => exact .inr ⟨a, n, rfl⟩
  | program a v => exact absurd h (hgate _ _ _)
  | se a => exact absurd h (hgate _ _ _)
  | ce => exact absurd h (hgate _ _ _)
  | wren => rw [endCommand, endWren, if_pos hb] at h; cases h
  | ewsr => rw [endCommand, endEwsr, if_pos hb] at h; cases h
  | wrsr v =>
    simp only [endCommand, endWrsr, hb, if_true] at h
    split at h <;> cases h

/-- Settles O27: a busy device faults in READ's header and at the end of every other frame but RDSR's. -/
theorem onlyRdsrWhileBusy : Obligations.OnlyRdsrWhileBusy := by
  intro i s hready hreference hbusy
  constructor
  · rintro ⟨t, ht⟩
    obtain ⟨u, w, hparams, hstatus, hend, _⟩ := exec_endCommand hreference ht
    have hbusyEnd : isBusy u = true := by rwa [isBusy, hparams, hstatus]
    rcases endCommand_next_of_busy hbusyEnd hend with hi | ⟨a, n, rfl⟩
    · exact hi
    · obtain ⟨hfault, _⟩ := readFaults a n s hready hreference
      rw [hfault hbusy] at ht
      cases ht
  · rintro rfl
    obtain ⟨u, _, he⟩ := exec_reference_of_not_read (i := .rdsr) hready hreference (by decide)
    exact ⟨commandEnded .rdsr (setArmed false u), he⟩

end Sys2Proof.Machine
end

section
/-! PROOFS. The array and the operation in flight (spec/20_memory.md R61, R66 to R70): sectors, the finishing step, and
what ends an operation. -/

namespace Sys2Proof.Machine

open Sys2Proof

/-! ### Sectors (R61) -/

/-- Masking the low 12 bits off an address operand, as a number. -/
theorem toNat_and_not_low12 (a : Nat) (h : a < 2 ^ 24) :
    (operandAddr a &&& ~~~0xFFF#24).toNat = (a >>> 12) <<< 12 := by
  have hmask : ~~~0xFFF#24 = BitVec.allOnes 24 <<< 12 := by decide
  have hoperand : (operandAddr a).toNat = a := Nat.mod_eq_of_lt h
  rw [hmask, ← BitVec.shiftLeft_ushiftRight (w := 24), BitVec.toNat_shiftLeft, BitVec.toNat_ushiftRight, hoperand,
    Nat.shiftLeft_eq, Nat.shiftRight_eq_div_pow]
  exact Nat.mod_eq_of_lt (lt_of_le_of_lt (Nat.div_mul_le_self a _) h)

/-- Settles O58: `a - a % 4096` is the quotient by 4096 times 4096, a shift right by 12 and back. -/
theorem sectorIndexMasksTwelveBits : Obligations.SectorIndexMasksTwelveBits := by
  intro a x
  have hshift : sectorIndex a = (a >>> 12) <<< 12 := by
    rw [Nat.shiftLeft_eq, Nat.shiftRight_eq_div_pow]
    unfold sectorIndex Config.sectorSize
    omega
  exact ⟨hshift, rfl, fun ha => hshift.trans (toNat_and_not_low12 a ha).symm, sectorIndex_eq_iff a x⟩

/-! ### The finishing step (R66 to R68, R70) -/

/-- What the finishing step of a program or erase leaves beside the array: BUSY and WEL are 0, and nothing else has
changed (R70). -/
theorem finishFlight_rest {op : FlightOp} (hop : op ≠ .writeStatus) (n : Nat) (s : State) :
    let t := finishFlight ⟨op, n⟩ s
    t.dev.inflight = none ∧ isBusy t = false ∧ isWel t = false
    ∧ (∀ k, k ≠ s.params.busyBit.val → k ≠ s.params.welBit.val → t.dev.status.getLsbD k = s.dev.status.getLsbD k)
    ∧ t.dev.armed = s.dev.armed ∧ t.dev.rdptr = s.dev.rdptr
    ∧ t.block = s.block ∧ t.session = s.session ∧ t.pending = s.pending ∧ t.trace = s.trace ∧ t.ret = s.ret := by
  obtain ⟨hwel, hbits⟩ := finishedStatus_rest hop s
  have hframe := flightEffect_frame op s
  have harmed : (flightEffect op s).armed = s.dev.armed := by rw [hframe]
  have hrdptr : (flightEffect op s).rdptr = s.dev.rdptr := by rw [hframe]
  exact ⟨rfl, finishedStatus_busy op s, hwel, hbits, harmed, hrdptr, rfl, rfl, rfl, rfl, rfl⟩

/-- Settles O29: the array is written at one address (`memRead_memWrite`). -/
theorem programFinishes : Obligations.ProgramFinishes := by
  intro s a v ho hf hm hdefined
  have heffect : programEffect a v s = { s.dev with mem := memWrite a (memRead s.dev.mem a &&& v) s.dev.mem } := by
    rw [programEffect, hdefined]; rfl
  refine ⟨_, step_due ho hf, fun x => ?_, fun x => ?_, finishFlight_rest (by simp) 0 s⟩
  · show memRead (programEffect a v s).mem x = _
    rw [heffect, memRead_memWrite hm]
  · show (programEffect a v s).lost.contains _ = _
    rw [heffect]; rfl

/-- Taking a sector off the undefined ones makes it defined, and leaves the others (R74). -/
theorem contains_filter_ne (l : List Nat) (x y : Nat) :
    (l.filter (· != y)).contains x = if x = y then false else l.contains x := by
  rw [Bool.eq_iff_iff]
  by_cases h : x = y <;> simp [h]

/-- Settles O30: the erased range is the sector of `a` (`sectorIndex_eq_iff`). -/
theorem sectorEraseFinishes : Obligations.SectorEraseFinishes := by
  intro s a ho hf
  refine ⟨_, step_due ho hf, fun x => memRead_memErase _ _ _ x, fun x => ?_, finishFlight_rest (by simp) 0 s⟩
  show (s.dev.lost.filter (· != sectorIndex a)).contains (sectorIndex x) = _
  simp only [contains_filter_ne, sectorIndex_eq_iff]
  rfl

/-- Settles O31: the erased range is the whole array. -/
theorem chipEraseFinishes : Obligations.ChipEraseFinishes := by
  intro s ho hf
  refine ⟨_, step_due ho hf, fun x => ?_, fun x => rfl, finishFlight_rest (by simp) 0 s⟩
  show memRead (memErase 0 s.params.capacity s.dev.mem) x = _
  rw [memRead_memErase]
  simp only [Nat.zero_le, true_and]
  rfl

/-! ### How an operation ends (R70) -/

theorem blockBusy_tick (s : State) : blockBusy (tick s) = blockBusy s := by unfold blockBusy; rw [tick_block]

/-- With nothing from outside, nothing due and nothing to do, a step brings the operation in flight nearer to its end and
does nothing else (R8; log 23). -/
theorem step_of_rest {s : State} (ho : s.outside = []) (hf : flightDue s = none) (hb : blockBusy s = false)
    (hp : s.pending = []) : step s = .next (tick s) := by
  rw [step_quiet ho, insideStep, hf]
  simp only [blockStep, blockBusy_tick, hb, Bool.false_eq_true, if_false, callerStep, tick_pending, hp]

/-- Settles O40, by induction on the steps left. -/
theorem theDeviceFinishes : Obligations.TheDeviceFinishes := by
  intro n op
  induction n with
  | zero =>
    intro s ho _ _ hf
    exact ⟨finishFlight ⟨op, 0⟩ s, by rw [run_succ, step_due ho hf]; rfl, rfl, finishedStatus_busy op s, rfl⟩
  | succ n ih =>
    intro s ho hp hb hf
    have hnotDue : flightDue s = none := by rw [flightDue, hf]; rfl
    obtain ⟨t, ht, hflight, hidle, hblock⟩ := ih (tick s) ((tick_outside s).trans ho) ((tick_pending s).trans hp)
      ((blockBusy_tick s).trans hb) (tick_of_some hf)
    exact ⟨t, by rw [run_succ, step_of_rest ho hnotDue hb hp, andThen_next, ht], hflight, hidle,
      hblock.trans (tick_block s)⟩

/-- The caller's and the block's activity on the bus never ends an operation (R70, R286). -/
theorem DevMove.stays_busy {p : Params} {d d' : Device} (k : DevMove p d d') (hp : p.wf = true)
    (hb : busyIn p d.status = true) : busyIn p d'.status = true := by
  rcases k.busy hp with ⟨hkept, _⟩ | ⟨hset, _⟩
  · rw [hkept, hb]
  · exact hset

/-- A step of a caller or of the block, begun in the state after the tick, leaves a busy device busy. -/
theorem isBusy_of_devMove {s t : State} (hp : s.params.wf = true) (hb : isBusy s = true) (hpar : t.params = s.params)
    (k : DevMove s.params (tick (heard s)).dev t.dev) : isBusy t = true := by
  rw [isBusy, hpar]
  refine k.stays_busy hp ?_
  rw [tick_dev_status]
  exact hb

/-- Settles O33, by whose step it is: only a loss of power and the finishing step are no `DevMove`. -/
theorem nothingElseEndsAnOperation : Obligations.NothingElseEndsAnOperation := by
  intro s t hp h hb hidle
  have hpar : t.params = s.params := parametersAreFixed s t h
  have hnot : ¬ DevMove s.params (tick (heard s)).dev t.dev := fun k => by
    rw [isBusy_of_devMove hp hb hpar k] at hidle
    cases hidle
  have hticked : (tick (heard s)).params = s.params := tick_params (heard s)
  cases step_cases h with
  | powerLoss rest ho _ => exact .inl ⟨rest, ho⟩
  | finish f _ hflight hleft _ => exact .inr ⟨f.op, by rw [hflight, ← hleft]⟩
  | secondCaller a rest u _ _ hu ht => exact absurd (hticked ▸ ht ▸ (perform_acted hu).dev) hnot
  | block _ hr => exact absurd (hticked ▸ (resume_resumed hr).1.dev) hnot
  | rest ht => exact absurd (ht ▸ .refl _ _) hnot
  | caller a rest _ _ _ _ hu => exact absurd (hticked ▸ (perform_acted hu).dev) hnot

end Sys2Proof.Machine
end

section
/-! PROOFS. The outside (spec/20_memory.md R74, spec/60_exceptions.md R262, R264(6), spec/70_reset_and_hazards.md R282,
R288): a loss of power, and a second caller. -/

namespace Sys2Proof.Machine

open Sys2Proof

/-! ### A loss of power (R74, R262, R282) -/

theorem step_powerLoss {s : State} {rest : List Outside} (ho : s.outside = .powerLoss :: rest) :
    step s = .next (powerCycle { s with outside := rest }) := by
  unfold step takeTurn; rw [ho]

/-- After a loss of power a byte is undefined where it was, and in the sectors of the interrupted operation (R74). -/
theorem isLost_powerCycle (s : State) (x : Nat) : isLost (powerCycle s) x
    = (isLost s x || decide (sectorIndex x ∈ interruptedSectors s.params s.dev.inflight)) := by
  rw [Bool.eq_iff_iff]
  show ((interruptedSectors s.params s.dev.inflight).foldr insertRising s.dev.lost).contains (sectorIndex x) = true ↔ _
  simp only [isLost, List.contains_iff_mem, mem_foldr_insertRising, Bool.or_eq_true, decide_eq_true_eq]
  exact or_comm

/-- The capacity is a whole number of sectors (R11). -/
theorem Params.wf_capacity {p : Params} (h : p.wf = true) : p.capacity % Config.sectorSize = 0 := by
  simp only [Params.wf, Bool.and_eq_true, beq_iff_eq] at h
  obtain ⟨⟨⟨_, hsectors⟩, _⟩, _⟩ := h
  exact hsectors

/-- An interrupted CE addressed the sector of every address of the array (R74). -/
theorem sectorIndex_mem_interrupted_chipErase {p : Params} (hp : p.wf = true) (d : Nat) {x : Nat}
    (hx : x < p.capacity) : sectorIndex x ∈ interruptedSectors p (some ⟨.chipErase, d⟩) := by
  have hwhole := Params.wf_capacity hp
  refine List.mem_map.2 ⟨x / Config.sectorSize, List.mem_range.2 ?_, ?_⟩
  · unfold Config.sectorSize at *; omega
  · unfold sectorIndex Config.sectorSize; omega

/-- Settles O59: the state after is `powerCycle`'s, and `isLost_powerCycle` says what is undefined in it. -/
theorem powerLossInterrupts : Obligations.PowerLossInterrupts := by
  intro s rest ho hp
  obtain ⟨_, hbusy, hwel⟩ := Params.wf_bits hp
  have hlost : ∀ x, isLost (powerCycle { s with outside := rest }) x
      = (isLost s x || decide (sectorIndex x ∈ interruptedSectors s.params s.dev.inflight)) :=
    isLost_powerCycle { s with outside := rest }
  have hsector : ∀ a, interruptedSectors s.params s.dev.inflight = [sectorIndex a] → ∀ x,
      isLost (powerCycle { s with outside := rest }) x = (isLost s x || decide (x - x % 4096 = a - a % 4096)) := by
    intro a hone x
    rw [hlost, hone]
    simp only [List.mem_singleton]
    rfl
  refine ⟨_, step_powerLoss ho, rfl, rfl, hbusy, hwel, BitVec.and_self, rfl, fun _ => rfl, ?_, ?_, ?_, ?_⟩
  · intro hf x
    rw [hlost, hf]
    simp [interruptedSectors]
  · exact fun a v d hf => hsector a (by rw [hf]; rfl)
  · exact fun a d hf => hsector a (by rw [hf]; rfl)
  · intro d hf x hx
    rw [hlost, hf, decide_eq_true (sectorIndex_mem_interrupted_chipErase hp d hx), Bool.or_true]

/-! ### The second caller (R77, R184, R264(6), R288) -/

/-- What the second caller would mix with: the block's activity, a driver operation begun, or lines in use that are not
its own (log 19). -/
theorem mixes_iff (s : State) : mixes s = true ↔
    blockBusy s = true ∨ (∃ x ∈ s.pending, isDriverRest x = true) ∨ (linesInUse s = true ∧ s.guest = false) := by
  simp [mixes, driverBusy, or_assoc]

/-- The inputs are no part of what the tick touches. -/
theorem tick_withOutside (s : State) (os : List Outside) :
    tick { s with outside := os } = { tick s with outside := os } := by
  cases hf : s.dev.inflight with
  | none => rw [tick_of_none hf]; exact tick_of_none hf
  | some f => simp only [tick, hf]

/-- The second caller's operation is refused where it would mix with another. -/
theorem step_secondCaller_refused {s : State} {a : Act} {rest : List Outside} (ho : s.outside = .secondCaller a :: rest)
    (hm : mixes s = true) : step s = .refused .secondCaller := by
  have hm' : mixes { s with outside := rest } = true := hm
  rw [step_secondCaller ho, secondCallerStep, if_pos hm']

/-- Settles O60: the second caller is refused exactly where it `mixes`, the first where `guestHolds`. -/
theorem secondCallerIsRefused : Obligations.SecondCallerIsRefused := by
  refine ⟨fun s a rest ho => ⟨fun hb => ?_, fun hd => ?_, fun hi hl hg => ?_, fun hb hd hg => ?_⟩,
    fun s a rest ho hf hb hg hi hl hp hd => ?_⟩
  · exact step_secondCaller_refused ho ((mixes_iff s).2 (.inl hb))
  · exact step_secondCaller_refused ho ((mixes_iff s).2 (.inr (.inl hd)))
  · exact step_secondCaller_refused ho ((mixes_iff s).2 (.inr (.inr ⟨(linesInUse_iff s).2 ⟨hi, hl⟩, hg⟩)))
  · have hm : ¬ mixes { s with outside := rest } = true := fun h => by
      rcases (mixes_iff _).1 h with hbusy | ⟨x, hx, hdriver⟩ | ⟨hlines, hown⟩
      · exact Bool.false_ne_true (hb.symm.trans hbusy)
      · exact Bool.false_ne_true ((hd x hx).symm.trans hdriver)
      · exact Bool.false_ne_true (hown.symm.trans (hg hlines))
    rw [step_secondCaller ho, secondCallerStep, if_neg hm, tick_withOutside]
    rfl
  · have hholds : guestHolds s = true := by rw [guestHolds, hg, (linesInUse_iff s).2 ⟨hi, hl⟩]; rfl
    rw [step_caller_cases ho hf hb hp, hholds, hd]
    rfl

end Sys2Proof.Machine
end

section
/-! PROOFS. The frames (spec/30_encoding.md): what each format of the decoder answers, the frames of table SHAPE, and the
requests that Transaction admits. -/

namespace Sys2Proof.Machine

open Sys2Proof

/-! ### The formats of the decoder (R107, R111)

For each format, the bytes after the opcode that it takes for a command, and the lengths that it refuses. -/

theorem decodeO_length {i : Instr} {l : List Byte} (h : l.length ≠ 0) : decodeO i l = .illegal .length := by
  cases l with
  | nil => exact absurd rfl h
  | cons v l => rfl

theorem decodeO_command_iff {i j : Instr} {l : List Byte} : decodeO i l = .command j ↔ l = [] ∧ i = j := by
  cases l <;> simp [decodeO]

theorem decodeOP_length {f : Byte → Instr} {l : List Byte} (h : l.length ≠ 1) : decodeOP f l = .illegal .length := by
  rcases l with _ | ⟨v, _ | ⟨u, l⟩⟩
  · rfl
  · exact absurd rfl h
  · rfl

theorem decodeOP_command_iff {f : Byte → Instr} {j : Instr} {l : List Byte} :
    decodeOP f l = .command j ↔ ∃ v, l = [v] ∧ f v = j := by
  rcases l with _ | ⟨v, _ | ⟨u, l⟩⟩ <;> simp [decodeOP]

theorem decodeOA_length {f : Addr → Instr} {l : List Byte} (h : l.length ≠ 3) : decodeOA f l = .illegal .length :=
  if_neg h

theorem decodeOA_command {f : Addr → Instr} {j : Instr} {l : List Byte} (h : decodeOA f l = .command j) :
    ∃ a, l = addrBytesOf a ∧ f a = j := by
  by_cases hl : l.length = Config.addrBytes
  · rw [decodeOA, if_pos hl, Decoded.command.injEq] at h
    exact ⟨joinAddr l, (addrBytesOf_joinAddr hl).symm, h⟩
  · rw [decodeOA_length hl] at h
    cases h

/-- At least as many bytes as an address has are the bytes of an address and what follows them (R104). -/
theorem eq_addrBytesOf_append {l : List Byte} (h : Config.addrBytes ≤ l.length) :
    l = addrBytesOf (joinAddr (l.take Config.addrBytes)) ++ l.drop Config.addrBytes := by
  rw [addrBytesOf_joinAddr (List.length_take_of_le h), List.take_append_drop]

theorem length_eq_four_of_drop_addrBytes {l : List Byte} {v : Byte} (h : l.drop Config.addrBytes = [v]) :
    l.length = 4 := by
  have hlen : l.length - 3 = 1 := by rw [← List.length_drop, h]; rfl
  omega

theorem decodeOAP_length {f : Addr → Byte → Instr} {l : List Byte} (h : l.length ≠ 4) :
    decodeOAP f l = .illegal .length := by
  rw [decodeOAP]
  split
  · next v hv => exact absurd (length_eq_four_of_drop_addrBytes hv) h
  · rfl

theorem decodeOAP_command {f : Addr → Byte → Instr} {j : Instr} {l : List Byte} (h : decodeOAP f l = .command j) :
    ∃ a v, l = addrBytesOf a ++ [v] ∧ f a v = j := by
  rw [decodeOAP] at h
  split at h
  · next v hv =>
    refine ⟨joinAddr (l.take Config.addrBytes), v, ?_, Decoded.command.inj h⟩
    rw [← hv]
    exact eq_addrBytesOf_append (by rw [length_eq_four_of_drop_addrBytes hv]; decide)
  · cases h

theorem decodeOAN_length {f : Addr → Nat → Instr} {l : List Byte} (h : l.length < 3) :
    decodeOAN f l = .illegal .length :=
  if_neg (Nat.not_le.2 h)

theorem decodeOAN_command {f : Addr → Nat → Instr} {j : Instr} {l : List Byte} (h : decodeOAN f l = .command j) :
    ∃ a m, l = addrBytesOf a ++ m ∧ f a m.length = j := by
  by_cases hl : Config.addrBytes ≤ l.length
  · rw [decodeOAN, if_pos hl, ← List.length_drop, Decoded.command.injEq] at h
    exact ⟨_, _, eq_addrBytesOf_append hl, h⟩
  · rw [decodeOAN_length (Nat.not_le.1 hl)] at h
    cases h

/-! ### The frames of table SHAPE (R104 to R107) -/

/-- The bytes `w` are a frame of the command `i`, whatever its dummies are. -/
inductive FrameOf : List Byte → Instr → Prop where
  | read (a : Addr) (m : List Byte) : FrameOf (Config.opcRead :: (addrBytesOf a ++ m)) (.read a m.length)
  | program (a : Addr) (v : Byte) : FrameOf (Config.opcProgram :: (addrBytesOf a ++ [v])) (.program a v)
  | wren : FrameOf [Config.opcWren] .wren
  | rdsr (v : Byte) : FrameOf [Config.opcRdsr, v] .rdsr
  | ce : FrameOf [Config.opcCe] .ce
  | se (a : Addr) : FrameOf (Config.opcSe :: addrBytesOf a) (.se a)
  | ewsr : FrameOf [Config.opcEwsr] .ewsr
  | wrsr (v : Byte) : FrameOf [Config.opcWrsr, v] (.wrsr v)

/-- Bytes that decode to a command are a frame of it. -/
theorem frameOf_of_decodeFrame {w : List Byte} {i : Instr} (h : decodeFrame w = .command i) : FrameOf w i := by
  cases w with
  | nil => cases h
  | cons o l =>
    rw [decodeFrame] at h
    split_ifs at h with ho ho ho ho ho ho ho ho <;> subst ho
    · obtain ⟨rfl, rfl⟩ := decodeO_command_iff.1 h
      exact .wren
    · obtain ⟨rfl, rfl⟩ := decodeO_command_iff.1 h
      exact .ewsr
    · obtain ⟨rfl, rfl⟩ := decodeO_command_iff.1 h
      exact .ce
    · obtain ⟨v, rfl, rfl⟩ := decodeOP_command_iff.1 h
      exact .rdsr v
    · obtain ⟨v, rfl, rfl⟩ := decodeOP_command_iff.1 h
      exact .wrsr v
    · obtain ⟨a, rfl, rfl⟩ := decodeOA_command h
      exact .se a
    · obtain ⟨a, v, rfl, rfl⟩ := decodeOAP_command h
      exact .program a v
    · obtain ⟨a, m, rfl, rfl⟩ := decodeOAN_command h
      exact .read a m

/-- A frame of a command whose dummies are 0x00 is the one the encoder writes (R105, R112). -/
theorem FrameOf.encode_eq {w : List Byte} {i : Instr} (h : FrameOf w i) (hd : ∀ b ∈ dummies i w, b = 0x00#8) :
    encode i = w := by
  cases h with
  | read a m =>
    have hm : dummies (.read a m.length) (Config.opcRead :: (addrBytesOf a ++ m)) = m := rfl
    rw [hm] at hd
    rw [encode_read, List.eq_replicate_of_mem hd, List.length_replicate]
    rfl
  | rdsr v =>
    rw [hd v (List.mem_singleton_self v)]
    rfl
  | se a => exact congrArg _ (List.append_nil _)
  | program a v => rfl
  | wren => rfl
  | ce => rfl
  | ewsr => rfl
  | wrsr v => rfl

theorem encode_injective {i j : Instr} (h : encode i = encode j) : i = j := by
  have hij : Decoded.command i = .command j := by rw [← decodeFrame_encode i, h, decodeFrame_encode j]
  exact Decoded.command.inj hij

/-- Settles O1: the decoder reads what the encoder wrote, and takes nothing but the frames of table SHAPE. -/
theorem roundTrip : Obligations.RoundTrip :=
  ⟨decodeFrame_encode, fun _ _ h hd => (frameOf_of_decodeFrame h).encode_eq hd, fun _ _ => encode_injective⟩

/-! ### Illegal frames (R108, R109, R111) -/

theorem decodeFrame_unassigned {o : Byte} (w : List Byte)
    (h : o ∉ [Config.opcWrsr, Config.opcProgram, Config.opcRead, Config.opcRdsr, Config.opcWren, Config.opcSe,
      Config.opcEwsr, Config.opcCe]) :
    decodeFrame (o :: w) = .illegal .opcode := by
  simp only [List.mem_cons, List.not_mem_nil, or_false, not_or] at h
  obtain ⟨hwrsr, hprogram, hread, hrdsr, hwren, hse, hewsr, hce⟩ := h
  rw [decodeFrame, if_neg hwren, if_neg hewsr, if_neg hce, if_neg hrdsr, if_neg hwrsr, if_neg hse, if_neg hprogram,
    if_neg hread]

/-- A frame that ends inside a byte (R109). -/
theorem decodePulses_partByte {pulses : Nat} (w : List Byte) (h : pulses % 8 ≠ 0) :
    decodePulses pulses w = .illegal .length :=
  if_neg h

theorem decodePulses_wholeBytes (w : List Byte) : decodePulses (8 * w.length) w = decodeFrame w :=
  if_pos (Nat.mul_mod_right 8 w.length)

/-- The device refuses a frame that ends inside a byte (R83). -/
theorem onDeselect_partByte {s : State} (h : s.dev.rxBits % 8 ≠ 0) :
    onDeselect s = .fault (.illegalFrame s.dev.rxBytes) := by
  have hpulses : pulsesSeen s.dev % 8 ≠ 0 := by rwa [pulsesSeen, Nat.mul_add_mod]
  rw [onDeselect, decodePulses_partByte _ hpulses]
  rfl

/-- Settles O3: each opcode by the lengths its format refuses. -/
theorem illegalEncodings : Obligations.IllegalEncodings :=
  ⟨rfl, fun _ w h => decodeFrame_unassigned w h,
    fun _ h => ⟨decodeO_length h, decodeO_length h, decodeO_length h⟩,
    fun _ h => ⟨decodeOP_length h, decodeOP_length h⟩,
    fun _ h => decodeOA_length h, fun _ h => decodeOAP_length h, fun _ h => decodeOAN_length h,
    fun _ w h => decodePulses_partByte w h, decodePulses_wholeBytes, fun _ h => onDeselect_partByte h⟩

/-! ### The requests that Transaction admits (R107, R110) -/

theorem encodeFrame_admitted (i : Instr) : (encodeFrame i).admitted = true := by
  cases i with
  | read a n => exact Bool.or_true _
  | program a v => rfl
  | wren => rfl
  | rdsr => rfl
  | ce => rfl
  | se a => rfl
  | ewsr => rfl
  | wrsr v => rfl

/-- A payload in the inbound direction is sent as dummies; an empty one is none in either direction (R105; log 21). -/
theorem doPayload_of_inbound {r : Request} (h : r.dirOk .inbound = true) : r.doPayload = places r.buf.length := by
  obtain ⟨opc, addr, dir, buf⟩ := r
  cases dir with
  | inbound => rfl
  | outbound =>
    obtain rfl : buf = [] := by simpa [Request.dirOk] using h
    rfl

/-- A payload in the outbound direction is sent as it is; an empty one is none in either direction (log 21). -/
theorem doPayload_of_outbound {r : Request} (h : r.dirOk .outbound = true) : r.doPayload = r.buf := by
  obtain ⟨opc, addr, dir, buf⟩ := r
  cases dir with
  | inbound =>
    obtain rfl : buf = [] := by simpa [Request.dirOk] using h
    rfl
  | outbound => rfl

theorem doPayload_of_empty {r : Request} (h : r.buf = []) : r.doPayload = [] := by
  have hdir : r.dirOk .outbound = true := by rw [Request.dirOk, h]; rfl
  rw [doPayload_of_outbound hdir, h]

theorem doPayload_read (a : Addr) (n : Nat) : (encodeFrame (.read a n)).doPayload = places n :=
  congrArg places List.length_replicate

/-- Requests with one opcode, one address and one payload on `DO` send one frame. -/
theorem encode_eq_doBytes {i : Instr} {r : Request} (hopc : r.opc = (encodeFrame i).opc)
    (haddr : r.addr = (encodeFrame i).addr) (hpay : r.doPayload = (encodeFrame i).doPayload) :
    encode i = r.doBytes := by
  rw [encode, Request.doBytes, Request.doBytes, Request.doAddr, Request.doAddr, hopc, haddr, hpay]

/-- Each row of table SHAPE sends the frame of its command. -/
theorem exists_encode_of_admitted {r : Request} (h : r.admitted = true) : ∃ i, encode i = r.doBytes := by
  rw [Request.admitted] at h
  split_ifs at h with ho ho ho ho ho ho ho ho <;>
    simp only [Bool.and_eq_true, Option.isSome_iff_exists, Option.isNone_iff_eq_none, beq_iff_eq,
      List.length_eq_one_iff, List.isEmpty_iff] at h
  · obtain ⟨⟨a, ha⟩, hdir⟩ := h
    exact ⟨.read a r.buf.length, encode_eq_doBytes ho ha ((doPayload_of_inbound hdir).trans (doPayload_read a _).symm)⟩
  · obtain ⟨⟨⟨a, ha⟩, v, hv⟩, hdir⟩ := h
    exact ⟨.program a v, encode_eq_doBytes ho ha ((doPayload_of_outbound hdir).trans hv)⟩
  · obtain ⟨⟨ha, v, hv⟩, hdir⟩ := h
    exact ⟨.rdsr, encode_eq_doBytes ho ha (by rw [doPayload_of_inbound hdir, hv]; rfl)⟩
  · obtain ⟨⟨ha, v, hv⟩, hdir⟩ := h
    exact ⟨.wrsr v, encode_eq_doBytes ho ha ((doPayload_of_outbound hdir).trans hv)⟩
  · obtain ⟨⟨a, ha⟩, hbuf⟩ := h
    exact ⟨.se a, encode_eq_doBytes ho ha (doPayload_of_empty hbuf)⟩
  · exact ⟨.wren, encode_eq_doBytes ho h.1 (doPayload_of_empty h.2)⟩
  · exact ⟨.ce, encode_eq_doBytes ho h.1 (doPayload_of_empty h.2)⟩
  · exact ⟨.ewsr, encode_eq_doBytes ho h.1 (doPayload_of_empty h.2)⟩

/-- Settles O5: what is admitted is the frame of a command, and the decoder reads it (R112). -/
theorem admittedAreTheEightFrames : Obligations.AdmittedAreTheEightFrames := by
  refine ⟨encodeFrame_admitted, fun r h => ?_⟩
  obtain ⟨i, hi⟩ := exists_encode_of_admitted h
  exact ⟨i, hi, hi ▸ decodeFrame_encode i⟩

/-! ### Lengths (R107, R109) and words written out -/

theorem doAddr_length (r : Request) : r.doAddr.length = 3 * r.addr.isSome.toNat := by
  cases h : r.addr <;> simp [Request.doAddr, h]

theorem doPayload_length (r : Request) : r.doPayload.length = r.buf.length := by
  cases h : r.dir <;> simp [Request.doPayload, h]

/-- The length of the frame a request sends: `1 + 3*AP + LEN` (R109). -/
theorem doBytes_length (r : Request) : r.doBytes.length = 1 + 3 * r.addr.isSome.toNat + r.buf.length := by
  rw [Request.doBytes, List.length_cons, List.length_append, doAddr_length, doPayload_length]
  omega

theorem encode_read_length (a : Addr) (n : Nat) : (encode (.read a n)).length = 4 + n := by
  rw [encode, doBytes_length]
  exact congrArg (4 + ·) List.length_replicate

/-- Settles O4: `doBytes_length` at the encoder's requests. -/
theorem frameLengths : Obligations.FrameLengths :=
  ⟨fun i => doBytes_length (encodeFrame i), encode_read_length, fun _ _ => rfl, rfl, rfl, rfl, fun _ => rfl, rfl,
    fun _ => rfl⟩

/-- Settles O2: the frames of table SHAPE, evaluated. -/
theorem decodedWords : Obligations.DecodedWords := by
  unfold Obligations.DecodedWords
  decide

end Sys2Proof.Machine
end

section
/-! PROOFS. The byte exchange (spec/40_bit_transport.md R140 to R143, R146, R148): `PutByte`, `GetByte`, and the
completion flag of the PERIPHERAL implementation. -/

namespace Sys2Proof.Machine

open Sys2Proof

/-! ### One byte exchanged (R140, R142, R143, R146) -/

/-- A `PutByte` that ends has exchanged its byte for some byte, in whatever state it was begun. -/
theorem putByte_exchanged {v : Byte} {s t : State} (h : putByte v s = .next t) : ∃ w, Exchanged v w s t := by
  obtain ⟨hkept, w, hblock, htrace⟩ := putByte_kept h
  refine ⟨w, ?_⟩
  constructor
  case trace => simp [wire, htrace]
  case sr => rw [hblock]; exact regByte_loadReg w
  case session => exact hkept.session
  case params => exact hkept.params
  case pending => exact hkept.pending
  all_goals rw [hblock]; rfl

/-- Settles O6: what an exchange that ends has done, and that one with nothing listening ends, in eight draws. -/
theorem putByteExchangesOneByte : Obligations.PutByteExchangesOneByte := by
  intro v s _
  refine ⟨fun t h => putByte_exchanged h, fun hsilent => ?_⟩
  have hput := putByte_silent (v := v) hsilent
  obtain ⟨w, hw⟩ := putByte_exchanged hput
  exact ⟨_, w, hput, hw, afterByteDraw_dev s⟩

/-! ### The byte given back (R141) -/

/-- What is given back is no part of an exchange. -/
theorem Exchanged.withRet {v w : Byte} {s t : State} (h : Exchanged v w s t) (r : Ret) :
    Exchanged v w s { t with ret := r } :=
  ⟨h.trace, h.sr, h.dout, h.sck, h.bitcnt, h.xact, h.done, h.rest, h.session, h.params, h.pending⟩

/-- A `PutByte` called directly, with nothing in progress, gives back the byte it received (R140). -/
theorem opPutByte_givesBack {v : Byte} {s t : State} (hb : blockBusy s = false) (h : opPutByte v s = .next t) :
    ∃ w, Exchanged v w s t ∧ t.ret = .byte w := by
  unfold opPutByte at h
  split at h
  · cases h
  · obtain ⟨u, hu, h⟩ := andThen_eq_next.1 h
    cases h
    obtain ⟨w, hw⟩ := putByte_exchanged hu
    have hphase : u.block.phase = .idle :=
      (congrArg Block.phase hw.rest).trans ((blockBusy_eq_false_iff s).1 hb).2
    rw [endDirectExchange, if_pos ⟨hphase, hw.xact⟩, hw.sr]
    exact ⟨w, hw.withRet _, rfl⟩

/-- Settles O7: `GetByte()` is `PutByte` of the dummy byte, which is 0x00. -/
theorem getByteIsPutByteOfZero : Obligations.GetByteIsPutByteOfZero := by
  intro s hinited _ hidle
  have hget : perform .getByte s = opPutByte 0x00#8 s := perform_of_inited hinited
  have hput : perform (.putByte 0x00#8) s = opPutByte 0x00#8 s := perform_of_inited hinited
  exact ⟨hget.trans hput.symm, fun t h => opPutByte_givesBack hidle (hget ▸ h)⟩

/-! ### The completion flag (R143, R148) -/

/-- A bit cell that ends: one cell more, its three events, the sample shifted in, XACT and DONE as they were (R148). -/
theorem bitCell_cell {s t : State} (h : bitCell s = .next t) :
    t.block.bitcnt = s.block.bitcnt + 1 ∧ t.block.done = s.block.done ∧ t.block.xact = s.block.xact
    ∧ ∃ d, wire t = wire s ++ cellEvents s.block.sr.b7 d ∧ t.block.sr = shiftReg s.block.sr d := by
  obtain ⟨_, d, hblock, htrace⟩ := bitCell_kept h
  rw [hblock]
  exact ⟨rfl, rfl, rfl, d, by simp [wire, htrace, cellTrace, cellEvents], rfl⟩

/-- Settles O8: the load; a shifter step with cells to go, which is a bit cell; and the completion step. -/
theorem doneProtocol : Obligations.DoneProtocol := by
  intro s hperipheral
  refine ⟨fun v => ⟨?_, rfl, rfl, rfl⟩, fun t hcells h => ?_, fun height => ?_⟩
  · simp only [loadByte, hperipheral]
  · rw [shifterStep, if_pos hcells] at h
    exact bitCell_cell h
  · exact if_neg (by rw [height]; decide)

end Sys2Proof.Machine
end

section
/-! PROOFS. The two implementations of BitTransport (spec/40_bit_transport.md R144): nothing on the lines, in the device
or in the framer looks at the implementation or at DONE, so forgetting them before an operation or after it is the
same; only `PutByte` runs on the implementation, and there the two do the same eight bit cells. -/

namespace Sys2Proof.Machine

open Sys2Proof

/-! ### Forgetting the implementation -/

@[simp] theorem forgetTransport_dev (s : State) : (forgetTransport s).dev = s.dev := rfl

/-- An answer without the implementation and its completion flag. -/
def forgotten (r : Result) : Result := andThen r fun t => .next (forgetTransport t)

@[simp] theorem forgotten_next (s : State) : forgotten (.next s) = .next (forgetTransport s) := rfl
@[simp] theorem forgotten_fault (e : Fault) : forgotten (.fault e) = .fault e := rfl
@[simp] theorem forgotten_refused (e : Refusal) : forgotten (.refused e) = .refused e := rfl

theorem sameResult_of_forgotten {r q : Result} (h : forgotten r = forgotten q) : sameResult r q := by
  cases r with
  | next t => cases q <;> simp at h; exact h
  | fault e => cases q <;> simp at h; exact h
  | refused e => cases q <;> simp at h; exact h

/-- Forgetting before the operation `f` is forgetting after it. -/
def Forgets (f : State → Result) : Prop := ∀ s, f (forgetTransport s) = forgotten (f s)

theorem Forgets.andThen {f g : State → Result} (hf : Forgets f) (hg : Forgets g) :
    Forgets fun s => andThen (f s) g := by
  intro s
  simp only [hf s]
  cases f s with
  | next t => exact hg t
  | fault e => rfl
  | refused e => rfl

/-- What the operation `f` answers is the same whatever implementation it starts with, but for what is forgotten. -/
def Blind (f : State → Result) : Prop := ∀ s, forgotten (f (forgetTransport s)) = forgotten (f s)

theorem Forgets.blind {f : State → Result} (h : Forgets f) : Blind f := by
  intro s
  rw [h s]
  cases f s <;> rfl

theorem Blind.forgotten_andThen {g : State → Result} (hg : Blind g) (r : Result) :
    forgotten (andThen (forgotten r) g) = forgotten (andThen r g) := by
  cases r with
  | next t => exact hg t
  | fault e => rfl
  | refused e => rfl

theorem Blind.andThen {f g : State → Result} (hf : Blind f) (hg : Blind g) : Blind fun s => andThen (f s) g := by
  intro s
  rw [← hg.forgotten_andThen (f (forgetTransport s)), hf s, hg.forgotten_andThen]

/-- A blind operation answers the same with either implementation. -/
theorem Blind.sameResult {f : State → Result} (h : Blind f) (tr tr' : Transport) (s : State) :
    sameResult (f (withTransport tr s)) (f (withTransport tr' s)) :=
  sameResult_of_forgotten ((h (withTransport tr s)).symm.trans (h (withTransport tr' s)))

/-! ### Draws, and what the device presents -/

theorem afterDraw_forgetTransport (s : State) : afterDraw (forgetTransport s) = forgetTransport (afterDraw s) := by
  rcases s with ⟨_, _, _, _, _, _, _, _, _, script, _, _⟩
  cases script <;> rfl

theorem drawBits_forgetTransport (n : Nat) (acc : Byte) (s : State) :
    drawBits n acc (forgetTransport s) = ((drawBits n acc s).1, forgetTransport (drawBits n acc s).2) := by
  induction n generalizing acc s with
  | zero => rfl
  | succ n ih =>
    have hbit : drawnBit (forgetTransport s) = drawnBit s := rfl
    rw [drawBits, hbit, afterDraw_forgetTransport, ih, drawBits]

theorem presentDraw_forgetTransport (s : State) :
    presentDraw (forgetTransport s) = forgetTransport (presentDraw s) := by
  unfold presentDraw drawnByte afterByteDraw
  rw [drawBits_forgetTransport]
  rfl

theorem presentStatus_forgetTransport (s : State) :
    presentStatus (forgetTransport s) = forgetTransport (presentStatus s) := by
  unfold presentStatus drawnByte afterByteDraw
  rw [drawBits_forgetTransport]
  rfl

theorem presentArray_forgetTransport (s : State) :
    presentArray (forgetTransport s) = forgetTransport (presentArray s) := by
  unfold presentArray
  rw [presentDraw_forgetTransport, apply_ite forgetTransport]
  rfl

theorem presentNext_forgetTransport (s : State) :
    presentNext (forgetTransport s) = forgetTransport (presentNext s) := by
  unfold presentNext
  rw [forgetTransport_dev]
  cases answerAfter s.dev.rxBytes
  · exact presentDraw_forgetTransport s
  · exact presentStatus_forgetTransport s
  · exact presentArray_forgetTransport s

/-! ### The edges -/

theorem acceptReadHeader_forgets (a : Addr) : Forgets (acceptReadHeader a) := by
  intro s
  simp only [acceptReadHeader, apply_ite forgotten]
  rfl

theorem onByte_forgets (w : Answer) : Forgets (onByte w) := by
  intro s
  cases w
  case array => rfl
  all_goals
    unfold onByte
    rw [forgetTransport_dev]
    cases readHeader s.dev.rxBytes with
    | none => rfl
    | some a => exact acceptReadHeader_forgets a s

theorem onFirstRise_forgets : Forgets onFirstRise := by
  intro s
  unfold onFirstRise
  rw [forgetTransport_dev]
  cases answerAfter s.dev.rxBytes with
  | silent => rfl
  | status =>
    simp only [sampleStatus, forgotten_next, apply_ite forgetTransport]
    rfl
  | array =>
    simp only [apply_ite forgotten]
    rfl

theorem onRise_forgets : Forgets onRise := by
  intro s
  have hfirst := (onFirstRise_forgets.andThen (g := fun t => .next (partByte s.block.dout t)) fun _ => rfl) s
  have hwhole := onByte_forgets (answerAfter s.dev.rxBytes) (wholeByte s.block.dout s)
  simp only [onRise, apply_ite forgotten, ← hfirst, ← hwhole]
  rfl

theorem onFall_forgetTransport (s : State) : onFall (forgetTransport s) = forgetTransport (onFall s) := by
  unfold onFall
  rw [presentNext_forgetTransport, apply_ite forgetTransport]
  rfl

theorem afterSample_forgetTransport (s : State) :
    afterSample (forgetTransport s) = forgetTransport (afterSample s) := by
  unfold afterSample
  rw [afterDraw_forgetTransport, apply_ite forgetTransport]
  rfl

theorem riseWith_forgets (d : Level) : Forgets (riseWith d) := by
  intro s
  simp only [riseWith, apply_ite forgotten, ← onRise_forgets (clockHigh d s)]
  rfl

theorem fallEdge_forgetTransport (s : State) : fallEdge (forgetTransport s) = forgetTransport (fallEdge s) := by
  unfold fallEdge
  rw [apply_ite forgetTransport, ← onFall_forgetTransport]
  rfl

/-- A bit cell does not look at the implementation (R148). -/
theorem bitCell_forgets : Forgets bitCell := by
  intro s
  have hsample := afterSample_forgetTransport (setDo s.block.sr.b7 s)
  have hfall : Forgets fun u => .next (countCell (fallEdge (shiftIn (sampledDi s) u))) := fun u =>
    congrArg (fun t => Host.Outcome.next (countCell t)) (fallEdge_forgetTransport (shiftIn (sampledDi s) u))
  calc bitCell (forgetTransport s)
      = andThen (riseWith (sampledDi s) (afterSample (forgetTransport (setDo s.block.sr.b7 s))))
          fun u => .next (countCell (fallEdge (shiftIn (sampledDi s) u))) := rfl
    _ = forgotten (bitCell s) := by
      rw [hsample]
      exact ((riseWith_forgets (sampledDi s)).andThen hfall) (afterSample (setDo s.block.sr.b7 s))

/-! ### The end of a frame in the device -/

theorem startFlight_forgetTransport (op : FlightOp) (s : State) :
    startFlight op (forgetTransport s) = forgetTransport (startFlight op s) := by
  rcases s with ⟨_, _, _, _, _, _, _, _, _, _, delays, _⟩
  cases delays <;> rfl

theorem acceptWrite_forgets (opc : Byte) (a : Option Nat) (op : FlightOp) : Forgets (acceptWrite opc a op) := by
  intro s
  have hgate : writeGate opc a (forgetTransport s) = writeGate opc a s := rfl
  unfold acceptWrite
  rw [hgate, startFlight_forgetTransport]
  cases writeGate opc a s <;> rfl

theorem endCommand_forgets (i : Instr) : Forgets (endCommand i) := by
  intro s
  cases i with
  | read a n => rfl
  | rdsr => rfl
  | program a v => exact acceptWrite_forgets _ _ _ s
  | se a => exact acceptWrite_forgets _ _ _ s
  | ce => exact acceptWrite_forgets _ _ _ s
  | wren =>
    simp only [endCommand, endWren, apply_ite forgotten]
    rfl
  | ewsr =>
    simp only [endCommand, endEwsr, apply_ite forgotten]
    rfl
  | wrsr v =>
    simp only [endCommand, endWrsr, wrsrFlight, apply_ite forgotten, forgotten_next, apply_ite forgetTransport,
      ← startFlight_forgetTransport]
    rfl

theorem onDeselect_forgets : Forgets onDeselect := by
  intro s
  unfold onDeselect
  rw [forgetTransport_dev]
  cases decodePulses (pulsesSeen s.dev) s.dev.rxBytes with
  | command i => exact endCommand_forgets i s
  | illegal _ => rfl

theorem csnEdge_forgets (b : Level) : Forgets (csnEdge b) := by
  intro s
  have hselect : onSelect (forgetTransport s) = forgetTransport (onSelect s) :=
    presentNext_forgetTransport { s with dev := { s.dev with rxBytes := [], rxShift := 0, rxBits := 0 } }
  have hdevice : (forgetTransport s).params.device = s.params.device := rfl
  unfold csnEdge
  rw [hdevice, onDeselect_forgets, hselect]
  cases s.params.device with
  | oracle => rfl
  | reference => cases b <;> rfl

theorem setCsn_forgets (b : Level) : Forgets (setCsn b) := by
  intro s
  simp only [setCsn, apply_ite forgotten, ← csnEdge_forgets b (driveCsn b s)]
  rfl

/-! ### The byte exchange: eight bit cells, whichever implementation drives them (R142, R143) -/

/-- `n` bit cells. -/
def bitCells : Nat → State → Result
  | 0, s => .next s
  | n + 1, s => andThen (bitCells n s) bitCell

theorem bitCells_forgets (n : Nat) : Forgets (bitCells n) := by
  induction n with
  | zero => exact fun _ => rfl
  | succ n ih => exact ih.andThen bitCell_forgets

theorem bitCells_next {n : Nat} {s t : State} (h : bitCells n s = .next t) :
    t.block.bitcnt = s.block.bitcnt + n ∧ t.params = s.params := by
  induction n generalizing t with
  | zero =>
    cases h
    exact ⟨rfl, rfl⟩
  | succ n ih =>
    obtain ⟨u, hu, h⟩ := andThen_eq_next.1 h
    obtain ⟨hcount, hparams⟩ := ih hu
    have hone := (bitCell_cell h).1
    exact ⟨by omega, (bitCell_kept h).1.params.trans hparams⟩

theorem andThen_congr {r : Result} {f g : State → Result} (h : ∀ t, r = .next t → f t = g t) :
    andThen r f = andThen r g := by
  cases r with
  | next t => exact h t rfl
  | fault e => rfl
  | refused e => rfl

/-- Before its last cell a step of an exchange is a bit cell, in both implementations. -/
theorem transportStep_eq_bitCell {s : State} (h7 : s.block.bitcnt < 7) : transportStep s = bitCell s := by
  have h8 : s.block.bitcnt < Config.byteBits := by simp only [Config.byteBits]; omega
  unfold transportStep
  cases s.params.transport with
  | peripheral => exact if_pos h8
  | bitbang =>
    have hopen : ∀ t, bitCell s = .next t → (.next (closeExchange t) : Result) = .next t := fun t ht => by
      have hcount := (bitCell_cell ht).1
      rw [closeExchange, if_neg (by simp only [Config.byteBits]; omega)]
    simp only [bitbangStep, if_pos h8]
    exact (andThen_congr hopen).trans (andThen_right _)

theorem runExchange_bitCells (n m : Nat) {s : State} (h7 : s.block.bitcnt + n ≤ 7) :
    runExchange (m + n) s = andThen (bitCells n s) (runExchange m) := by
  induction n generalizing m with
  | zero => rfl
  | succ n ih =>
    have hstep : ∀ t, bitCells n s = .next t → runExchange (m + 1) t = andThen (bitCell t) (runExchange m) :=
      fun t ht => by
        have hcount := (bitCells_next ht).1
        rw [runExchange, transportStep_eq_bitCell (by omega)]
    rw [← Nat.succ_add_eq_add_succ, ih (m + 1) (by omega), andThen_congr hstep, bitCells, andThen_assoc]

/-- A `PutByte` is the load, eight bit cells, and the end of the exchange (R142, R143). -/
theorem putByte_eq_bitCells (v : Byte) (s : State) :
    putByte v s = andThen (bitCells 8 (loadByte v s)) fun t => .next (closed s.params t) := by
  have hlast : ∀ t, bitCells 7 (loadByte v s) = .next t →
      runExchange (exchangeSteps s.params - 7) t = andThen (bitCell t) fun u => .next (closed s.params u) :=
    fun t ht => by
      obtain ⟨(h7 : t.block.bitcnt = 7), (hparams : t.params = s.params)⟩ := bitCells_next ht
      rw [← hparams]
      exact runExchange_from_seven h7 fun u hu =>
        ⟨(bitCell_cell hu).1.trans (by rw [h7]), (bitCell_kept hu).1.params⟩
  rw [putByte, exchangeSteps_ge, runExchange_bitCells 7 _ (by simp), andThen_congr hlast]
  exact (andThen_assoc (bitCells 7 (loadByte v s)) bitCell _).symm

/-- How an exchange is closed depends on the implementation in DONE alone (R143). -/
theorem forgotten_closed (p q : Params) (r : Result) :
    forgotten (andThen r fun t => .next (closed p t)) = forgotten (andThen r fun t => .next (closed q t)) := by
  cases r <;> rfl

theorem putByte_blind (v : Byte) : Blind (putByte v) := by
  intro s
  have hload : Blind fun s => .next (loadByte v s) := fun _ => rfl
  have hclosed : Blind fun t => .next (closed s.params t) := fun _ => rfl
  have hcells := hload.andThen ((bitCells_forgets 8).blind.andThen hclosed) s
  rw [putByte_eq_bitCells, putByte_eq_bitCells, forgotten_closed _ s.params]
  exact hcells

/-! ### The framer (R170) -/

theorem startFrame_forgets (r : Request) : Forgets (startFrame r) := fun s =>
  (setCsn_forgets false).andThen (g := fun t => .next (setPhase .opcode t)) (fun _ => rfl)
    { s with block := latchRequest r s.block }

theorem endFrame_forgets : Forgets endFrame :=
  (setCsn_forgets true).andThen fun _ => rfl

theorem sendPlaces_blind (ks : List (Fin Config.addrBytes)) : Blind (sendPlaces ks) := by
  induction ks with
  | nil => exact fun _ => rfl
  | cons k ks ih =>
    have hput : Blind fun s => putByte (addrByte k.val s.block.addr) (setPhase (.addr k) s) := fun s =>
      putByte_blind _ (setPhase (.addr k) s)
    exact hput.andThen ih

theorem sendAddr_blind : Blind sendAddr := by
  intro s
  have hap : (forgetTransport s).block.ap = s.block.ap := rfl
  unfold sendAddr
  rw [hap]
  split
  · exact sendPlaces_blind addrPlaces s
  · rfl

theorem payloadLoop_blind (n : Nat) : Blind (payloadLoop n) := by
  induction n with
  | zero => exact fun _ => rfl
  | succ n ih =>
    have hput : Blind fun s => putByte (payloadOut s.block) s := fun s => putByte_blind (payloadOut s.block) s
    have hstore : Forgets fun t => .next { t with block := storePayload t.block } := fun t => by
      cases hdir : t.block.dir <;> simp [storePayload, forgetTransport, withTransport, hdir]
    exact hput.andThen (hstore.blind.andThen ih)

theorem frameBody_blind : Blind frameBody := by
  have hopcode : Blind fun s => putByte s.block.opc s := fun s => putByte_blind s.block.opc s
  have hpayload : Blind fun s => payloadLoop s.block.len (setPhase .payload s) := fun s =>
    payloadLoop_blind s.block.len (setPhase .payload s)
  exact hopcode.andThen (sendAddr_blind.andThen (hpayload.andThen endFrame_forgets.blind))

theorem transaction_blind (r : Request) : Blind (transaction r) := by
  intro s
  have hgate : transactionGate (forgetTransport s) = transactionGate s := rfl
  unfold transaction
  rw [hgate]
  cases transactionGate s with
  | some e => rfl
  | none => exact (startFrame_forgets r).blind.andThen frameBody_blind s

theorem exec_blind (i : Instr) : Blind (exec i) := by
  have hreturn : Blind fun t => .next (if i = .rdsr then returnByte t else t) := fun t => by
    split <;> rfl
  intro s
  rw [exec_transaction, exec_transaction]
  exact (transaction_blind (encodeFrame i)).andThen hreturn s

/-- Settles O9: no command looks at the implementation, but for DONE. -/
theorem transportsAgree : Obligations.TransportsAgree := fun i s =>
  (exec_blind i).sameResult .bitbang .peripheral s

end Sys2Proof.Machine
end

section
/-! PROOFS. The command framer (spec/41_command_framer.md R170, R183, R184): what every transaction and every command that
ends has done, when one is refused, and the step that runs a frame. -/

namespace Sys2Proof.Machine

open Sys2Proof

/-! ### A transaction that ends (R170, R183) -/

/-- What the device does at the end of a frame, the frame being well formed, is the end of its command; nothing beside the
device and the model's own counters changes (R83). -/
theorem setCsn_true_next {s u : State} (h : setCsn true s = .next u) :
    u = { driveCsn true s with dev := u.dev, delays := u.delays, draws := u.draws } := by
  have hedge : ∀ w, csnEdge true w = .next u → u = { w with dev := u.dev, delays := u.delays, draws := u.draws } := by
    intro w hw
    unfold csnEdge at hw
    split at hw
    · cases hw; rfl
    · simp only [if_true, onDeselect] at hw
      split at hw
      · rw [endCommand_next hw]
      · cases hw
  unfold setCsn at h
  split at h
  · cases h; rfl
  · exact hedge _ h

/-- Every transaction that ends has run as R170 says, and with the reference device every byte that came in is its answer. -/
theorem transaction_ran {r : Request} {s t : State} (h : transaction r s = .next t) :
    ∃ ins, TransactionRan r ins s t ∧ (Reference s → Answered s r.doBytes ins) := by
  rcases transaction_cases r (transaction_gate h) with ⟨x, hins, got, hx, hs, hh, hg, hbuf, hidx⟩ | ⟨f, hf, _⟩
  · rw [hx] at h
    obtain ⟨u, hu, h⟩ := andThen_eq_next.1 h
    cases h
    rw [setCsn_true_next hu]
    exact ⟨hins ++ got, hs.ran hh hg hbuf hidx rfl rfl rfl rfl rfl rfl rfl, hs.answered⟩
  · rw [hf] at h
    cases h

/-- Every command that ends has run as its mnemonic says. -/
theorem exec_ran {i : Instr} {s t : State} (h : exec i s = .next t) :
    ∃ ins, CommandRan i ins s t ∧ (Reference s → Answered s (encode i) ins) := by
  rw [exec_transaction] at h
  obtain ⟨u, hu, h⟩ := andThen_eq_next.1 h
  cases h
  obtain ⟨ins, hran, hans⟩ := transaction_ran hu
  exact ⟨ins, hran.command, hans⟩

/-- Settles O10: `exec_ran` and `transaction_ran`, the buffer read off by `ExtractPayload`. -/
theorem frameOnTheWire : Obligations.FrameOnTheWire := by
  refine ⟨fun i s t h => ?_, fun r s t h => ?_⟩
  · obtain ⟨ins, hran, _⟩ := exec_ran h
    exact ⟨ins, hran, (filled_encodeFrame i hran.lengths).trans (by cases i <;> rfl)⟩
  · obtain ⟨ins, hran, _⟩ := transaction_ran h
    exact ⟨ins, hran⟩

/-! ### The trace at levels L, B and F (R183) -/

theorem byteEvents_length (o i : Byte) : (byteEvents o i).length = 24 := rfl

theorem byteEvents_pulses (o i : Byte) : ((byteEvents o i).filter isPulse).length = 8 := rfl

/-- The events of `n` byte exchanges: 24 each, eight of them clock pulses. -/
theorem bytesEvents_length {outs ins : List Byte} (h : ins.length = outs.length) :
    (bytesEvents outs ins).length = 24 * outs.length
    ∧ ((bytesEvents outs ins).filter isPulse).length = 8 * outs.length := by
  induction outs generalizing ins with
  | nil => exact ⟨rfl, rfl⟩
  | cons o outs ih =>
    obtain _ | ⟨i, ins⟩ := ins
    · simp at h
    · obtain ⟨hlen, hpulses⟩ := ih (by simpa using h)
      rw [bytesEvents, List.filter_append, List.length_append, List.length_append, hlen, hpulses, byteEvents_length,
        byteEvents_pulses, List.length_cons]
      omega

/-- Eight bit cells of a byte exchange read back as its two bytes. -/
theorem readCells_byteEvents (o i : Byte) (es : List LineEvent) :
    readCells Config.byteBits (byteEvents o i ++ es) 0 0 = some (o, i, es) := by
  simp only [byteEvents, cellEvents, List.cons_append, List.nil_append, Config.byteBits, readCells, shiftConcat_eight]

/-- The bytes of a frame at level B: one exchange each. -/
theorem levelBUpTo_bytesEvents {outs ins : List Byte} (h : ins.length = outs.length) (k : Nat) (es : List LineEvent) :
    levelBUpTo (outs.length + k) (bytesEvents outs ins ++ es)
      = (levelBUpTo k es).map (List.zipWith ByteEvent.xfer outs ins ++ ·) := by
  induction outs generalizing ins with
  | nil => simp [bytesEvents]
  | cons o outs ih =>
    obtain _ | ⟨i, ins⟩ := ins
    · simp at h
    · have hread := readCells_byteEvents o i (bytesEvents outs ins ++ es)
      have hcell : levelBUpTo (outs.length + k + 1) (byteEvents o i ++ (bytesEvents outs ins ++ es))
          = (levelBUpTo (outs.length + k) (bytesEvents outs ins ++ es)).map (ByteEvent.xfer o i :: ·) := by
        simp only [byteEvents, cellEvents, List.cons_append, List.nil_append] at hread ⊢
        rw [levelBUpTo, hread]
        simp
      rw [bytesEvents, List.append_assoc, List.length_cons, Nat.add_right_comm, hcell, ih (by simpa using h),
        Option.map_map]
      rfl

/-- A frame at level B (R183). -/
theorem levelB_frameEvents {outs ins : List Byte} (h : ins.length = outs.length) :
    levelB (frameEvents outs ins) = some (.sel :: (List.zipWith ByteEvent.xfer outs ins ++ [.desel])) := by
  have hfuel : (frameEvents outs ins).length = (outs.length + (23 * outs.length + 1)) + 1 := by
    rw [frameEvents, List.length_cons, List.length_append, (bytesEvents_length h).1, List.length_singleton]
    omega
  rw [levelB, hfuel, frameEvents, levelBUpTo, levelBUpTo_bytesEvents h, levelBUpTo, levelBUpTo]
  rfl

/-- The exchanges of an open frame at level F, up to its DESEL. -/
theorem levelFFrom_xfers {outs ins : List Byte} (h : ins.length = outs.length) (f : FrameEvent) :
    levelFFrom (some f) (List.zipWith ByteEvent.xfer outs ins ++ [.desel]) = some [⟨f.outs ++ outs, f.ins ++ ins⟩] := by
  induction outs generalizing ins f with
  | nil =>
    obtain rfl := List.length_eq_zero_iff.1 h
    simp [levelFFrom]
  | cons o outs ih =>
    obtain _ | ⟨i, ins⟩ := ins
    · simp at h
    · rw [List.zipWith_cons_cons, List.cons_append, levelFFrom, ih (by simpa using h)]
      simp

/-- A frame at level F: one event (R183). -/
theorem levelF_frameEvents {outs ins : List Byte} (h : ins.length = outs.length) :
    levelF (frameEvents outs ins) = some [⟨outs, ins⟩] := by
  rw [levelF, levelB_frameEvents h, Option.bind_some, levelFFrom, levelFFrom_xfers h]
  rfl

/-- Settles O11: the trace is `transaction_ran`'s, its views are those of `frameEvents`. -/
theorem traceLevels : Obligations.TraceLevels := by
  refine ⟨fun r s t _ h => ?_, fun i s => ⟨exec_transaction i s, rfl⟩, fun outs ins h => ⟨?_, ?_, ?_, ?_⟩⟩
  · obtain ⟨ins, hran, _⟩ := transaction_ran h
    exact ⟨ins, hran.lengths, hran.trace, doBytes_length r⟩
  · rw [frameEvents, List.length_cons, List.length_append, (bytesEvents_length h).1, List.length_singleton]
    omega
  · rw [frameEvents, List.filter_cons_of_neg (by simp [isPulse]), List.filter_append, List.length_append,
      (bytesEvents_length h).2]
    rfl
  · exact levelB_frameEvents h
  · exact levelF_frameEvents h

/-! ### When a command is refused (R170, R184, R264) -/

/-- What the gate of a transaction refuses, the command is refused for. -/
theorem exec_refused {i : Instr} {s : State} {e : Refusal} (h : transactionGate s = some e) :
    exec i s = .refused e := by
  rw [exec_transaction, transaction, h, andThen_refused]

/-- On lines that are in use a transaction is refused `SecondCaller` (R264(6); log 14). -/
theorem transactionGate_of_linesInUse {s : State} (h : linesInUse s = true) :
    transactionGate s = some .secondCaller := by
  have hi : s.block.inited = true := by
    rw [linesInUse, Bool.and_eq_true] at h
    exact h.1
  simp [transactionGate, hi, h]

/-- The device refuses nothing: it ends a command or faults. -/
theorem endCommand_ne_refused (i : Instr) (s : State) (e : Refusal) : endCommand i s ≠ .refused e := by
  have hgate : ∀ opc a op, acceptWrite opc a op s ≠ .refused e := fun opc a op h => by
    unfold acceptWrite at h
    split at h <;> cases h
  cases i with
  | read a n => exact nofun
  | rdsr => exact nofun
  | program a v => exact hgate _ _ _
  | se a => exact hgate _ _ _
  | ce => exact hgate _ _ _
  | wren =>
    intro h
    simp only [endCommand, endWren] at h
    split at h <;> cases h
  | ewsr =>
    intro h
    simp only [endCommand, endEwsr] at h
    split at h <;> cases h
  | wrsr v =>
    intro h
    simp only [endCommand, endWrsr] at h
    split at h
    · cases h
    · split at h <;> cases h

/-- From a ready state no command is refused. -/
theorem exec_ne_refused (i : Instr) {s : State} (h : Ready s) (e : Refusal) : exec i s ≠ .refused e := by
  cases hdev : s.params.device with
  | oracle =>
    obtain ⟨t, _, ht, _⟩ := exec_oracle i h hdev
    simp [ht]
  | reference =>
    rcases exec_reference_cases i h hdev with ⟨u, _, _, _, _, he⟩ | ⟨f, hf, _⟩
    · rw [he]
      cases hend : endCommand i u with
      | next w => simp
      | fault f => simp
      | refused e' => exact absurd hend (endCommand_ne_refused i u e')
    · simp [hf]

/-- Settles O12: the gate of the transaction, in the order of log 33. -/
theorem whenACommandIsRefused : Obligations.WhenACommandIsRefused := by
  intro i s
  refine ⟨fun hinit => exec_refused ?_, fun hinit hbusy => exec_refused ?_, fun hinit _ hlines => exec_refused ?_,
    exec_ne_refused i⟩
  · simp [transactionGate, hinit]
  · simp [transactionGate, hinit, hbusy]
  · exact transactionGate_of_linesInUse (by simpa [linesInUse, hinit] using hlines)

/-! ### The step that runs a frame (R111, R170; log 2) -/

/-- The caller's next act is a frame whose bytes decode to a command: the step is that command. Where the second caller
holds the lines both are refused `SecondCaller` (log 19). -/
theorem step_frame {s : State} {i : Instr} {outs : List Byte} {rest : List Act} (ho : s.outside = [])
    (hf : flightDue s = none) (hb : blockBusy s = false) (hi : s.block.inited = true)
    (hp : s.pending = .frame outs :: rest) (hd : decodeFrame outs = .command i) : step s = exec i (fetched s) := by
  have hfetched : fetched s = { tick s with pending := rest } := by rw [fetched, hp, List.tail_cons]
  have hperform : perform (.frame outs) { tick s with pending := rest } = exec i { tick s with pending := rest } := by
    rw [perform_of_inited (by simpa using hi)]
    simp only [performInited, opFrame, hd]
  rw [step_caller_cases ho hf hb hp, hfetched, hperform]
  cases hg : guestHolds s with
  | false => rfl
  | true =>
    have hlines : linesInUse (tick s) = true := by
      rw [guestHolds, Bool.and_eq_true] at hg
      rw [tick_linesInUse]
      exact hg.2
    exact (exec_refused (s := { tick s with pending := rest }) (transactionGate_of_linesInUse hlines)).symm

/-- Where the host puts a frame, the operation in flight is not due. -/
theorem flightDue_placeFrame (outs : List Byte) (s : State) : flightDue (placeFrame outs s) = none := by
  have hflight : (placeFrame outs s).dev.inflight = s.dev.inflight.map notDue := rfl
  rw [flightDue, hflight]
  cases s.dev.inflight with
  | none => rfl
  | some f =>
    show (if max f.left 1 = 0 then _ else none) = none
    rw [if_neg (by omega)]

/-- Settles O34: `step_frame`, for the caller's next act and for the place the host puts a frame. -/
theorem stepRunsTheDecodedFrame : Obligations.StepRunsTheDecodedFrame := by
  refine ⟨fun s i outs rest => step_frame, fun s i nbits w hword => ?_⟩
  have hdecode : decodeFrame (tableBytes nbits w) = .command i := by
    unfold decodeTableWord at hword
    split at hword
    · next j hj => cases hword; exact hj
    · cases hword
  exact step_frame rfl (flightDue_placeFrame _ s) rfl rfl rfl hdecode

end Sys2Proof.Machine
end

section
/-! PROOFS. The eight commands with the reference device (spec/41_command_framer.md R175 to R182; spec/20_memory.md R64 to
R72, R84): what each that passes its tests gives back, and what it does to the device. -/

namespace Sys2Proof.Machine

open Sys2Proof

/-! ### A command that meets no fault inside its frame -/

@[simp] theorem commandEnded_dev (i : Instr) (w : State) : (commandEnded i w).dev = w.dev := by
  unfold commandEnded
  split <;> rfl

@[simp] theorem commandEnded_params (i : Instr) (w : State) : (commandEnded i w).params = w.params := by
  unfold commandEnded
  split <;> rfl

/-- The command `i`, begun in `s`, has ended in the device's state `w`: it has run, the bytes `ins` having come in, and the
array and RDPTR are what its frame leaves. -/
structure CommandDone (i : Instr) (ins : List Byte) (s w : State) : Prop where
  exec : exec i s = .next (commandEnded i w)
  ran : CommandRan i ins s (commandEnded i w)
  array : ArrayKept s (commandEnded i w)
  rdptr : (commandEnded i w).dev.rdptr = rdptrAfter s.dev.rdptr (encode i)

theorem CommandDone.params {i : Instr} {ins : List Byte} {s w : State} (h : CommandDone i ins s w) :
    w.params = s.params := by
  rw [← commandEnded_params i w, h.ran.kept.params]

/-- A COMMAND THAT PASSES: nothing stops it inside its frame, so the device, its latches as before the frame, ends it in
every state that the end of the command answers (R83, R170). -/
theorem exec_done {i : Instr} {s : State} (h : Ready s) (hr : Reference s) (hin : ∀ f, ¬ MidStop s (encode i) f) :
    ∃ u, u.params = s.params ∧ DevMid s u (encode i)
      ∧ ∀ w, endCommand i u = .next w → ∃ ins, CommandDone i ins s w ∧ Answered s (encode i) ins := by
  rcases transaction_reference (transactionGate_of_ready h) hr (decodeFrame_encode i) with
    ⟨t, _, _, ht, hs, _⟩ | ⟨f, _, hm⟩
  · have hmid : DevMid s t (encode i) := hs.inFrame.dev_reference hr
    refine ⟨driveCsn true t, hs.inFrame.params, ⟨hmid.frame, hmid.tx_status, hmid.tx_array⟩, fun w hw => ?_⟩
    have hexec : exec i s = .next (commandEnded i w) := by
      rw [exec_transaction, ht, hw]
      rfl
    have hdev : w.dev = { t.dev with status := w.dev.status, armed := w.dev.armed, inflight := w.dev.inflight } := by
      rw [endCommand_next hw]
      rfl
    rw [hmid.frame] at hdev
    obtain ⟨ins, hran, hans⟩ := exec_ran hexec
    refine ⟨ins, ⟨hexec, hran, fun a => ⟨?_, ?_⟩, ?_⟩, hans hr⟩
    · rw [commandEnded_dev, hdev]
    · rw [isLost, commandEnded_dev, hdev]
      rfl
    · rw [commandEnded_dev, hdev]
  · exact absurd hm (hin f)

/-- The device's latches at the end of the frame are those from before it. -/
structure LatchesKept (s u : State) : Prop where
  params : u.params = s.params
  status : u.dev.status = s.dev.status
  armed : u.dev.armed = s.dev.armed
  inflight : u.dev.inflight = s.dev.inflight

theorem LatchesKept.of_devMid {s u : State} {outs : List Byte} (hp : u.params = s.params) (h : DevMid s u outs) :
    LatchesKept s u :=
  ⟨hp, by rw [h.frame], by rw [h.frame], by rw [h.frame]⟩

theorem LatchesKept.flags {s u : State} (h : LatchesKept s u) :
    isBusy u = isBusy s ∧ isWel u = isWel s ∧ isProt u = isProt s := by
  simp only [isBusy, isWel, isProt, h.params, h.status, and_self]

/-- A command that is no READ passes through its frame with RDPTR and the latches as they were. -/
theorem exec_done_of_not_read {i : Instr} {s : State} (h : Ready s) (hr : Reference s)
    (hi : (encodeFrame i).opc ≠ Config.opcRead) :
    ∃ u, LatchesKept s u ∧ ∀ w, endCommand i u = .next w → ∃ ins, CommandDone i ins s w ∧ Answered s (encode i) ins
      ∧ w.dev.rdptr = s.dev.rdptr := by
  obtain ⟨u, hparams, hmid, hdone⟩ :=
    exec_done (i := i) h hr fun f => not_midStop_of_opc fun hhead => hi (Option.some.inj hhead)
  have hsilent : answerAfter (encode i) ≠ .array := fun ha => by
    obtain ⟨rest, he, _⟩ := (answerAfter_array_iff _).1 ha
    exact hi (List.cons.inj he).1
  refine ⟨u, .of_devMid hparams hmid, fun w hw => ?_⟩
  obtain ⟨ins, hd, hans⟩ := hdone w hw
  refine ⟨ins, hd, hans, ?_⟩
  rw [← commandEnded_dev i w, hd.rdptr, rdptrAfter_of_not_array hsilent]

/-! ### READ (R65, R175) -/

/-- The bytes of a READ frame before its payload byte `k`. -/
theorem encode_read_take {a : Addr} {n k : Nat} (hk : k ≤ n) :
    (encode (.read a n)).take (1 + Config.addrBytes + k)
      = Config.opcRead :: (addrBytesOf a ++ List.replicate k Config.dummyByte) := by
  rw [encode_read, show 1 + Config.addrBytes + k = (Config.addrBytes + k) + 1 by omega, List.take_succ_cons,
    ← addrBytesOf_length a, List.take_length_add_append, List.take_replicate, Nat.min_eq_left hk]

/-- The payload byte `k` of a READ that the device has answered is the byte of the array (R65). -/
theorem Answered.read_byte {s : State} {a : Addr} {n k : Nat} {ins : List Byte}
    (h : Answered s (encode (.read a n)) ins) (hl : ins.length = (encode (.read a n)).length) (hk : k < n)
    (hlost : isLost s (a.toNat + k) = false) :
    ins[1 + Config.addrBytes + k]? = some (memRead s.dev.mem (a.toNat + k)) := by
  have hlt : 1 + Config.addrBytes + k < ins.length := by
    rw [hl, encode_read_length]
    simp only [Config.addrBytes]
    omega
  have hget := List.getElem?_eq_getElem hlt
  have harray : answerAfter ((encode (.read a n)).take (1 + Config.addrBytes + k)) = .array :=
    (answerAfter_array_iff _).2 ⟨_, encode_read_take hk.le, by rw [List.length_append, addrBytesOf_length]; omega⟩
  obtain ⟨_, hbyte⟩ := h.array _ _ hget harray
  rw [encode_read_take hk.le, rdptrAfter_read, List.length_replicate] at hbyte
  rw [hget, hbyte hlost]

/-- Settles O14: a READ in range passes, and every byte it gives back is the device's answer at its address. -/
theorem readReturnsTheArray : Obligations.ReadReturnsTheArray := by
  intro a n s hready hreference hidle hbelow hrange
  have hpass : ∀ f, ¬ MidStop s (encode (.read a n)) f := fun f hm => by
    rcases midStop_read hm with ⟨hbusy, _⟩ | ⟨_, hbeyond, _⟩ | ⟨_, _, hpast, _⟩
    · simp [hidle] at hbusy
    · omega
    · omega
  obtain ⟨u, hparams, hmid, hdone⟩ := exec_done hready hreference hpass
  have hkept := LatchesKept.of_devMid hparams hmid
  obtain ⟨ins, hd, hans⟩ := hdone (setArmed false u) rfl
  have hlen : ins.length = (encode (.read a n)).length := hd.ran.lengths
  refine ⟨_, ins, extractPayload (.read a n) ins, hd.exec, hd.ran, hd.ran.ret, ?_, fun k hk hlost => ?_, hd.array, ?_, ?_, ?_,
    ?_⟩
  · rw [extractPayload, List.length_take, List.length_drop, hlen, encode_read_length]
    simp only [Config.addrBytes]
    omega
  · rw [extractPayload, List.getElem?_take_of_lt hk, List.getElem?_drop, hans.read_byte hlen hk hlost]
  · simpa using hkept.status
  · simpa using hkept.inflight
  · rw [hd.rdptr, encode_read, rdptrAfter_read, List.length_replicate]
  · simp

/-! ### RDSR (R72, R178) -/

/-- What RDSR shows is STATUS in the named bits (R72). -/
theorem shownStatus_named (p : Params) (st o : Byte) : shownStatus p st o &&& namedMask p = st &&& namedMask p := by
  refine eq_of_eight_bits fun k _ => ?_
  simp only [shownStatus, BitVec.getLsbD_and, BitVec.getLsbD_or, BitVec.getLsbD_not]
  cases (namedMask p).getLsbD k <;> simp

/-- Two status bytes that agree in the named bits have the same flags (R29, R71). -/
theorem flags_of_named {p : Params} {v w : Byte} (h : v &&& namedMask p = w &&& namedMask p) :
    busyIn p v = busyIn p w ∧ welIn p v = welIn p w ∧ protIn p v = protIn p w := by
  have hbit : ∀ k, (namedMask p).getLsbD k = true → v.getLsbD k = w.getLsbD k := fun k hk => by
    have hk' := congrArg (BitVec.getLsbD · k) h
    simpa [hk] using hk'
  have hbp : v &&& p.bpMask = w &&& p.bpMask := by
    refine eq_of_eight_bits fun k _ => ?_
    rw [BitVec.getLsbD_and, BitVec.getLsbD_and]
    cases hk : p.bpMask.getLsbD k with
    | false => simp
    | true => rw [hbit k (by simp [namedMask, hk])]
  refine ⟨hbit _ ?_, hbit _ ?_, by rw [protIn, hbp, protIn]⟩
  · simp [namedMask, busyMask, bitMask_getLsbD]
  · simp [namedMask, welMask, bitMask_getLsbD]

/-- Settles O15: the byte that follows the opcode shows STATUS. -/
theorem rdsrReturnsTheStatus : Obligations.RdsrReturnsTheStatus := by
  intro s hready hreference
  obtain ⟨u, hkept, hdone⟩ := exec_done_of_not_read (i := .rdsr) hready hreference (by decide)
  obtain ⟨ins, hd, hans, hrdptr⟩ := hdone (setArmed false u) rfl
  obtain ⟨b, v, rfl⟩ := List.length_eq_two.1 (show ins.length = 2 from hd.ran.lengths)
  obtain ⟨o, rfl⟩ := hans.status 1 v rfl rfl
  have hnamed := shownStatus_named s.params s.dev.status o
  obtain ⟨hbusy, hwel, hprot⟩ := flags_of_named hnamed
  refine ⟨_, _, _, hd.exec, hd.ran, hd.ran.ret, hnamed, hbusy, hwel, hprot, hd.array, ?_, ?_, ?_, ?_⟩
  · simpa using hkept.status
  · simpa using hkept.inflight
  · simpa using hrdptr
  · simp

/-! ### WREN and EWSR (R69, R84, R177, R181) -/

/-- Settles O16: the device's end of WREN sets the bit of WEL. -/
theorem wrenSetsTheLatch : Obligations.WrenSetsTheLatch := by
  intro s hready hreference hidle
  obtain ⟨u, hkept, hdone⟩ := exec_done_of_not_read (i := .wren) hready hreference (by decide)
  have hend : endCommand .wren u = .next (setArmed false (setStatus (setMask (welMask u.params) u.dev.status) u)) :=
    if_neg (by rw [hkept.flags.1, hidle]; decide)
  obtain ⟨ins, hd, _, hrdptr⟩ := hdone _ hend
  refine ⟨_, ins, hd.exec, hd.ran, ?_, fun k hk => ?_, hd.array, ?_, ?_, ?_⟩
  · simp [isWel, welMask, welIn_setMask]
  · simp [welMask, setMask_bit, hkept.params, hkept.status, hk]
  · simpa using hkept.inflight
  · simpa using hrdptr
  · simp

/-- Settles O20: the device's end of EWSR writes the latch alone. -/
theorem ewsrArms : Obligations.EwsrArms := by
  intro s hready hreference hidle
  obtain ⟨u, hkept, hdone⟩ := exec_done_of_not_read (i := .ewsr) hready hreference (by decide)
  have hend : endCommand .ewsr u = .next (setArmed true u) := if_neg (by rw [hkept.flags.1, hidle]; decide)
  obtain ⟨ins, hd, _, hrdptr⟩ := hdone _ hend
  refine ⟨_, ins, hd.exec, hd.ran, by simp, ?_, hd.array, ?_, ?_⟩
  · simpa using hkept.status
  · simpa using hkept.inflight
  · simpa using hrdptr

/-! ### PROGRAM, SE, CE (R69, R70, R176, R179, R180) -/

/-- An operation that starts sets BUSY and no other bit of STATUS (R70). -/
theorem startFlight_bit {s : State} (op : FlightOp) (k : Nat) (hk : k ≠ s.params.busyBit.val) :
    (startFlight op s).dev.status.getLsbD k = s.dev.status.getLsbD k := by
  have hstatus : (startFlight op s).dev.status = setMask (bitMask s.params.busyBit) s.dev.status := rfl
  simp [hstatus, setMask_bit, hk]

theorem startFlight_busy (op : FlightOp) (s : State) :
    busyIn s.params (startFlight op s).dev.status = true := by
  have hstatus : (startFlight op s).dev.status = setMask (bitMask s.params.busyBit) s.dev.status := rfl
  simp [hstatus, busyIn_setMask]

/-- A program or erase that passes the tests of R254 leaves the device busy with it, and nothing else of it changed. -/
theorem exec_accepted {i : Instr} {opc : Byte} {a : Option Nat} {op : FlightOp} {s : State} (h : Ready s)
    (hr : Reference s) (hi : (encodeFrame i).opc ≠ Config.opcRead)
    (hend : ∀ u, endCommand i u = acceptWrite opc a op u) (hidle : isBusy s = false) (hwel : isWel s = true)
    (hprot : isProt s = false) (ha : ∀ x, a = some x → x < s.params.capacity) :
    ∃ t ins d, exec i s = .next t ∧ CommandRan i ins s t ∧ isBusy t = true ∧ t.dev.inflight = some ⟨op, d⟩
      ∧ (∀ k, k ≠ s.params.busyBit.val → t.dev.status.getLsbD k = s.dev.status.getLsbD k)
      ∧ ArrayKept s t ∧ t.dev.rdptr = s.dev.rdptr ∧ t.dev.armed = false := by
  obtain ⟨u, hkept, hdone⟩ := exec_done_of_not_read h hr hi
  obtain ⟨hbusyEq, hwelEq, hprotEq⟩ := hkept.flags
  have haccept : endCommand i u = .next (setArmed false (startFlight op u)) := by
    rw [hend, acceptWrite, writeGate_none (hbusyEq.trans hidle) (hwelEq.trans hwel) (hprotEq.trans hprot)
      (by rwa [hkept.params])]
  obtain ⟨ins, hd, _, hrdptr⟩ := hdone _ haccept
  refine ⟨_, ins, drawnDelay u, hd.exec, hd.ran, ?_, ?_, fun k hk => ?_, hd.array, by simpa using hrdptr, by simp⟩
  · rw [isBusy, commandEnded_params, hd.params, commandEnded_dev, setArmed_dev_status, ← hkept.params]
    exact startFlight_busy op u
  · rw [commandEnded_dev, setArmed_dev_inflight]
    rfl
  · rw [commandEnded_dev, setArmed_dev_status, startFlight_bit op k (by rwa [hkept.params]), hkept.status]

/-- Settles O17: `exec_accepted` for PROGRAM. -/
theorem programIsAccepted : Obligations.ProgramIsAccepted := by
  intro a v s hready hreference hidle hwel hprot hrange
  exact exec_accepted hready hreference (by decide : Config.opcProgram ≠ Config.opcRead) (fun _ => rfl) hidle hwel hprot
    fun x hx => Option.some.inj hx ▸ hrange

/-- Settles O18: `exec_accepted` for SE. -/
theorem sectorEraseIsAccepted : Obligations.SectorEraseIsAccepted := by
  intro a s hready hreference hidle hwel hprot hrange
  exact exec_accepted hready hreference (by decide : Config.opcSe ≠ Config.opcRead) (fun _ => rfl) hidle hwel hprot
    fun x hx => Option.some.inj hx ▸ hrange

/-- Settles O19: `exec_accepted` for CE, which has no address. -/
theorem chipEraseIsAccepted : Obligations.ChipEraseIsAccepted := by
  intro s hready hreference hidle hwel hprot
  exact exec_accepted hready hreference (by decide : Config.opcCe ≠ Config.opcRead) (fun _ => rfl) hidle hwel hprot nofun

/-! ### WRSR (R84, R182; log 20) -/

/-- PROT after WRSR is that of the byte written (R71, R84). -/
theorem protIn_writeProtection (p : Params) (st v : Byte) : protIn p (writeProtection p st v) = protIn p v := by
  have hmask : writeProtection p st v &&& p.bpMask = v &&& p.bpMask := by
    refine eq_of_eight_bits fun k _ => ?_
    simp only [writeProtection, BitVec.getLsbD_and, BitVec.getLsbD_or, BitVec.getLsbD_not]
    cases p.bpMask.getLsbD k <;> simp
  rw [protIn, hmask, protIn]

/-- Settles O21: the device's end of an armed WRSR, with and without the busy period of log 20. -/
theorem wrsrWritesProtection : Obligations.WrsrWritesProtection := by
  intro v s hready hreference hidle harmed
  obtain ⟨u, hkept, hdone⟩ := exec_done_of_not_read (i := .wrsr v) hready hreference
    (by decide : Config.opcWrsr ≠ Config.opcRead)
  generalize hw : setArmed false (setStatus (writeProtection u.params u.dev.status v) u) = w at *
  have hend : endCommand (.wrsr v) u = .next (wrsrFlight w) := by
    simp only [endCommand, endWrsr, hkept.armed, harmed, hkept.flags.1, hidle, hw]
    rfl
  have hparams : w.params = s.params := by rw [← hw]; exact hkept.params
  have hstatus : w.dev.status = writeProtection s.params s.dev.status v := by
    rw [← hw, ← hkept.params, ← hkept.status]; rfl
  have hinflight : w.dev.inflight = s.dev.inflight := by rw [← hw]; exact hkept.inflight
  have hdisarmed : w.dev.armed = false := by rw [← hw]; rfl
  obtain ⟨ins, hd, _, hrdptr⟩ := hdone _ hend
  refine ⟨_, ins, hd.exec, hd.ran, ?_, hd.array, by simpa using hrdptr, fun hb => ?_, fun hb => ?_, fun hv hp => ?_⟩
  · rw [commandEnded_dev, wrsrFlight]
    split
    · exact hdisarmed
    · exact hdisarmed
  · rw [commandEnded_dev, wrsrFlight, hparams, hb]
    exact ⟨hstatus, hinflight⟩
  · rw [isBusy, commandEnded_params, hd.params, commandEnded_dev, wrsrFlight, hparams, hb, if_pos rfl]
    refine ⟨?_, ⟨_, rfl⟩, fun k hk => ?_⟩
    · rw [← hparams]
      exact startFlight_busy .writeStatus w
    · rw [startFlight_bit .writeStatus k (by rwa [hparams]), hstatus]
      rfl
  · have hzero : protIn s.params w.dev.status = false := by
      rw [hstatus, protIn_writeProtection, hv, protIn, BitVec.zero_and]
      rfl
    rw [isProt, commandEnded_params, hd.params, commandEnded_dev, wrsrFlight]
    split
    · rw [← hparams, (startFlight_status (by rwa [hparams]) .writeStatus).2.2, hparams]
      exact hzero
    · exact hzero

end Sys2Proof.Machine
end

section
/-! PROOFS. A frame one micro-step at a time (spec/41_command_framer.md R170, R172; spec/40_bit_transport.md R143, R148):
the micro-steps of each byte are its exchange and one step of the framer, and together they are the transaction. -/

namespace Sys2Proof.Machine

open Sys2Proof

theorem resumeMany_add (a b : Nat) (s : State) :
    resumeMany (a + b) s = andThen (resumeMany a s) (resumeMany b) := by
  induction a generalizing s with
  | zero => rw [Nat.zero_add]; rfl
  | succ a ih => rw [Nat.succ_add, resumeMany, resumeMany, andThen_assoc, funext ih]

/-! ### One byte of a frame -/

/-- Inside a transaction the end of an exchange gives nothing back. -/
theorem endDirectExchange_of_phase {s : State} (h : s.block.phase ≠ .idle) : endDirectExchange s = s :=
  if_neg fun hidle => h hidle.1

/-- While an exchange of a transaction is in progress a micro-step is a step of it. -/
theorem resume_exchange {s : State} (hx : s.block.xact = true)
    (hp : ∀ t, transportStep s = .next t → t.block.phase ≠ .idle) : resume s = transportStep s := by
  rw [resume, if_pos hx]
  exact (andThen_congr fun t ht => by rw [endDirectExchange_of_phase (hp t ht)]).trans (andThen_right _)

/-- A step of an exchange that is not its last one leaves it in progress (R142, R143). -/
theorem transportStep_goes_on {s t : State} (hlast : s.block.bitcnt + 1 < exchangeSteps s.params)
    (h : transportStep s = .next t) :
    t.params = s.params ∧ t.block.bitcnt = s.block.bitcnt + 1 ∧ t.block.xact = s.block.xact := by
  cases htr : s.params.transport with
  | bitbang =>
    simp only [exchangeSteps, htr, Config.byteBits] at hlast
    obtain ⟨hkept, d, hblock, _⟩ := transportStep_kept (by omega) h
    rw [hblock]
    exact ⟨hkept.params, rfl, rfl⟩
  | peripheral =>
    simp only [exchangeSteps, htr, Config.byteBits] at hlast
    obtain ⟨hkept, ⟨_, d, hblock, hxact⟩ | ⟨h8, _⟩⟩ := (transportStep_res s).1 t h
    · exact ⟨hkept.params, by rw [hblock]; rfl, hxact htr⟩
    · omega

/-- No step of an exchange moves PHASE. -/
theorem transportStep_phase {s t : State} (h : transportStep s = .next t) : t.block.phase = s.block.phase := by
  obtain ⟨_, ⟨_, d, hblock, _⟩ | ⟨_, hblock, _⟩⟩ := (transportStep_res s).1 t h
  · rw [hblock]; rfl
  · rw [hblock]

/-- The micro-steps left of an exchange of a transaction are the rest of that exchange. -/
theorem resumeMany_runExchange {n : Nat} {s : State} (hn : s.block.bitcnt + n = exchangeSteps s.params)
    (hx : s.block.xact = true) (hp : s.block.phase ≠ .idle) : resumeMany n s = runExchange n s := by
  induction n generalizing s with
  | zero => rfl
  | succ n ih =>
    rw [resumeMany, runExchange, resume_exchange hx fun t ht => by rwa [transportStep_phase ht]]
    refine andThen_congr fun t ht => ?_
    cases n with
    | zero => rfl
    | succ n =>
      obtain ⟨hparams, hcount, hxact⟩ := transportStep_goes_on (by omega) ht
      exact ih (by rw [hparams]; omega) (hxact.trans hx) (by rwa [transportStep_phase ht])

/-- Between two exchanges: XACT is 0, and the PERIPHERAL implementation has DONE set (R23). -/
def BetweenBytes (s : State) : Prop := s.block.xact = false ∧ waitsForever s = false

/-- Between two exchanges a micro-step is the framer's. -/
theorem resume_framer {s : State} (h : BetweenBytes s) : resume s = framerStep s := by
  obtain ⟨hxact, hwait⟩ := h
  simp only [resume, hxact, hwait, Bool.false_eq_true, if_false]

/-- What a byte of a frame leaves as it was in `s`, and that it ends between two exchanges. -/
structure ByteSent (s t : State) : Prop where
  between : BetweenBytes t
  params : t.params = s.params
  ap : t.block.ap = s.block.ap
  len : t.block.len = s.block.len
  idx : t.block.idx = s.block.idx

theorem ByteSent.trans {s t u : State} (h : ByteSent s t) (k : ByteSent t u) : ByteSent s u :=
  ⟨k.between, k.params.trans h.params, k.ap.trans h.ap, k.len.trans h.len, k.idx.trans h.idx⟩

theorem putByte_sent {v : Byte} {s t : State} (h : putByte v s = .next t) :
    ByteSent s t ∧ t.block.phase = s.block.phase := by
  obtain ⟨hkept, w, hblock, _⟩ := putByte_kept h
  have hwait : waitsForever t = false := by
    rw [waitsForever, hkept.params, hblock, exchangedBlock]
    cases s.params.transport <;> simp
  refine ⟨⟨⟨?_, hwait⟩, hkept.params, ?_, ?_, ?_⟩, ?_⟩ <;> rw [hblock] <;> rfl

/-- ONE BYTE: its load, the micro-steps of its exchange, and the framer's step after it. -/
theorem resumeMany_byte {v : Byte} {s : State} (hp : s.block.phase ≠ .idle) :
    resumeMany (exchangeSteps s.params + 1) (loadByte v s) = andThen (putByte v s) framerStep := by
  have hexchange : resumeMany (exchangeSteps s.params) (loadByte v s) = putByte v s :=
    resumeMany_runExchange (by simp) rfl hp
  rw [resumeMany_add, hexchange]
  refine andThen_congr fun t ht => ?_
  rw [resumeMany, resume_framer (putByte_sent ht).1.between]
  exact andThen_right _

/-! ### The header (R170, R172) -/

/-- A phase of the header: OPCODE or one of the address bytes. -/
def isHeader : Phase → Bool
  | .idle => false
  | .opcode => true
  | .addr _ => true
  | .payload => false

/-- In the header the framer's step is the load of the next phase's byte. -/
theorem framerStep_header {s : State} (h : isHeader s.block.phase = true) :
    framerStep s = .next (loadPhase (setPhase (nextPhase s.block.ap s.block.phase) s)) := by
  unfold framerStep
  split
  · next hp => simp [hp, isHeader] at h
  · next hp => simp [hp, isHeader] at h
  · rfl

/-- One header byte: the arc of R172 out of the phase `p` after its exchange. -/
theorem resumeMany_header {p : Phase} {s : State} (h : isHeader p = true) :
    resumeMany (exchangeSteps s.params + 1) (loadPhase (setPhase p s))
      = andThen (putByte (phaseByte (setPhase p s).block) (setPhase p s)) fun u =>
        .next (loadPhase (setPhase (nextPhase s.block.ap p) u)) := by
  have hload : loadPhase (setPhase p s) = loadByte (phaseByte (setPhase p s).block) (setPhase p s) := by
    refine if_neg fun hpay => ?_
    simp only [setPhase_block_phase] at hpay
    simp [hpay.1, isHeader] at h
  have hidle : (setPhase p s).block.phase ≠ .idle := by
    rintro (hp : p = .idle)
    simp [hp, isHeader] at h
  rw [hload, ← setPhase_params p s, resumeMany_byte hidle]
  refine andThen_congr fun u hu => ?_
  obtain ⟨hsent, hphase⟩ := putByte_sent hu
  rw [framerStep_header (by rw [hphase]; exact h), hsent.ap, hphase]
  rfl

/-- The address places from `n` down to 0. -/
def placesDown : (n : Nat) → n < Config.addrBytes → List (Fin Config.addrBytes)
  | 0, h => [⟨0, h⟩]
  | n + 1, h => ⟨n + 1, h⟩ :: placesDown n (Nat.lt_of_succ_lt h)

theorem addrPlaces_eq_placesDown : addrPlaces = placesDown (Config.addrBytes - 1) (by decide) := by decide

/-- The address bytes from the place `n` down: the micro-steps of one byte each, then the load of the payload phase. -/
theorem resumeMany_placesDown (n : Nat) (h : n < Config.addrBytes) (s : State) :
    resumeMany ((n + 1) * (exchangeSteps s.params + 1)) (loadPhase (setPhase (.addr ⟨n, h⟩) s))
      = andThen (sendPlaces (placesDown n h) s) fun u => .next (loadPhase (setPhase .payload u)) := by
  induction n generalizing s with
  | zero =>
    rw [Nat.zero_add, Nat.one_mul, resumeMany_header rfl, placesDown, sendPlaces, andThen_assoc]
    rfl
  | succ n ih =>
    rw [Nat.succ_mul, Nat.add_comm, resumeMany_add, resumeMany_header rfl, placesDown, sendPlaces, andThen_assoc,
      andThen_assoc]
    refine andThen_congr fun u hu => ?_
    rw [← ih (Nat.lt_of_succ_lt h), (putByte_sent hu).1.params]
    rfl

theorem sendPlaces_sent {ks : List (Fin Config.addrBytes)} {s t : State} (hs : BetweenBytes s)
    (h : sendPlaces ks s = .next t) : ByteSent s t := by
  induction ks generalizing s with
  | nil =>
    cases h
    exact ⟨hs, rfl, rfl, rfl, rfl⟩
  | cons k ks ih =>
    obtain ⟨u, hu, h⟩ := andThen_eq_next.1 h
    obtain ⟨hbetween, hparams, hap, hlen, hidx⟩ := (putByte_sent hu).1
    exact ByteSent.trans ⟨hbetween, hparams, hap, hlen, hidx⟩ (ih hbetween h)

theorem sendAddr_sent {s t : State} (hs : BetweenBytes s) (h : sendAddr s = .next t) : ByteSent s t := by
  unfold sendAddr at h
  split at h
  · exact sendPlaces_sent hs h
  · cases h
    exact ⟨hs, rfl, rfl, rfl, rfl⟩

/-- The address phases, when an address is present (R170, R172). -/
theorem resumeMany_sendAddr (s : State) :
    resumeMany (Config.addrBytes * s.block.ap.toNat * (exchangeSteps s.params + 1))
        (loadPhase (setPhase (nextPhase s.block.ap .opcode) s))
      = andThen (sendAddr s) fun u => .next (loadPhase (setPhase .payload u)) := by
  cases hap : s.block.ap with
  | false =>
    rw [sendAddr, if_neg (by simp [hap]), Bool.toNat_false, Nat.mul_zero, Nat.zero_mul]
    rfl
  | true =>
    rw [sendAddr, if_pos hap, addrPlaces_eq_placesDown, ← resumeMany_placesDown]
    rfl

/-! ### The payload and the end (R170, R172) -/

/-- The payload bytes left, `k` of them: the micro-steps of one byte each, and the end of the frame. -/
theorem resumeMany_payload {k : Nat} {s : State} (hs : BetweenBytes s) (hp : s.block.phase = .payload)
    (hk : s.block.idx + k = s.block.len) :
    resumeMany (k * (exchangeSteps s.params + 1) + 1) (loadPhase s) = andThen (payloadLoop k s) endFrame := by
  induction k generalizing s with
  | zero =>
    have hload : loadPhase s = s := if_pos ⟨hp, by omega⟩
    have hframer : framerStep s = endFrame s := by
      simp only [framerStep, hp]
      exact if_neg (by omega)
    rw [Nat.zero_mul, Nat.zero_add, hload, resumeMany, resume_framer hs, hframer]
    exact andThen_right _
  | succ k ih =>
    have hload : loadPhase s = loadByte (payloadOut s.block) s := by
      rw [loadPhase, if_neg (by omega), phaseByte, hp]
    have hframer : ∀ t, putByte (payloadOut s.block) s = .next t →
        framerStep t = .next (loadPhase { t with block := storePayload t.block }) := fun t ht => by
      obtain ⟨hsent, hphase⟩ := putByte_sent ht
      simp only [framerStep, hphase, hp]
      exact if_pos (by rw [hsent.idx, hsent.len]; omega)
    rw [Nat.succ_mul, Nat.add_right_comm, Nat.add_comm, resumeMany_add, hload, resumeMany_byte (by simp [hp]), payloadLoop,
      andThen_assoc, andThen_assoc]
    refine andThen_congr fun t ht => ?_
    obtain ⟨hsent, hphase⟩ := putByte_sent ht
    obtain ⟨hbetween, hstored, hidx, hlen⟩ : BetweenBytes { t with block := storePayload t.block }
        ∧ (storePayload t.block).phase = .payload ∧ (storePayload t.block).idx = s.block.idx + 1
        ∧ (storePayload t.block).len = s.block.len := by
      rw [← hp, ← hphase, ← hsent.idx, ← hsent.len]
      unfold storePayload
      split <;> exact ⟨hsent.between, rfl, rfl, rfl⟩
    rw [hframer t ht, andThen_next, ← hsent.params]
    exact ih hbetween hstored (by rw [hidx, hlen]; omega)

/-! ### The whole frame -/

/-- The body of a transaction, its arguments latched and the opcode not yet sent. -/
theorem resumeMany_frameBody {s : State} (hp : s.block.phase = .opcode) (hidx : s.block.idx = 0) :
    resumeMany (frameMicroSteps s.params (1 + Config.addrBytes * s.block.ap.toNat + s.block.len)) (loadPhase s)
      = frameBody s := by
  have hself : setPhase .opcode s = s := by rw [setPhase, ← hp]
  have hbyte : phaseByte s.block = s.block.opc := by rw [phaseByte, hp]
  have hopcode := resumeMany_header (p := .opcode) (s := s) rfl
  rw [hself, hbyte] at hopcode
  have hcount : ∀ E, (1 + Config.addrBytes * s.block.ap.toNat + s.block.len) * E + 1
      = E + (Config.addrBytes * s.block.ap.toNat * E + (s.block.len * E + 1)) := fun E => by ring
  rw [frameMicroSteps, hcount, resumeMany_add, hopcode, frameBody, andThen_assoc]
  refine andThen_congr fun s1 h1 => ?_
  have hsent1 := (putByte_sent h1).1
  have haddr := resumeMany_sendAddr s1
  rw [hsent1.params, hsent1.ap] at haddr
  rw [andThen_next, resumeMany_add, haddr, andThen_assoc]
  refine andThen_congr fun s2 h2 => ?_
  have hsent2 := hsent1.trans (sendAddr_sent hsent1.between h2)
  have hpayload := resumeMany_payload (k := s2.block.len) (s := setPhase .payload s2) hsent2.between rfl
    (by rw [setPhase_block_idx, setPhase_block_len, hsent2.idx, hidx, Nat.zero_add])
  rw [andThen_next, ← hpayload, setPhase_params, hsent2.params, hsent2.len]

/-- A TRANSACTION one micro-step at a time, on an idle bus (R170, R172). -/
theorem resumeMany_transaction (r : Request) {s : State} (h : transactionGate s = none) :
    andThen (beginFine r s) (resumeMany (frameMicroSteps s.params r.doBytes.length)) = transaction r s := by
  obtain ⟨t, ht, hs, hidx, _, hphase, _⟩ := startFrame_next r h
  have hcount : 1 + Config.addrBytes * t.block.ap.toNat + t.block.len = r.doBytes.length := by
    rw [hs.inFrame.ap, hs.inFrame.len, doBytes_length]
  simp only [beginFine, transaction, h, ht, andThen_next]
  rw [← hcount, ← hs.inFrame.params, resumeMany_frameBody hphase hidx]

/-- What is left after the last micro-step gives back what the mnemonic gives back (R178). -/
theorem performAll_fineRest (i : Instr) {s : State} (h : s.block.inited = true) :
    performAll (fineRest i) s = .next (if i = .rdsr then returnByte s else s) := by
  cases i with
  | rdsr =>
    rw [fineRest, performAll, perform_of_inited h]
    rfl
  | _ => rfl

/-- Settles O13: `resumeMany_transaction` at the command's encoding, then what its mnemonic gives back. -/
theorem microStepsRunTheFrame : Obligations.MicroStepsRunTheFrame := by
  intro i s hready
  have hframe := resumeMany_transaction (encodeFrame i) (transactionGate_of_ready hready)
  rw [encode, hframe, exec_transaction]
  refine andThen_congr fun t ht => ?_
  obtain ⟨ins, hran, _⟩ := transaction_ran ht
  exact performAll_fineRest i (hran.kept.inited.trans hready.1)

end Sys2Proof.Machine
end

section
/-! PROOFS. The driver's operations (spec/42_flash_engine_sequences.md) as they are taken up: `Init`, `BeginWrite`, the
refusals of R264, and the runs of R221. -/

namespace Sys2Proof.Machine

open Sys2Proof

/-! ### An address operand (R104) -/

/-- An address operand that fits is taken as it is. -/
theorem withAddr_of_lt {a : Nat} {f : Addr → Result} (h : a < 2 ^ 24) : withAddr a f = f (operandAddr a) :=
  if_pos (decide_eq_true h)

theorem withAddr_of_le {a : Nat} {f : Addr → Result} (h : 2 ^ 24 ≤ a) : withAddr a f = .refused .addrWidth :=
  if_neg fun hfits => absurd (of_decide_eq_true hfits) (Nat.not_lt.2 h)

theorem operandAddr_toNat {a : Nat} (h : a < 2 ^ 24) : (operandAddr a).toNat = a := Nat.mod_eq_of_lt h

@[simp] theorem operandAddr_of_toNat (a : Addr) : operandAddr a.toNat = a := BitVec.ofNat_toNat 24 a

/-! ### Init, BeginWrite, refusals (R219, R225, R264) -/

/-- Settles O41: on idle lines, or before any `Init`, neither line changes its level. -/
theorem initEstablishesReset : Obligations.InitEstablishesReset := by
  intro s h
  have hinit : perform .init s = .next (initRegisters (driveCsn true s)) := by
    have hperform : perform .init s = opInit s := if_pos (by simp)
    rw [hperform, opInit]
    split
    · next hinited =>
      obtain ⟨hsck, hcsn⟩ := h.resolve_left (by simp [hinited])
      have hclock : initClock s = s := if_neg (by simp [hsck])
      rw [hclock, setCsn, if_pos hcsn, andThen_next]
    · rfl
  refine ⟨_, hinit, ⟨rfl, rfl, rfl, rfl, rfl⟩, rfl, rfl, rfl, rfl, ?_, rfl⟩
  exact List.reverse_cons

/-- Settles O52: an address that a frame can carry is not looked at any further. -/
theorem beginWriteOpensASession : Obligations.BeginWriteOpensASession := by
  intro s a hinited ha
  have hopened : perform (.beginWrite a) s = .next { s with session := ⟨.opened, a, []⟩, ret := .nothing } := by
    rw [perform_of_inited hinited, performInited, opBeginWrite, withAddr_of_lt ha]
  exact ⟨_, hopened, rfl, rfl, rfl, rfl, rfl⟩

/-- Settles O43: each test comes first in the operation that makes it. -/
theorem refusedBeforeAnythingIsSent : Obligations.RefusedBeforeAnythingIsSent := by
  intro s hinited
  have hperform : ∀ a, perform a s = performInited a s := fun a => perform_of_inited hinited
  refine ⟨fun opc addr dir buf hshape => ?_, fun x hx => ?_, fun buf hmode hbuf hwide => ?_,
    fun a v => ⟨hperform _, hperform _⟩, fun buf hmode => ?_⟩
  · have hrefused : admittedTransaction ⟨opc, addr, dir, buf⟩ s = .refused .notAdmittedShape :=
      if_neg (by simp [hshape])
    cases addr with
    | none => rw [hperform]; exact hrefused
    | some a =>
      simp only [hperform, performInited, Option.map_some, opTransaction, withAddr_of_lt a.isLt, operandAddr_of_toNat]
      exact hrefused
  · simp only [hperform, performInited, opTransaction, opReadByte, opReadArray, opWriteByte, opSectorErase,
      opBeginWrite, withAddr_of_le hx, implies_true, and_self]
  · have hlen : 0 < buf.length := List.length_pos_iff.2 hbuf
    have hfits : rangeFits s.session.cursor buf.length = false := by
      simp only [rangeFits, addrFits, Config.addrBits, Config.byteBits, Config.addrBytes, Bool.or_eq_false_iff,
        beq_eq_false_iff_ne, decide_eq_false_iff_not]
      omega
    simp only [hperform, performInited, opWriteIncrementalArray, hmode, hfits, Bool.false_eq_true, if_false]
  · simp only [hperform, performInited, opWriteIncrementalArray, hmode]

/-! ### One run (R220) -/

/-- The acts of a run: one `WriteByte` for each byte, at ascending addresses. -/
theorem writeActs_eq_map (p : Nat) (bytes : List Byte) :
    writeActs p bytes = (List.range bytes.length).map fun k => .writeByte (p + k) (bytes.getD k 0x00#8) := by
  induction bytes generalizing p with
  | nil => rfl
  | cons v vs ih =>
    rw [writeActs, ih, List.length_cons, List.range_succ_eq_map, List.map_cons, List.map_map]
    simp [Function.comp_def, Nat.add_assoc, Nat.add_comm 1]

/-- What a run puts in front of its bytes: the erase of its sector where the session has not erased it (R220, R296). -/
def eraseActs (erased : List Nat) (p : Nat) : List Act :=
  if sectorIndex p ∈ erased then [] else [.sectorErase (sectorIndex p), .markErased (sectorIndex p)]

theorem opWriteRun_eq (p : Nat) (bytes : List Byte) (s : State) :
    opWriteRun p bytes s = .next (push (eraseActs s.session.erased p ++ writeActs p bytes) s) := by
  simp only [opWriteRun, eraseActs, List.contains_iff_mem]

/-- Settles O54: `opWriteRun_eq`, its bytes by `writeActs_eq_map`. -/
theorem firstTouchErases : Obligations.FirstTouchErases := by
  intro s p bytes hinited
  refine ⟨_, (perform_of_inited hinited).trans (opWriteRun_eq p bytes s), rfl, rfl, rfl, ?_⟩
  rw [push_pending, writeActs_eq_map]
  rfl

/-! ### The runs of a range (R221) -/

/-- The bound on the number of runs is no part of them. -/
theorem runsUpTo_of_le {fuel c n : Nat} (h : n ≤ fuel) : runsUpTo fuel c n = runs c n := by
  unfold runs
  induction n using Nat.strong_induction_on generalizing fuel c with
  | _ n ih =>
    rcases n with _ | n
    · cases fuel <;> rfl
    · obtain ⟨fuel, rfl⟩ : ∃ m, fuel = m + 1 := ⟨fuel - 1, by omega⟩
      have hpos := runLength_pos (c := c) (by omega : 0 < n + 1)
      simp only [runsUpTo, Nat.succ_ne_zero, if_false]
      rw [ih _ (by omega) (by omega : n + 1 - runLength c (n + 1) ≤ fuel),
        ih _ (by omega) (by omega : n + 1 - runLength c (n + 1) ≤ n)]

theorem runs_zero (c : Nat) : runs c 0 = [] := rfl

/-- The runs of a range that is not empty: the one at its front, and those of the rest. -/
theorem runs_of_pos {c n : Nat} (h : 0 < n) :
    runs c n = (c, runLength c n) :: runs (c + runLength c n) (n - runLength c n) := by
  obtain ⟨m, rfl⟩ : ∃ m, n = m + 1 := ⟨n - 1, by omega⟩
  have hpos := runLength_pos (c := c) h
  rw [← runsUpTo_of_le (by omega : m + 1 - runLength c (m + 1) ≤ m)]
  rfl

/-- Ranges by their front run, down to the empty one. -/
theorem runs_induction {P : Nat → Nat → Prop} (hzero : ∀ c, P c 0)
    (hrun : ∀ c n, 0 < n → P (c + runLength c n) (n - runLength c n) → P c n) (c n : Nat) : P c n := by
  induction n using Nat.strong_induction_on generalizing c with
  | _ n ih =>
    rcases Nat.eq_zero_or_pos n with rfl | hpos
    · exact hzero c
    · have := runLength_pos (c := c) hpos
      exact hrun c n hpos (ih _ (by omega) _)

/-- The front run: not empty, inside its sector, and either all of the range or up to the end of the sector. -/
theorem runLength_spec {c n : Nat} (h : 0 < n) :
    1 ≤ runLength c n ∧ runLength c n ≤ 4096 ∧ runLength c n ≤ n
    ∧ sectorIndex (c + runLength c n - 1) = sectorIndex c
    ∧ (runLength c n = n ∨ c + runLength c n = sectorIndex c + 4096) := by
  unfold runLength sectorIndex Config.sectorSize
  omega

/-- The bytes of the runs, one after the other, are the range. -/
theorem runs_bytes (c n : Nat) : (runs c n).flatMap (fun r => List.range' r.1 r.2) = List.range' c n := by
  induction c, n using runs_induction with
  | hzero c => rfl
  | hrun c n hpos ih =>
    obtain ⟨_, _, hle, _⟩ := runLength_spec (c := c) hpos
    rw [runs_of_pos hpos, List.flatMap_cons, ih, List.range'_append_1, Nat.add_sub_cancel' hle]

theorem runs_within (c n : Nat) :
    ∀ r ∈ runs c n, 1 ≤ r.2 ∧ r.2 ≤ 4096 ∧ sectorIndex (r.1 + r.2 - 1) = sectorIndex r.1 := by
  induction c, n using runs_induction with
  | hzero c => simp [runs_zero]
  | hrun c n hpos ih =>
    obtain ⟨hone, hsize, _, hsector, _⟩ := runLength_spec (c := c) hpos
    rw [runs_of_pos hpos]
    exact List.forall_mem_cons.2 ⟨⟨hone, hsize, hsector⟩, ih⟩

/-- The first run of a range starts where the range does. -/
theorem runs_head {c n : Nat} {r : Nat × Nat} (h : (runs c n)[0]? = some r) : 0 < n ∧ r.1 = c := by
  rcases Nat.eq_zero_or_pos n with rfl | hpos
  · cases h
  · rw [runs_of_pos hpos] at h
    cases h
    exact ⟨hpos, rfl⟩

/-- Each further run starts where the one before ended, on the boundary of the next sector. -/
theorem runs_consecutive (c n : Nat) : ∀ k a b, (runs c n)[k]? = some a → (runs c n)[k + 1]? = some b →
    b.1 = a.1 + a.2 ∧ b.1 % 4096 = 0 ∧ sectorIndex b.1 = sectorIndex a.1 + 4096 := by
  induction c, n using runs_induction with
  | hzero c => exact fun k a b ha => by cases ha
  | hrun c n hpos ih =>
    intro k a b ha hb
    rw [runs_of_pos hpos] at ha hb
    cases k with
    | zero =>
      cases ha
      obtain ⟨hmore, hstart⟩ := runs_head hb
      obtain ⟨_, _, _, _, hend⟩ := runLength_spec (c := c) hpos
      have hboundary : b.1 = sectorIndex c + 4096 := by omega
      refine ⟨hstart, ?_⟩
      rw [hboundary]
      unfold sectorIndex Config.sectorSize
      omega
    | succ k => exact ih k a b ha hb

theorem runs_sum (c n : Nat) : ((runs c n).map (·.2)).sum = n := by
  induction c, n using runs_induction with
  | hzero c => rfl
  | hrun c n hpos ih =>
    obtain ⟨_, _, hle, _⟩ := runLength_spec (c := c) hpos
    rw [runs_of_pos hpos, List.map_cons, List.sum_cons, ih, Nat.add_sub_cancel' hle]

/-- As many runs as sectors hold a byte of the range. -/
theorem runs_length (c n : Nat) :
    (runs c n).length = if n = 0 then 0 else sectorIndex (c + n - 1) / 4096 - sectorIndex c / 4096 + 1 := by
  induction c, n using runs_induction with
  | hzero c => rfl
  | hrun c n hpos ih =>
    obtain ⟨hone, _, hle, hsector, hend⟩ := runLength_spec (c := c) hpos
    rw [runs_of_pos hpos, List.length_cons, ih, if_neg hpos.ne']
    split
    · next hall =>
      have hlast : c + runLength c n - 1 = c + n - 1 := by omega
      rw [hlast] at hsector
      omega
    · next hmore =>
      have hboundary := hend.resolve_left (by omega)
      have hlast : c + runLength c n + (n - runLength c n) - 1 = c + n - 1 := by omega
      rw [hlast, hboundary]
      unfold sectorIndex Config.sectorSize at *
      omega

/-- Settles O53: `runs_of_pos` and what follows from it along `runs_induction`. -/
theorem runsPartitionTheRange : Obligations.RunsPartitionTheRange := fun c n =>
  ⟨rfl, fun hn => runs_of_pos (Nat.pos_of_ne_zero hn), runs_bytes c n, runs_within c n, runs_consecutive c n,
    runs_sum c n, runs_length c n⟩

end Sys2Proof.Machine
end

section
/-! PROOFS. The driver's turns (spec/42_flash_engine_sequences.md R210, R211; log 9, log 24): the step that takes up the
caller's next act, what passes in the device meanwhile, and the poll loop. -/

namespace Sys2Proof.Machine

open Sys2Proof

/-! ### What passes in the device in a turn of the caller (R70; log 9) -/

/-- One turn of the caller later: an operation that is due has finished, any other is one step nearer to its end. -/
def pass (s : State) : State :=
  match flightDue s with
  | some f => finishFlight f s
  | none => tick s

theorem pass_frame (s : State) : pass s = { s with dev := (pass s).dev } := by
  unfold pass
  split
  · rfl
  · rw [tick_frame]

@[simp] theorem pass_params (s : State) : (pass s).params = s.params := by rw [pass_frame]
@[simp] theorem pass_block (s : State) : (pass s).block = s.block := by rw [pass_frame]
@[simp] theorem pass_session (s : State) : (pass s).session = s.session := by rw [pass_frame]
@[simp] theorem pass_outside (s : State) : (pass s).outside = s.outside := by rw [pass_frame]
@[simp] theorem pass_ret (s : State) : (pass s).ret = s.ret := by rw [pass_frame]
@[simp] theorem pass_trace (s : State) : (pass s).trace = s.trace := by rw [pass_frame]

theorem pass_of_none {s : State} (h : s.dev.inflight = none) : pass s = s := by
  rw [pass, flightDue, h]
  exact tick_of_none h

@[simp] theorem pass_armed (s : State) : (pass s).dev.armed = s.dev.armed := by
  unfold pass
  split
  · next f _ =>
    have harmed : (flightEffect f.op s).armed = s.dev.armed := by rw [flightEffect_frame]
    exact harmed
  · exact tick_dev_armed s

/-- The finishing step does not depend on the time that was left. -/
theorem finishFlight_of_inflight (op : FlightOp) (n m : Nat) (o : Option Flight) (s : State) :
    finishFlight ⟨op, n⟩ { s with dev := { s.dev with inflight := o } } = finishFlight ⟨op, m⟩ s := by
  cases op with
  | program a v =>
    have hlost : isLost { s with dev := { s.dev with inflight := o } } a = isLost s a := rfl
    simp only [finishFlight, flightEffect, programEffect, hlost]
    split <;> rfl
  | _ => rfl

/-- The state after `n` turns: nothing has passed with nothing in flight. -/
theorem pass_iterate_of_none {s : State} (h : s.dev.inflight = none) (n : Nat) : pass^[n] s = s :=
  Function.iterate_fixed (pass_of_none h) n

/-- The state after `n` turns: an operation with fewer steps left has finished, any other is `n` steps nearer. -/
theorem pass_iterate_of_some {s : State} {f : Flight} (h : s.dev.inflight = some f) (n : Nat) :
    pass^[n] s = if f.left < n then finishFlight f s
      else { s with dev := { s.dev with inflight := some ⟨f.op, f.left - n⟩ } } := by
  induction n with
  | zero => rw [if_neg (Nat.not_lt_zero _), Nat.sub_zero, ← h]; rfl
  | succ n ih =>
    rw [Function.iterate_succ_apply', ih]
    by_cases hended : f.left < n
    · rw [if_pos hended, if_pos (by omega), pass_of_none rfl]
    · rw [if_neg hended, pass, flightDue]
      by_cases hdue : f.left - n = 0
      · rw [if_pos (by omega : f.left < n + 1)]
        simp only [hdue, if_true]
        exact finishFlight_of_inflight f.op 0 f.left _ s
      · rw [if_neg (by omega : ¬ f.left < n + 1)]
        simp only [hdue, if_false, tick, Nat.sub_sub]

/-- How many finishing steps the device takes in `n` turns. -/
def endings (n : Nat) : Option Flight → Nat
  | some f => if f.left < n then 1 else 0
  | none => 0

theorem endings_add (n m : Nat) (s : State) :
    endings (n + m) s.dev.inflight = endings n s.dev.inflight + endings m (pass^[n] s).dev.inflight := by
  cases hf : s.dev.inflight with
  | none => rw [pass_iterate_of_none hf, hf]; rfl
  | some f =>
    rw [pass_iterate_of_some hf]
    by_cases hended : f.left < n
    · simp only [endings, if_pos hended, if_pos (by omega : f.left < n + m)]
      rfl
    · have hmore : f.left - n < m ↔ f.left < n + m := by omega
      simp only [endings, if_neg hended, hmore, Nat.zero_add]

/-- Two states whose devices differ at most in their latches and their place in a frame. -/
structure SameDevice (s t : State) : Prop where
  params : t.params = s.params
  mem : t.dev.mem = s.dev.mem
  lost : t.dev.lost = s.dev.lost
  status : t.dev.status = s.dev.status
  inflight : t.dev.inflight = s.dev.inflight

theorem SameDevice.of_dev {s t : State} (hp : t.params = s.params) (hd : t.dev = s.dev) : SameDevice s t :=
  ⟨hp, by rw [hd], by rw [hd], by rw [hd], by rw [hd]⟩

theorem SameDevice.refl (s : State) : SameDevice s s := .of_dev rfl rfl

theorem SameDevice.trans {s t u : State} (h : SameDevice s t) (k : SameDevice t u) : SameDevice s u :=
  ⟨k.params.trans h.params, k.mem.trans h.mem, k.lost.trans h.lost, k.status.trans h.status,
    k.inflight.trans h.inflight⟩

theorem SameDevice.isBusy {s t : State} (h : SameDevice s t) : isBusy t = isBusy s := by
  rw [Machine.isBusy, h.params, h.status]; rfl

theorem SameDevice.isWel {s t : State} (h : SameDevice s t) : isWel t = isWel s := by
  rw [Machine.isWel, h.params, h.status]; rfl

theorem SameDevice.isProt {s t : State} (h : SameDevice s t) : isProt t = isProt s := by
  rw [Machine.isProt, h.params, h.status]; rfl

theorem SameDevice.arrayKept {s t : State} (h : SameDevice s t) : ArrayKept s t := fun a =>
  ⟨by rw [h.mem], by rw [isLost, h.lost]; rfl⟩

/-- What an operation does to the array depends on the array alone. -/
theorem flightEffect_congr {s t : State} (op : FlightOp) (hp : t.params = s.params) (hm : t.dev.mem = s.dev.mem)
    (hl : t.dev.lost = s.dev.lost) :
    (flightEffect op t).mem = (flightEffect op s).mem ∧ (flightEffect op t).lost = (flightEffect op s).lost := by
  cases op with
  | program a v =>
    have hlost : isLost t a = isLost s a := by rw [isLost, hl]; rfl
    simp only [flightEffect, programEffect, hlost]
    split <;> simp only [hm, hl, and_self]
  | sectorErase a => simp only [flightEffect, sectorEraseEffect, hm, hl, and_self]
  | chipErase => simp only [flightEffect, chipEraseEffect, hm, hp, and_self]
  | writeStatus => exact ⟨hm, hl⟩

theorem SameDevice.finish {s t : State} (h : SameDevice s t) (f : Flight) :
    SameDevice (finishFlight f s) (finishFlight f t) := by
  obtain ⟨hmem, hlost⟩ := flightEffect_congr f.op h.params h.mem h.lost
  refine ⟨h.params, hmem, hlost, ?_, rfl⟩
  simp only [finishFlight, finishedStatus, h.params, h.status]

theorem SameDevice.pass_iterate {s t : State} (h : SameDevice s t) (n : Nat) :
    SameDevice (pass^[n] s) (pass^[n] t) := by
  cases hf : s.dev.inflight with
  | none =>
    rw [pass_iterate_of_none hf, pass_iterate_of_none (h.inflight.trans hf)]
    exact h
  | some f =>
    rw [pass_iterate_of_some hf, pass_iterate_of_some (h.inflight.trans hf)]
    split
    · exact h.finish f
    · exact ⟨h.params, h.mem, h.lost, h.status, rfl⟩

/-- BUSY says whether an operation is in flight (R35(2), R70). -/
def BusyShown (s : State) : Prop := isBusy s = s.dev.inflight.isSome

theorem BusyShown.pass_iterate {s : State} (h : BusyShown s) (n : Nat) : BusyShown (pass^[n] s) := by
  cases hf : s.dev.inflight with
  | none => rwa [pass_iterate_of_none hf]
  | some f =>
    rw [pass_iterate_of_some hf]
    split
    · exact finishedStatus_busy f.op s
    · exact h.trans (by rw [hf]; rfl)

theorem BusyShown.of_same {s t : State} (h : BusyShown s) (k : SameDevice s t) : BusyShown t := by
  rw [BusyShown, k.isBusy, k.inflight]
  exact h

/-! ### The caller's turn (R8, R12) -/

/-- A caller can be served: the machine is ready, the reference device is there, and nothing comes from outside. -/
structure Serving (s : State) : Prop where
  ready : Ready s
  reference : Reference s
  quiet : s.outside = []

/-- The state the caller's next act runs in: it is taken off, and a turn has passed in the device. -/
def taken (s : State) : State := { pass s with pending := s.pending.tail }

@[simp] theorem taken_params (s : State) : (taken s).params = s.params := pass_params s
@[simp] theorem taken_block (s : State) : (taken s).block = s.block := pass_block s
@[simp] theorem taken_session (s : State) : (taken s).session = s.session := pass_session s
@[simp] theorem taken_outside (s : State) : (taken s).outside = s.outside := pass_outside s
@[simp] theorem taken_ret (s : State) : (taken s).ret = s.ret := pass_ret s
@[simp] theorem taken_trace (s : State) : (taken s).trace = s.trace := pass_trace s
@[simp] theorem taken_pending (s : State) : (taken s).pending = s.pending.tail := rfl
@[simp] theorem taken_dev (s : State) : (taken s).dev = (pass s).dev := rfl

theorem taken_of_none {s : State} (h : s.dev.inflight = none) : taken s = { s with pending := s.pending.tail } := by
  rw [taken, pass_of_none h]

theorem Serving.of_unchanged {s t : State} (h : Serving s) (hb : t.block = s.block) (hp : t.params = s.params)
    (ho : t.outside = s.outside) : Serving t :=
  ⟨by rw [Ready, BusIdle, hb]; exact h.ready, by rw [Reference, hp]; exact h.reference, ho.trans h.quiet⟩

theorem Serving.taken {s : State} (h : Serving s) : Serving (taken s) :=
  h.of_unchanged (taken_block s) (taken_params s) (taken_outside s)

/-- With nothing due the step is the caller's next act. -/
theorem Serving.step {s : State} {a : Act} {rest : List Act} (h : Serving s) (hf : flightDue s = none)
    (hp : s.pending = a :: rest) : step s = performInited a (Machine.taken s) := by
  obtain ⟨⟨hinited, hidle⟩, _, hquiet⟩ := h
  have hblock : blockBusy s = false := (blockBusy_eq_false_iff s).2 ⟨hidle.2.1, hidle.1⟩
  rw [step_caller hquiet hf hblock (guestHolds_of_idle hidle) hp, perform_of_inited (by simpa using hinited),
    Machine.taken, pass, hf, hp]
  rfl

/-- THE CALLER'S NEXT ACT: it takes one step, and one before it where the device's finishing step is due. -/
theorem Serving.run_act {s : State} {a : Act} {rest : List Act} (h : Serving s) (hp : s.pending = a :: rest) :
    run (1 + endings 1 s.dev.inflight) s = performInited a (Machine.taken s) := by
  have hone : ∀ u, run 1 u = Machine.step u := fun u => andThen_right _
  cases hdue : flightDue s with
  | none =>
    have hend : endings 1 s.dev.inflight = 0 := by
      unfold flightDue at hdue
      unfold endings
      split at hdue <;> simp_all
    rw [hend, Nat.add_zero, hone, h.step hdue hp]
  | some f =>
    obtain ⟨hflight, hleft⟩ := flightDue_eq_some hdue
    have hend : endings 1 s.dev.inflight = 1 := by rw [hflight, endings, hleft]; rfl
    have hfinish : Machine.step s = .next (finishFlight f s) := by rw [step_quiet h.quiet, insideStep, hdue]
    have hserving : Serving (finishFlight f s) := h.of_unchanged rfl rfl rfl
    rw [hend, run_succ, hfinish, andThen_next, hone, hserving.step rfl hp, taken_of_none rfl, Machine.taken, pass, hdue]
    rfl

/-! ### A driver on its way -/

/-- In `k` steps from `s` the driver has come to `t`, the frames `fs` having gone over the wire, and can go on. -/
structure Driven (s : State) (k : Nat) (fs : List FrameEvent) (t : State) : Prop where
  run : run k s = .next t
  serving : Serving t
  sent : Sent s t fs
  params : t.params = s.params
  session : t.session = s.session

theorem Driven.trans {s t u : State} {j k : Nat} {fs gs : List FrameEvent} (h : Driven s j fs t)
    (i : Driven t k gs u) : Driven s (j + k) (fs ++ gs) u :=
  ⟨by rw [run_add, h.run]; exact i.run, i.serving, sent_append h.sent i.sent, i.params.trans h.params,
    i.session.trans h.session⟩

/-- An act that moves no line and leaves the session alone. -/
theorem Driven.still {s t : State} {a : Act} {rest : List Act} (h : Serving s) (hp : s.pending = a :: rest)
    (ha : movesLines a = false) (hw : ∀ w, sessionAfter a w = w) (hdone : performInited a (taken s) = .next t) :
    Driven s (1 + endings 1 s.dev.inflight) [] t ∧ SameDevice (pass s) t ∧ t.dev.armed = s.dev.armed := by
  have ht := performInited_of_still ha hdone
  rw [hw] at ht
  refine ⟨⟨by rw [h.run_act hp, hdone], ?_, sent_nil ?_, ?_, ?_⟩, ?_, ?_⟩
  · exact h.taken.of_unchanged (by rw [ht]) (by rw [ht]) (by rw [ht])
  · rw [ht]; exact congrArg List.reverse (taken_trace s)
  · rw [ht]; exact taken_params s
  · rw [ht]; exact taken_session s
  · exact .of_dev (by rw [ht]; simp) (by rw [ht]; rfl)
  · rw [ht]; exact pass_armed s

/-- A frame by mnemonic. -/
theorem Driven.frame {s t : State} {i : Instr} {rest : List Act} {ins : List Byte} (h : Serving s)
    (hp : s.pending = frameOf i :: rest) (hexec : exec i (taken s) = .next t) (hran : CommandRan i ins (taken s) t) :
    Driven s (1 + endings 1 s.dev.inflight) [⟨encode i, ins⟩] t ∧ t.pending = rest := by
  have hframe : performInited (frameOf i) (taken s) = exec i (taken s) := by
    simp only [frameOf, performInited, opFrame, decodeFrame_encode]
  have hkept := hran.kept
  refine ⟨⟨by rw [h.run_act hp, hframe, hexec], ?_, sent_one ?_ hran.lengths, ?_, ?_⟩, ?_⟩
  · exact ⟨⟨hkept.inited.trans h.taken.ready.1, hran.idle⟩,
      (congrArg Params.device hkept.params).trans h.taken.reference, hkept.outside.trans h.taken.quiet⟩
  · have hwire : wire (taken s) = wire s := congrArg List.reverse (taken_trace s)
    rw [hran.trace, hwire]
    rfl
  · rw [hkept.params, taken_params]
  · rw [hkept.session, taken_session]
  · rw [hkept.pending, taken_pending, hp, List.tail_cons]

/-! ### Polls -/

/-- From `s` to `t` the driver has done `n` acts, `p` of them whole RDSR frames and the others none on the wire; in the
device nothing has happened beside what passes in `n` turns. -/
structure Polled (s : State) (n p : Nat) (t : State) : Prop where
  driven : ∃ fs, Driven s (n + endings n s.dev.inflight) fs t ∧ fs.map (·.outs) = List.replicate p (encode .rdsr)
  device : SameDevice (pass^[n] s) t
  disarmed : s.dev.armed = false → t.dev.armed = false

theorem Polled.params {s t : State} {n p : Nat} (h : Polled s n p t) : t.params = s.params := by
  obtain ⟨_, hd, _⟩ := h.driven
  exact hd.params

theorem Polled.serving {s t : State} {n p : Nat} (h : Polled s n p t) : Serving t := by
  obtain ⟨_, hd, _⟩ := h.driven
  exact hd.serving

theorem Polled.trans {s t u : State} {n m p q : Nat} (h : Polled s n p t) (k : Polled t m q u) :
    Polled s (n + m) (p + q) u := by
  obtain ⟨fs, hd, hfs⟩ := h.driven
  obtain ⟨gs, kd, hgs⟩ := k.driven
  refine ⟨⟨fs ++ gs, ?_, by rw [List.map_append, hfs, hgs, List.replicate_append_replicate]⟩, ?_,
    fun ha => k.disarmed (h.disarmed ha)⟩
  · have hcount : n + m + endings (n + m) s.dev.inflight
        = n + endings n s.dev.inflight + (m + endings m t.dev.inflight) := by
      rw [endings_add, h.device.inflight]
      omega
    rw [hcount]
    exact hd.trans kd
  · rw [Nat.add_comm n m, Function.iterate_add_apply]
    exact (h.device.pass_iterate m).trans k.device

/-- An act of the driver that sends nothing. -/
theorem Polled.still {s t : State} {a : Act} {rest : List Act} (h : Serving s) (hp : s.pending = a :: rest)
    (ha : movesLines a = false) (hw : ∀ w, sessionAfter a w = w) (hdone : performInited a (taken s) = .next t) :
    Polled s 1 0 t := by
  obtain ⟨hdriven, hsame, harmed⟩ := Driven.still h hp ha hw hdone
  exact ⟨⟨[], hdriven, rfl⟩, hsame, harmed.trans⟩

/-- What RDSR gives back is in the buffer. -/
theorem ret_of_rdsr {ins : List Byte} {s t : State} (h : CommandRan .rdsr ins s t) : t.ret = .byte (firstOfBuf t) := by
  rw [h.ret, firstOfBuf, h.buf, filled_encodeFrame .rdsr h.lengths]
  rfl

/-- After `n` acts an RDSR frame: the byte read shows BUSY as it is when the frame is sent (R72), and the next act finds
it in the buffer. -/
theorem Polled.rdsr {s t : State} {n p : Nat} {rest : List Act} (h : Polled s n p t)
    (hp : t.pending = frameOf .rdsr :: rest) :
    ∃ u, Polled s (n + 1) (p + 1) u ∧ u.pending = rest
      ∧ busyIn (taken u).params (firstOfBuf (taken u)) = isBusy (pass^[n + 1] s) := by
  have hserving := h.serving
  obtain ⟨u, ins, v, hexec, hran, hret, _, hbusy, _, _, _, hstatus, hflight, _, harmed⟩ :=
    rdsrReturnsTheStatus (taken t) hserving.taken.ready hserving.taken.reference
  obtain ⟨hdriven, hpending⟩ := Driven.frame hserving hp hexec hran
  have hmove := (exec_acted hexec).1.dev
  have hsame : SameDevice (pass t) u := ⟨by rw [hdriven.params, pass_params], hmove.mem, hmove.lost, hstatus, hflight⟩
  have hread : firstOfBuf (taken u) = v := by
    rw [ret_of_rdsr hran] at hret
    rw [firstOfBuf, taken_block]
    exact Ret.byte.inj hret
  refine ⟨u, h.trans ⟨⟨_, hdriven, rfl⟩, hsame, fun _ => harmed⟩, hpending, ?_⟩
  have hpassed : isBusy (pass t) = isBusy (pass^[n + 1] s) := by
    rw [Nat.add_comm, Function.iterate_add_apply]
    exact (h.device.pass_iterate 1).isBusy
  rw [hread, taken_params, hdriven.params, ← taken_params, hbusy]
  exact hpassed

/-! ### The poll loop (R211) -/

/-- ONE ROUND OF THE LOOP: a poll, and its test, which looks at BUSY as it is when the frame is sent. -/
theorem poll_round {s : State} {q : Nat} {rest : List Act} (h : Serving s) (hp : s.pending = .poll q :: rest)
    (hbudget : s.params.pollBudget ≠ some q) :
    ∃ t, Polled s 3 1 t ∧ (isBusy (pass^[2] s) = true → t.pending = .poll (q + 1) :: rest)
      ∧ (isBusy (pass^[2] s) = false → t.pending = rest ∧ t.ret = .nothing) := by
  have htop : performInited (.poll q) (taken s) = .next (push [frameOf .rdsr, .pollTest (q + 1)] (taken s)) :=
    if_neg (by simpa using hbudget)
  have h1 := Polled.still h hp rfl (fun _ => rfl) htop
  have hpend1 : (push [frameOf .rdsr, .pollTest (q + 1)] (taken s)).pending
      = frameOf .rdsr :: .pollTest (q + 1) :: rest := by
    rw [push_pending, taken_pending, hp]
    rfl
  obtain ⟨u, h2, hpend2, hbusy⟩ := h1.rdsr hpend1
  have htail : (taken u).pending = rest := by rw [taken_pending, hpend2, List.tail_cons]
  cases hb : isBusy (pass^[2] s) with
  | true =>
    have htest : performInited (.pollTest (q + 1)) (taken u) = .next (push [.poll (q + 1)] (taken u)) :=
      if_pos (hbusy.trans hb)
    refine ⟨_, h2.trans (Polled.still h2.serving hpend2 rfl (fun _ => rfl) htest), fun _ => ?_, nofun⟩
    rw [push_pending, htail]
    rfl
  | false =>
    have htest : performInited (.pollTest (q + 1)) (taken u) = .next { taken u with ret := .nothing } :=
      if_neg (by rw [hbusy, hb]; decide)
    exact ⟨_, h2.trans (Polled.still h2.serving hpend2 rfl (fun _ => rfl) htest), nofun, fun _ => ⟨htail, rfl⟩⟩

/-- `WaitNotBusy()` is taken up: the loop is at its top. -/
theorem waitNotBusy_begins {s : State} {rest : List Act} (h : Serving s) (hp : s.pending = .waitNotBusy :: rest) :
    ∃ t, Polled s 1 0 t ∧ t.pending = .poll 0 :: rest := by
  refine ⟨_, Polled.still h hp rfl (fun _ => rfl) rfl, ?_⟩
  rw [push_pending, taken_pending, hp]
  rfl

/-- The loop has ended, after `p` polls. -/
structure PollsOver (s : State) (n p : Nat) (rest : List Act) (t : State) : Prop where
  polled : Polled s n p t
  polls : 1 ≤ p
  pending : t.pending = rest
  ret : t.ret = .nothing
  noFlight : t.dev.inflight = none

/-- THE LOOP ENDS where no budget stops it, by induction on the time the operation in flight still takes (R211; log
9). -/
theorem poll_ends (m : Nat) : ∀ {s : State} {q : Nat} {rest : List Act}, Serving s → BusyShown s →
    s.params.pollBudget = none → s.pending = .poll q :: rest → (∀ f, s.dev.inflight = some f → f.left < m) →
    ∃ n p t, PollsOver s n p rest t := by
  induction m with
  | zero =>
    intro s q rest h hshown hbudget hp hm
    have hflight : s.dev.inflight = none := Option.eq_none_iff_forall_not_mem.2 fun f hf => absurd (hm f hf) (by omega)
    have hidle : isBusy s = false := hshown.trans (by rw [hflight]; rfl)
    obtain ⟨t, hpolled, _, hend⟩ := poll_round h hp (by simp [hbudget])
    rw [pass_iterate_of_none hflight] at hend
    obtain ⟨hpend, hret⟩ := hend hidle
    refine ⟨3, 1, t, hpolled, Nat.le_refl 1, hpend, hret, ?_⟩
    rw [hpolled.device.inflight, pass_iterate_of_none hflight, hflight]
  | succ m ih =>
    intro s q rest h hshown hbudget hp hm
    obtain ⟨t, hpolled, hmore, hend⟩ := poll_round h hp (by simp [hbudget])
    cases hb : isBusy (pass^[2] s) with
    | false =>
      obtain ⟨hpend, hret⟩ := hend hb
      have hflight : (pass^[2] s).dev.inflight = none := by
        have hshown2 := hshown.pass_iterate 2
        rw [BusyShown, hb] at hshown2
        exact Option.isNone_iff_eq_none.1 (by simpa using hshown2.symm)
      refine ⟨3, 1, t, hpolled, Nat.le_refl 1, hpend, hret, ?_⟩
      rw [hpolled.device.inflight, Function.iterate_succ_apply', pass_of_none hflight, hflight]
    | true =>
      have hshown3 : BusyShown t := (hshown.pass_iterate 3).of_same hpolled.device
      obtain ⟨n, p, u, hover⟩ := ih hpolled.serving hshown3 (by rw [hpolled.params, hbudget]) (hmore hb) fun f hf => by
        rw [hpolled.device.inflight] at hf
        cases hs : s.dev.inflight with
        | none => rw [pass_iterate_of_none hs, hs] at hf; cases hf
        | some g =>
          have hg := hm g hs
          rw [pass_iterate_of_some hs] at hf
          split at hf <;> cases hf
          simp only
          omega
      exact ⟨3 + n, 1 + p, u, hpolled.trans hover.polled, Nat.le_add_right 1 p, hover.pending, hover.ret,
        hover.noFlight⟩

/-- The time left is bounded, so that `WaitNotBusy()` with no budget ends. -/
theorem waitNotBusy_ends {s : State} {rest : List Act} (h : Serving s) (hshown : BusyShown s)
    (hbudget : s.params.pollBudget = none) (hp : s.pending = .waitNotBusy :: rest) :
    ∃ n p t, PollsOver s n p rest t := by
  obtain ⟨t, hpolled, hpend⟩ := waitNotBusy_begins h hp
  have hshown1 : BusyShown t := (hshown.pass_iterate 1).of_same hpolled.device
  obtain ⟨m, hm⟩ : ∃ m, ∀ f, t.dev.inflight = some f → f.left < m := by
    cases t.dev.inflight with
    | none => exact ⟨0, nofun⟩
    | some g => exact ⟨g.left + 1, fun f hf => by cases hf; exact Nat.lt_succ_self _⟩
  obtain ⟨n, p, u, hover⟩ := poll_ends m hpolled.serving hshown1 (by rw [hpolled.params, hbudget]) hpend hm
  exact ⟨1 + n, 0 + p, u, hpolled.trans hover.polled, by rw [Nat.zero_add]; exact hover.polls, hover.pending, hover.ret,
    hover.noFlight⟩

end Sys2Proof.Machine
end

section
/-! PROOFS. The driver's operations that write nothing of the array (spec/42_flash_engine_sequences.md R211 to R213,
R217, R218): the poll loop, the reads, `IsWriteBusy`, `ResetWriteProtection`. -/

namespace Sys2Proof.Machine

open Sys2Proof

/-! ### While nothing ends in the device -/

theorem endings_of_none {s : State} (h : s.dev.inflight = none) (n : Nat) : endings n s.dev.inflight = 0 := by
  rw [h]; rfl

theorem endings_of_le {s : State} {f : Flight} {n : Nat} (h : s.dev.inflight = some f) (hn : n ≤ f.left) :
    endings n s.dev.inflight = 0 := by
  rw [h]
  exact if_neg (Nat.not_lt.2 hn)

/-- Before an operation ends, turns show in nothing but the time it still takes. -/
theorem pass_iterate_of_le {s : State} {f : Flight} {n : Nat} (h : s.dev.inflight = some f) (hn : n ≤ f.left) :
    pass^[n] s = { s with dev := { s.dev with inflight := some ⟨f.op, f.left - n⟩ } } := by
  rw [pass_iterate_of_some h, if_neg (Nat.not_lt.2 hn)]

theorem sameDevice_taken {s : State} (h : s.dev.inflight = none) : SameDevice s (taken s) := by
  rw [taken_of_none h]
  exact ⟨rfl, rfl, rfl, rfl, rfl⟩

/-- With nothing in flight, an act that moves no line and leaves the session alone is one step. -/
theorem Driven.still_idle {s t : State} {a : Act} {rest : List Act} (h : Serving s) (hflight : s.dev.inflight = none)
    (hp : s.pending = a :: rest) (ha : movesLines a = false) (hw : ∀ w, sessionAfter a w = w)
    (hdone : performInited a (taken s) = .next t) :
    Driven s 1 [] t ∧ SameDevice s t ∧ t.dev.armed = s.dev.armed := by
  have hstill := Driven.still h hp ha hw hdone
  rwa [endings_of_none hflight, pass_of_none hflight] at hstill

/-- With nothing in flight, a frame is one step, and leaves the array as it is (R64). -/
theorem Driven.frame_idle {s t : State} {i : Instr} {rest : List Act} {ins : List Byte} (h : Serving s)
    (hflight : s.dev.inflight = none) (hp : s.pending = frameOf i :: rest) (hexec : exec i (taken s) = .next t)
    (hran : CommandRan i ins (taken s) t) :
    Driven s 1 [⟨encode i, ins⟩] t ∧ t.pending = rest ∧ t.dev.mem = s.dev.mem ∧ t.dev.lost = s.dev.lost := by
  obtain ⟨hdriven, hpend⟩ := Driven.frame h hp hexec hran
  rw [endings_of_none hflight] at hdriven
  have hmove := (exec_acted hexec).1.dev
  have hsame := sameDevice_taken hflight
  exact ⟨hdriven, hpend, hmove.mem.trans hsame.mem, hmove.lost.trans hsame.lost⟩

theorem arrayKept_of_eq {s t : State} (hm : t.dev.mem = s.dev.mem) (hl : t.dev.lost = s.dev.lost) : ArrayKept s t :=
  fun a => ⟨by rw [hm], by rw [isLost, hl]; rfl⟩

/-- Acts among which one poll. -/
theorem Polled.one_frame {s t : State} {n : Nat} (h : Polled s n 1 t) :
    ∃ ins, Driven s (n + endings n s.dev.inflight) [⟨[0x05#8, 0x00#8], ins⟩] t := by
  obtain ⟨fs, hdriven, hfs⟩ := h.driven
  obtain ⟨⟨outs, ins⟩, rfl, hone⟩ := List.map_eq_singleton_iff.1 hfs
  have houts : outs = [0x05#8, 0x00#8] := hone
  subst houts
  exact ⟨ins, hdriven⟩

/-! ### The poll loop (R211, R251) -/

theorem Params.wf_budget {p : Params} (h : p.wf = true) : p.pollBudget ≠ some 0 := by
  simp only [Params.wf, Bool.and_eq_true, bne_iff_ne] at h
  exact h.2

/-- Settles O44: `WaitNotBusy()` taken up, and one round. -/
theorem pollEndsAtOnceWhenIdle : Obligations.PollEndsAtOnceWhenIdle := by
  intro s rest hready href hwf hout hflight hidle hp
  obtain ⟨t, h1, hpend⟩ := waitNotBusy_begins ⟨hready, href, hout⟩ hp
  obtain ⟨u, h2, _, hend⟩ := poll_round h1.serving hpend (by rw [h1.params]; exact Params.wf_budget hwf)
  have hsame1 := h1.device
  rw [pass_iterate_of_none hflight] at hsame1
  obtain ⟨hpend2, hret⟩ := hend (by
    rw [pass_iterate_of_none (hsame1.inflight.trans hflight), hsame1.isBusy, hidle])
  have hpolled := h1.trans h2
  have hsame := hpolled.device
  rw [pass_iterate_of_none hflight] at hsame
  obtain ⟨ins, hdriven⟩ := hpolled.one_frame
  rw [endings_of_none hflight] at hdriven
  exact ⟨u, ins, hdriven.run, hdriven.sent, hret, hpend2, hdriven.serving.ready, hdriven.session, hsame.arrayKept,
    hsame.status⟩

/-- With `j` polls made of a budget of more, and the device busy throughout, the loop is at its top again. -/
theorem poll_rounds {s : State} {rest : List Act} {b : Nat} {f : Flight} (h : Serving s)
    (hbudget : s.params.pollBudget = some b) (hbusy : isBusy s = true) (hf : s.dev.inflight = some f)
    (hleft : 3 * b + 2 ≤ f.left) (hp : s.pending = .waitNotBusy :: rest) :
    ∀ j, j ≤ b → ∃ t, Polled s (1 + 3 * j) j t ∧ t.pending = .poll j :: rest := by
  intro j
  induction j with
  | zero => exact fun _ => waitNotBusy_begins h hp
  | succ j ih =>
    intro hj
    obtain ⟨t, hpolled, hpend⟩ := ih (by omega)
    have hmore : s.params.pollBudget ≠ some j := fun he => by
      rw [hbudget] at he
      cases he
      omega
    obtain ⟨u, hround, hgoes, _⟩ := poll_round hpolled.serving hpend (by rwa [hpolled.params])
    refine ⟨u, ?_, hgoes ?_⟩
    · rw [show 1 + 3 * (j + 1) = 1 + 3 * j + 3 by omega]
      exact hpolled.trans hround
    · rw [(hpolled.device.pass_iterate 2).isBusy, ← Function.iterate_add_apply, pass_iterate_of_le hf (by omega)]
      exact hbusy

/-- Settles O45: `b` rounds, and then the test of the budget. -/
theorem pollBudgetIsKept : Obligations.PollBudgetIsKept := by
  intro s rest b f hready href hout hbudget hbusy hf hleft hp
  obtain ⟨t, hpolled, hpend⟩ := poll_rounds ⟨hready, href, hout⟩ hbudget hbusy hf hleft hp b (Nat.le_refl b)
  obtain ⟨fs, hdriven, hfs⟩ := hpolled.driven
  have hsame := hpolled.device
  rw [pass_iterate_of_le hf (by omega)] at hsame
  rw [endings_of_le hf (by omega), Nat.add_zero, Nat.add_comm 1] at hdriven
  have hfault : run 1 t = .fault .hardwareFault := by
    have hact := hpolled.serving.run_act hpend
    rw [endings_of_le hsame.inflight (by simp only; omega)] at hact
    exact hact.trans (if_pos (by rw [taken_params, hpolled.params, hbudget]))
  refine ⟨?_, t, fs, hdriven.run, hdriven.sent, hfs, hdriven.serving.ready, hsame.isBusy.trans hbusy⟩
  rw [run_add (3 * b + 1) 1, hdriven.run]
  exact hfault

/-! ### IsWriteBusy (R218) -/

/-- `IsWriteBusy()`: three acts, one of them the frame, and the answer is BUSY as it is when the frame is sent. -/
theorem isWriteBusy_polled {s : State} {rest : List Act} (h : Serving s) (hp : s.pending = .isWriteBusy :: rest) :
    ∃ t, Polled s 3 1 t ∧ t.ret = .flag (isBusy (pass^[2] s)) ∧ t.pending = rest := by
  have h1 := Polled.still h hp rfl (fun _ => rfl) rfl
  obtain ⟨u, h2, hpend2, hread⟩ := h1.rdsr (rest := .finishOp .busyFlag :: rest) (by
    rw [push_pending, taken_pending, hp]
    rfl)
  have h3 := Polled.still h2.serving hpend2 rfl (fun _ => rfl) rfl
  refine ⟨_, h2.trans h3, congrArg Ret.flag hread, ?_⟩
  show (taken u).pending = rest
  rw [taken_pending, hpend2, List.tail_cons]

/-- Settles O51: where the operation in flight outlasts the call, and where it ends in it. -/
theorem isWriteBusyIsOneStatusRead : Obligations.IsWriteBusyIsOneStatusRead := by
  intro s rest hready href hout hp
  obtain ⟨t, hpolled, hret, hpend⟩ := isWriteBusy_polled ⟨hready, href, hout⟩ hp
  obtain ⟨ins, hdriven⟩ := hpolled.one_frame
  have hsame := hpolled.device
  refine ⟨fun hlasts => ?_, fun f hf hends => ?_⟩
  · have hquiet : endings 3 s.dev.inflight = 0 ∧ isBusy (pass^[2] s) = isBusy s
        ∧ (pass^[3] s).dev.status = s.dev.status ∧ ArrayKept s (pass^[3] s) := by
      cases hf : s.dev.inflight with
      | none =>
        rw [pass_iterate_of_none hf, pass_iterate_of_none hf]
        exact ⟨rfl, rfl, rfl, (SameDevice.refl s).arrayKept⟩
      | some f =>
        have hleft := hlasts f hf
        rw [← hf, endings_of_le hf hleft, pass_iterate_of_le hf hleft, pass_iterate_of_le hf (by omega : 2 ≤ f.left)]
        exact ⟨rfl, rfl, rfl, fun _ => ⟨rfl, rfl⟩⟩
    obtain ⟨hend, hbusy, hstatus, harray⟩ := hquiet
    rw [hend] at hdriven
    refine ⟨t, ins, hdriven.run, by rw [hret, hbusy], hpend, hdriven.serving.ready, fun a => ?_,
      hsame.status.trans hstatus, hdriven.session, hdriven.sent⟩
    obtain ⟨hmem, hlost⟩ := hsame.arrayKept a
    exact ⟨hmem.trans (harray a).1, hlost.trans (harray a).2⟩
  · have hend : endings 3 s.dev.inflight = 1 := by rw [hf]; exact if_pos hends
    have hbusy : isBusy (pass^[2] s) = (isBusy s && f.left == 2) := by
      rw [pass_iterate_of_some hf]
      by_cases hleft : f.left < 2
      · have hnot : (f.left == 2) = false := by simp; omega
        rw [if_pos hleft, hnot, Bool.and_false]
        exact finishedStatus_busy f.op s
      · have htwo : (f.left == 2) = true := by simp; omega
        rw [if_neg hleft, htwo, Bool.and_true]
        rfl
    rw [pass_iterate_of_some hf, if_pos hends] at hsame
    rw [hend] at hdriven
    exact ⟨t, ins, hdriven.run, by rw [hret, hbusy], hpend, hdriven.serving.ready, hsame.inflight,
      hsame.isBusy.trans (finishedStatus_busy f.op s), hdriven.session, hdriven.sent⟩

/-! ### ReadByte, ReadArray (R212, R213) -/

/-- What READ gives back is the buffer. -/
theorem ret_of_read {a : Addr} {n : Nat} {ins : List Byte} {s t : State} (h : CommandRan (.read a n) ins s t) :
    t.ret = .bytes t.block.buf := by
  rw [h.ret, h.buf, filled_encodeFrame (.read a n) h.lengths]
  rfl

/-- The bytes of `[a, a + n)`. -/
def arrayBytes (m : Memory) (a n : Nat) : List Byte := (List.range n).map fun k => memRead m (a + k)

/-- A driver operation that is one READ frame and gives back what `what` says of the bytes read. -/
theorem read_runs {s : State} {a : Addr} {n : Nat} {act : Act} {what : Finish} {rest : List Act} (h : Serving s)
    (hflight : s.dev.inflight = none) (hidle : isBusy s = false) (hlost : s.dev.lost = [])
    (hbelow : a.toNat < s.params.capacity) (hrange : a.toNat + n ≤ s.params.capacity) (hp : s.pending = act :: rest)
    (hstill : movesLines act = false) (hsession : ∀ w, sessionAfter act w = w)
    (htop : performInited act (taken s) = .next (push [frameOf (.read a n), .finishOp what] (taken s))) :
    ∃ t ins, Driven s 3 [⟨encode (.read a n), ins⟩] t ∧ ins.length = 4 + n ∧ ArrayKept s t ∧ t.pending = rest
      ∧ t.block.buf = arrayBytes s.dev.mem a.toNat n ∧ t.ret = finishRet what t := by
  obtain ⟨hdriven1, hsame1, _⟩ := Driven.still_idle h hflight hp hstill hsession htop
  generalize htop1 : push [frameOf (.read a n), .finishOp what] (taken s) = t1 at *
  have hpend1 : t1.pending = frameOf (.read a n) :: .finishOp what :: rest := by
    rw [← htop1, push_pending, taken_pending, hp]
    rfl
  have hflight1 := hsame1.inflight.trans hflight
  have hserving1 := hdriven1.serving
  have hsame2 : SameDevice s (taken t1) := hsame1.trans (sameDevice_taken hflight1)
  obtain ⟨u, ins, vs, hexec, hran, hret, hlen, hbytes, _, _, hflightU, _⟩ :=
    readReturnsTheArray a n (taken t1) hserving1.taken.ready hserving1.taken.reference (hsame2.isBusy.trans hidle)
      (by rwa [hsame2.params]) (by rwa [hsame2.params])
  obtain ⟨hdriven2, hpend2, hmem2, hlost2⟩ := Driven.frame_idle hserving1 hflight1 hpend1 hexec hran
  have hflight2 : u.dev.inflight = none := hflightU.trans (hsame2.inflight.trans hflight)
  obtain ⟨hdriven3, hsame3, _⟩ := Driven.still_idle hdriven2.serving hflight2 hpend2 rfl (fun _ => rfl) rfl
  have hbuf : u.block.buf = arrayBytes s.dev.mem a.toNat n := by
    have hvs : u.block.buf = vs := by
      rw [ret_of_read hran] at hret
      exact Ret.bytes.inj hret
    refine hvs.trans (List.ext_getElem? fun k => ?_)
    by_cases hk : k < n
    · rw [hbytes k hk (by rw [isLost, hsame2.lost, hlost]; rfl), hsame2.mem]
      simp [arrayBytes, hk]
    · rw [List.getElem?_eq_none (by omega), List.getElem?_eq_none (by simp [arrayBytes]; omega)]
  refine ⟨_, ins, (hdriven1.trans hdriven2).trans hdriven3, hran.lengths.trans (encode_read_length a n),
    arrayKept_of_eq (hsame3.mem.trans (hmem2.trans hsame1.mem)) (hsame3.lost.trans (hlost2.trans hsame1.lost)), ?_, ?_,
    ?_⟩
  · show (taken u).pending = rest
    rw [taken_pending, hpend2, List.tail_cons]
  · show (taken u).block.buf = _
    rw [taken_block, hbuf]
  · cases what <;> rfl

/-- Settles O50: `read_runs` with one byte, and with `n`. -/
theorem readOperationsAreOneFrame : Obligations.ReadOperationsAreOneFrame := by
  intro s a n rest hready href hout hflight hidle hlost hbelow
  have hserving : Serving s := ⟨hready, href, hout⟩
  refine ⟨fun hp => ?_, fun hp hrange => ?_⟩
  · have htop : performInited (.readByte a.toNat) (taken s)
        = .next (push [frameOf (.read a 1), .finishOp .firstByte] (taken s)) := by
      rw [performInited, opReadByte, withAddr_of_lt a.isLt, operandAddr_of_toNat]
    obtain ⟨t, ins, hdriven, hlen, harray, hpend, hbuf, hret⟩ :=
      read_runs hserving hflight hidle hlost hbelow hbelow hp rfl (fun _ => rfl) htop
    refine ⟨t, ins, hdriven.run, ?_, hpend, hdriven.sent, hlen, harray, hdriven.serving.ready⟩
    rw [hret, finishRet, firstOfBuf, hbuf]
    rfl
  · have htop : performInited (.readArray a.toNat n) (taken s)
        = .next (push [frameOf (.read a n), .finishOp .allBytes] (taken s)) := by
      rw [performInited, opReadArray, withAddr_of_lt a.isLt, operandAddr_of_toNat]
    obtain ⟨t, ins, hdriven, hlen, harray, hpend, hbuf, hret⟩ :=
      read_runs hserving hflight hidle hlost hbelow hrange hp rfl (fun _ => rfl) htop
    refine ⟨t, ins, hdriven.run, hpend, ?_, hdriven.sent, hlen, harray, hdriven.serving.ready⟩
    rw [hret, finishRet, hbuf]
    rfl

end Sys2Proof.Machine
end

section
/-! PROOFS. The driver's operations that end in a wait (spec/42_flash_engine_sequences.md R214 to R217, R224): their
frames, the wait, and what the operation in flight has done by then. -/

namespace Sys2Proof.Machine

open Sys2Proof

/-! ### The flags after the finishing step (R70, R84) -/

theorem welIn_clearMask (p : Params) (k : Fin 8) (st : Byte) :
    welIn p (clearMask (bitMask k) st) = (welIn p st && !decide (p.welBit = k)) := by
  rw [welIn, welIn, clearMask_bit, decide_eq_decide.2 Fin.ext_iff]

/-- Clearing a bit that is no protection bit leaves PROT (R71). -/
theorem protIn_clearMask {p : Params} {k : Fin 8} (st : Byte) (h : p.bpMask.getLsbD k.val = false) :
    protIn p (clearMask (bitMask k) st) = protIn p st := by
  have hmask : clearMask (bitMask k) st &&& p.bpMask = st &&& p.bpMask := by
    refine eq_of_eight_bits fun j _ => ?_
    rw [BitVec.getLsbD_and, clearMask_bit, BitVec.getLsbD_and]
    by_cases hj : j = k.val
    · rw [hj, h, Bool.and_false, Bool.and_false]
    · simp [hj]
  rw [protIn, hmask, protIn]

/-- No finishing step changes PROT. -/
theorem isProt_finishFlight {s : State} (hp : s.params.wf = true) (f : Flight) :
    isProt (finishFlight f s) = isProt s := by
  obtain ⟨_, hbusyBit, hwelBit⟩ := Params.wf_bits hp
  show protIn s.params (finishedStatus f.op s) = protIn s.params s.dev.status
  cases f.op with
  | writeStatus => exact protIn_clearMask _ hbusyBit
  | _ => exact (protIn_clearMask _ hwelBit).trans (protIn_clearMask _ hbusyBit)

/-- The finishing step of a status write leaves WEL (R84; log 20). -/
theorem isWel_finish_writeStatus {s : State} (hp : s.params.wf = true) (d : Nat) :
    isWel (finishFlight ⟨.writeStatus, d⟩ s) = isWel s := by
  obtain ⟨hapart, _, _⟩ := Params.wf_bits hp
  show welIn s.params (clearMask (bitMask s.params.busyBit) s.dev.status) = welIn s.params s.dev.status
  rw [welIn_clearMask, decide_eq_false (Ne.symm hapart), Bool.not_false, Bool.and_true]

/-! ### The flags after a command (R33) -/

theorem isWel_of_exec {i : Instr} {s t : State} (hr : Reference s) (hp : s.params.wf = true) (h : exec i s = .next t)
    (hi : i ≠ .wren) : isWel t = isWel s := by
  obtain ⟨hwel, _⟩ := whichCommandWritesWhichFlag i s t hr hp h
  by_contra hne
  exact hi (hwel hne).1

theorem isProt_of_exec {i : Instr} {s t : State} (hr : Reference s) (hp : s.params.wf = true) (h : exec i s = .next t)
    (hi : ∀ v, i ≠ .wrsr v) : isProt t = isProt s := by
  obtain ⟨_, _, hprot, _⟩ := whichCommandWritesWhichFlag i s t hr hp h
  by_contra hne
  obtain ⟨v, hv⟩ := hprot hne
  exact hi v hv

/-! ### The wait, and the end of the operation (R211, R224) -/

/-- The wait for the operation `f` in flight has ended, and with it the driver's operation. -/
structure WaitOver (s : State) (f : Flight) (rest : List Act) (t : State) : Prop where
  driven : ∃ k fs q, Driven s k fs t ∧ 1 ≤ q ∧ fs.map (·.outs) = List.replicate q (encode .rdsr)
  device : SameDevice (finishFlight f s) t
  pending : t.pending = rest
  ret : t.ret = .nothing
  disarmed : s.dev.armed = false → t.dev.armed = false

theorem wait_over {s : State} {f : Flight} {rest : List Act} (h : Serving s) (hbusy : isBusy s = true)
    (hf : s.dev.inflight = some f) (hbudget : s.params.pollBudget = none)
    (hp : s.pending = .waitNotBusy :: .finishOp .nothing :: rest) : ∃ t, WaitOver s f rest t := by
  have hshown : BusyShown s := hbusy.trans (by rw [hf]; rfl)
  obtain ⟨n, q, u, hover⟩ := waitNotBusy_ends h hshown hbudget hp
  have hpolled := hover.polled
  have hended : SameDevice (finishFlight f s) u := by
    have hsame := hpolled.device
    rw [pass_iterate_of_some hf] at hsame
    by_cases hn : f.left < n
    · rwa [if_pos hn] at hsame
    · rw [if_neg hn] at hsame
      have hnone := hover.noFlight
      rw [hsame.inflight] at hnone
      cases hnone
  obtain ⟨fs, hdriven, hfs⟩ := hpolled.driven
  obtain ⟨hlast, hsame, harmed⟩ := Driven.still_idle hpolled.serving hover.noFlight hover.pending rfl (fun _ => rfl) rfl
  refine ⟨_, ⟨_, _, q, hdriven.trans hlast, hover.polls, by rw [List.append_nil, hfs]⟩, hended.trans hsame, ?_, rfl,
    fun ha => harmed.trans (hpolled.disarmed ha)⟩
  show (taken u).pending = rest
  rw [taken_pending, hover.pending, List.tail_cons]

/-! ### ResetWriteProtection (R217, R84) -/

/-- What follows the two frames of `ResetWriteProtection()` (R217; 93 U9, log 20). -/
def afterProtection (p : Params) (rest : List Act) : List Act :=
  (if p.wrsrBusy then [.waitNotBusy] else []) ++ .finishOp .nothing :: rest

/-- The two frames of `ResetWriteProtection()`, and the device after them. -/
theorem protection_frames {s : State} {rest : List Act} (h : Serving s) (hwf : s.params.wf = true)
    (hflight : s.dev.inflight = none) (hidle : isBusy s = false) (hp : s.pending = .resetWriteProtection :: rest) :
    ∃ t i1 i2, Driven s 3 [⟨[0x50#8], i1⟩, ⟨[0x01#8, 0x00#8], i2⟩] t ∧ t.pending = afterProtection s.params rest
      ∧ t.dev.armed = false ∧ ArrayKept s t ∧ isProt t = false ∧ isWel t = isWel s
      ∧ (s.params.wrsrBusy = false → t.dev.inflight = none ∧ isBusy t = false)
      ∧ (s.params.wrsrBusy = true → isBusy t = true ∧ ∃ d, t.dev.inflight = some ⟨.writeStatus, d⟩) := by
  obtain ⟨hdriven1, hsame1, _⟩ := Driven.still_idle h hflight hp rfl (fun _ => rfl) rfl
  have hflight1 := hsame1.inflight.trans hflight
  have hserving1 := hdriven1.serving
  have hin1 := hsame1.trans (sameDevice_taken hflight1)
  obtain ⟨t2, i1, hexec2, hran2, harm2, hstatus2, _, hflightE, _⟩ :=
    ewsrArms _ hserving1.taken.ready hserving1.taken.reference (hin1.isBusy.trans hidle)
  obtain ⟨hdriven2, hpend2, hmem2, hlost2⟩ :=
    Driven.frame_idle (rest := frameOf (.wrsr Config.wrsrValue) :: afterProtection s.params rest) hserving1 hflight1
      (by simp [hp, afterProtection]) hexec2 hran2
  have hsame2 : SameDevice s t2 := ⟨hran2.kept.params.trans hin1.params, hmem2.trans hsame1.mem,
    hlost2.trans hsame1.lost, hstatus2.trans hin1.status, hflightE.trans hin1.inflight⟩
  have hflight2 := hsame2.inflight.trans hflight
  have hserving2 := hdriven2.serving
  have hin2 := hsame2.trans (sameDevice_taken hflight2)
  have harmed2 : (taken t2).dev.armed = true := (pass_armed t2).trans harm2
  obtain ⟨t3, i2, hexec3, hran3, hdisarmed, harray3, _, hnotBusy, hbusy, hprot⟩ :=
    wrsrWritesProtection Config.wrsrValue (taken t2) hserving2.taken.ready hserving2.taken.reference
      (hin2.isBusy.trans hidle) harmed2
  obtain ⟨hdriven3, hpend3, hmem3, hlost3⟩ := Driven.frame_idle hserving2 hflight2 hpend2 hexec3 hran3
  have hdriven := (hdriven1.trans hdriven2).trans hdriven3
  have hwf2 : (taken t2).params.wf = true := by rwa [hin2.params]
  refine ⟨t3, i1, i2, hdriven, hpend3, hdisarmed, arrayKept_of_eq (hmem3.trans hsame2.mem) (hlost3.trans hsame2.lost),
    hprot rfl hwf2, ?_, fun hw => ⟨?_, ?_⟩, fun hw => ?_⟩
  · exact (isWel_of_exec hserving2.taken.reference hwf2 hexec3 nofun).trans hin2.isWel
  · rw [(hnotBusy (by rwa [hin2.params])).2, hin2.inflight, hflight]
  · obtain ⟨_, hbusyBit, _⟩ := Params.wf_bits hwf
    have hstatus := (hnotBusy (by rwa [hin2.params])).1
    rw [hin2.params, hin2.status] at hstatus
    rw [isBusy, hdriven.params, hstatus]
    exact (writeProtection_bit s.dev.status Config.wrsrValue s.params.busyBit hbusyBit).trans hidle
  · obtain ⟨hset, hflight3, _⟩ := hbusy (by rwa [hin2.params])
    exact ⟨hset, hflight3⟩

/-- Settles O49: the two frames, with `wrsrBusy` the wait, and the finishing step of a status write. -/
theorem resetWriteProtectionUnprotects : Obligations.ResetWriteProtectionUnprotects := by
  refine ⟨fun s rest hready href hwf hw hout hflight hidle hp => ?_,
    fun s rest hready href hwf hw hbudget hout hflight hidle hp => ?_, fun s hout hf => ?_⟩
  · obtain ⟨t, i1, i2, hdriven, hpend, hdisarmed, harray, hprot, hwel, hstill, _⟩ :=
      protection_frames ⟨hready, href, hout⟩ hwf hflight hidle hp
    obtain ⟨hflight3, hidle3⟩ := hstill hw
    rw [afterProtection, hw] at hpend
    obtain ⟨hlast, hsame, harmed⟩ := Driven.still_idle hdriven.serving hflight3 hpend rfl (fun _ => rfl) rfl
    have hall := hdriven.trans hlast
    refine ⟨_, i1, i2, hall.run, hall.sent, hsame.isProt.trans hprot, hsame.isBusy.trans hidle3, hsame.isWel.trans hwel,
      harmed.trans hdisarmed, fun a => ?_, ?_, hall.session, hall.serving.ready, rfl⟩
    · obtain ⟨hmem, hlost⟩ := hsame.arrayKept a
      exact ⟨hmem.trans (harray a).1, hlost.trans (harray a).2⟩
    · show (taken t).pending = rest
      rw [taken_pending, hpend]
      rfl
  · obtain ⟨t, i1, i2, hdriven, hpend, hdisarmed, harray, hprot, hwel, _, hbusy⟩ :=
      protection_frames ⟨hready, href, hout⟩ hwf hflight hidle hp
    obtain ⟨hset, d, hd⟩ := hbusy hw
    rw [afterProtection, hw] at hpend
    have hwf3 : t.params.wf = true := by rwa [hdriven.params]
    obtain ⟨u, hover⟩ := wait_over hdriven.serving hset hd (by rwa [hdriven.params]) hpend
    obtain ⟨k, fs, q, hwait, hq, hfs⟩ := hover.driven
    have hall := hdriven.trans hwait
    have hsame := hover.device
    refine ⟨_, u, _, q, hall.run, hall.sent, hq, ?_, ?_, ?_, hsame.inflight, ?_, hover.disarmed hdisarmed, fun a => ?_,
      hover.pending, hall.session, hall.serving.ready, hover.ret⟩
    · rw [List.map_append, hfs]
      rfl
    · rw [hsame.isProt, isProt_finishFlight hwf3, hprot]
    · exact hsame.isBusy.trans (finishedStatus_busy .writeStatus t)
    · rw [hsame.isWel, isWel_finish_writeStatus hwf3, hwel]
    · obtain ⟨hmem, hlost⟩ := hsame.arrayKept a
      exact ⟨hmem.trans (harray a).1, hlost.trans (harray a).2⟩
  · refine ⟨_, step_due hout hf, finishedStatus_busy .writeStatus s, rfl, fun k hk => ?_, fun a => ⟨rfl, rfl⟩, rfl, rfl,
      rfl, rfl, rfl, rfl, rfl⟩
    show (clearMask (bitMask s.params.busyBit) s.dev.status).getLsbD k = _
    rw [clearMask_bit, decide_eq_false hk, Bool.not_false, Bool.and_true]

/-! ### WriteByte, SectorErase, ChipErase (R214 to R216) -/

/-- The command `i` starts the program or erase `op`, at an address inside the array where it has one (R69, R70). -/
structure Writes (p : Params) (i : Instr) (op : FlightOp) : Prop where
  notRead : (encodeFrame i).opc ≠ Config.opcRead
  notWrsr : ∀ v, i ≠ .wrsr v
  notStatus : op ≠ .writeStatus
  accepted : ∃ opc a, (∀ u, endCommand i u = acceptWrite opc a op u) ∧ ∀ x, a = some x → x < p.capacity

theorem Writes.program {p : Params} {a : Addr} (v : Byte) (h : a.toNat < p.capacity) :
    Writes p (.program a v) (.program a.toNat v) :=
  ⟨by show Config.opcProgram ≠ _; decide, nofun, nofun, _, _, fun _ => rfl, fun x hx => Option.some.inj hx ▸ h⟩

theorem Writes.se {p : Params} {a : Addr} (h : a.toNat < p.capacity) : Writes p (.se a) (.sectorErase a.toNat) :=
  ⟨by show Config.opcSe ≠ _; decide, nofun, nofun, _, _, fun _ => rfl, fun x hx => Option.some.inj hx ▸ h⟩

theorem Writes.ce (p : Params) : Writes p .ce .chipErase :=
  ⟨by decide, nofun, nofun, _, none, fun _ => rfl, nofun⟩

theorem WriteReady.serving {s : State} (h : WriteReady s) : Serving s := ⟨h.ready, h.reference, h.quiet⟩

/-- WREN and the frame of `i`: the device is busy with `op`, the array and PROT are as before. -/
theorem write_frames {s : State} {i : Instr} {op : FlightOp} {rest : List Act} (h : WriteReady s)
    (hi : Writes s.params i op) (hp : s.pending = frameOf .wren :: frameOf i :: rest) :
    ∃ t i1 i2 d, Driven s 2 [⟨encode .wren, i1⟩, ⟨encode i, i2⟩] t ∧ t.pending = rest ∧ isBusy t = true
      ∧ t.dev.inflight = some ⟨op, d⟩ ∧ isProt t = isProt s ∧ t.dev.mem = s.dev.mem ∧ t.dev.lost = s.dev.lost := by
  have hserving := h.serving
  have hsame := sameDevice_taken h.noFlight
  have hwf : (taken s).params.wf = true := by rw [hsame.params]; exact h.params_wf
  obtain ⟨t1, i1, hexec1, hran1, hwel1, hbits1, _, hflightW, _⟩ :=
    wrenSetsTheLatch (taken s) hserving.taken.ready hserving.taken.reference (hsame.isBusy.trans h.idle)
  obtain ⟨hdriven1, hpend1, hmem1, hlost1⟩ := Driven.frame_idle hserving h.noFlight hp hexec1 hran1
  have hflight1 := hflightW.trans (hsame.inflight.trans h.noFlight)
  have hprot1 := (isProt_of_exec hserving.taken.reference hwf hexec1 nofun).trans hsame.isProt
  have hidle1 : isBusy t1 = false := by
    obtain ⟨hapart, _, _⟩ := Params.wf_bits hwf
    rw [← h.idle, ← hsame.isBusy, isBusy, hran1.kept.params]
    exact hbits1 _ fun he => hapart (Fin.ext he)
  have hserving1 := hdriven1.serving
  have hsame1 := sameDevice_taken hflight1
  have hparams1 : (taken t1).params = s.params := hsame1.params.trans hdriven1.params
  obtain ⟨opc, a, hend, hrange⟩ := hi.accepted
  obtain ⟨t2, i2, d, hexec2, hran2, hbusy2, hflight2, _⟩ :=
    exec_accepted hserving1.taken.ready hserving1.taken.reference hi.notRead hend (hsame1.isBusy.trans hidle1)
      (hsame1.isWel.trans hwel1) (hsame1.isProt.trans (hprot1.trans h.unprotected)) (by rwa [hparams1])
  obtain ⟨hdriven2, hpend2, hmem2, hlost2⟩ := Driven.frame_idle hserving1 hflight1 hpend1 hexec2 hran2
  have hprot2 := isProt_of_exec hserving1.taken.reference (by rw [hparams1]; exact h.params_wf) hexec2 hi.notWrsr
  exact ⟨t2, i1, i2, d, hdriven1.trans hdriven2, hpend2, hbusy2, hflight2, (hprot2.trans hsame1.isProt).trans hprot1,
    hmem2.trans hmem1, hlost2.trans hlost1⟩

/-- A program or erase and the wait for it: it ends, and the array is what the operation makes of it (R75). -/
theorem write_runs {s : State} {act : Act} {i : Instr} {op : FlightOp} {rest : List Act} (h : WriteReady s)
    (hbudget : s.params.pollBudget = none) (hi : Writes s.params i op) (hp : s.pending = act :: rest)
    (hstill : movesLines act = false) (hsession : ∀ w, sessionAfter act w = w)
    (htop : performInited act (taken s)
      = .next (push [frameOf .wren, frameOf i, .waitNotBusy, .finishOp .nothing] (taken s))) :
    ∃ k t, run k s = .next t ∧ WriteDone s i rest t
      ∧ t.dev.mem = (flightEffect op s).mem ∧ t.dev.lost = (flightEffect op s).lost := by
  obtain ⟨hdriven0, hsame0, _⟩ := Driven.still_idle h.serving h.noFlight hp hstill hsession htop
  generalize htop0 : push [frameOf .wren, frameOf i, .waitNotBusy, .finishOp .nothing] (taken s) = s0 at *
  have hpend0 : s0.pending = frameOf .wren :: frameOf i :: .waitNotBusy :: .finishOp .nothing :: rest := by
    rw [← htop0, push_pending, taken_pending, hp]
    rfl
  have hserving0 := hdriven0.serving
  have hready0 : WriteReady s0 := ⟨hserving0.ready, hserving0.reference, hsame0.isBusy.trans h.idle,
    hsame0.inflight.trans h.noFlight, hsame0.isProt.trans h.unprotected, hserving0.quiet,
    by rw [hsame0.mem]; exact h.mem_wf, by rw [hsame0.params]; exact h.params_wf⟩
  obtain ⟨t, i1, i2, d, hdriven1, hpend1, hbusy1, hflight1, hprot1, hmem1, hlost1⟩ :=
    write_frames hready0 (by rwa [hsame0.params]) hpend0
  have hdriven1 := hdriven0.trans hdriven1
  obtain ⟨u, hover⟩ := wait_over hdriven1.serving hbusy1 hflight1 (by rw [hdriven1.params, hbudget]) hpend1
  obtain ⟨k, fs, q, hwait, hq, hfs⟩ := hover.driven
  have hall := hdriven1.trans hwait
  have hsame := hover.device
  have hwf1 : t.params.wf = true := by rw [hdriven1.params]; exact h.params_wf
  have hwel : isWel u = false := by
    rw [hsame.isWel]
    exact (finishedStatus_rest hi.notStatus t).1
  obtain ⟨hmem, hlost⟩ := flightEffect_congr op hdriven1.params (hmem1.trans hsame0.mem) (hlost1.trans hsame0.lost)
  refine ⟨_, u, hall.run, ⟨⟨_, [q], hall.sent, rfl, by simpa using hq, ?_⟩, hall.serving.ready,
    hsame.isBusy.trans (finishedStatus_busy op t), hwel, ?_, hsame.inflight, hover.pending, hall.session, hall.params,
    hall.serving.quiet, hover.ret⟩, hsame.mem.trans hmem, hsame.lost.trans hlost⟩
  · rw [List.map_append, hfs]
    simp [writeFrames]
  · rw [hsame.isProt, isProt_finishFlight hwf1, hprot1, hsame0.isProt]

theorem lt_of_lt_capacity {p : Params} {a : Nat} (hp : p.wf = true) (h : a < p.capacity) : a < 2 ^ 24 := by
  simp only [Params.wf, Bool.and_eq_true, decide_eq_true_eq] at hp
  obtain ⟨⟨_, hcapacity⟩, _⟩ := hp
  exact lt_of_lt_of_le h hcapacity

/-- `WriteByte(a, v)` to its end: the one byte it writes (R66). -/
theorem writeByte_runs {s : State} {a : Nat} {v : Byte} {rest : List Act} (h : WriteReady s)
    (hrange : a < s.params.capacity) (hbudget : s.params.pollBudget = none) (hdefined : isLost s a = false)
    (hp : s.pending = .writeByte a v :: rest) :
    ∃ k t, run k s = .next t ∧ WriteDone s (.program (operandAddr a) v) rest t
      ∧ t.dev.mem = memWrite a (memRead s.dev.mem a &&& v) s.dev.mem ∧ t.dev.lost = s.dev.lost := by
  have ha := lt_of_lt_capacity h.params_wf hrange
  have hi : Writes s.params (.program (operandAddr a) v) (.program a v) := by
    have hi := Writes.program (p := s.params) (a := operandAddr a) v (by rwa [operandAddr_toNat ha])
    rwa [operandAddr_toNat ha] at hi
  have heffect : flightEffect (.program a v) s
      = { s.dev with mem := memWrite a (memRead s.dev.mem a &&& v) s.dev.mem } := by
    rw [flightEffect, programEffect, hdefined]
    rfl
  obtain ⟨k, t, hrun, hdone, hmem, hlost⟩ := write_runs h hbudget hi hp rfl (fun _ => rfl)
    (by rw [performInited, opWriteByte, withAddr_of_lt ha])
  rw [heffect] at hmem hlost
  exact ⟨k, t, hrun, hdone, hmem, hlost⟩

/-- `SectorErase(a)` to its end: the sector it erases (R67). -/
theorem sectorErase_runs {s : State} {a : Nat} {rest : List Act} (h : WriteReady s) (hrange : a < s.params.capacity)
    (hbudget : s.params.pollBudget = none) (hp : s.pending = .sectorErase a :: rest) :
    ∃ k t, run k s = .next t ∧ WriteDone s (.se (operandAddr a)) rest t
      ∧ t.dev.mem = memErase (sectorIndex a) (sectorIndex a + Config.sectorSize) s.dev.mem
      ∧ t.dev.lost = s.dev.lost.filter (· != sectorIndex a) := by
  have ha := lt_of_lt_capacity h.params_wf hrange
  have hi : Writes s.params (.se (operandAddr a)) (.sectorErase a) := by
    have hi := Writes.se (p := s.params) (a := operandAddr a) (by rwa [operandAddr_toNat ha])
    rwa [operandAddr_toNat ha] at hi
  exact write_runs h hbudget hi hp rfl (fun _ => rfl) (by rw [performInited, opSectorErase, withAddr_of_lt ha])

/-- Settles O46: `writeByte_runs`, read at each address. -/
theorem writeByteEndsWithTheByteWritten : Obligations.WriteByteEndsWithTheByteWritten := by
  intro s a v rest h hrange hbudget hdefined hp
  obtain ⟨k, t, hrun, hdone, hmem, hlost⟩ := writeByte_runs h hrange hbudget hdefined hp
  refine ⟨k, t, hrun, hdone, fun x => ?_, fun x => ?_⟩
  · rw [hmem, memRead_memWrite h.mem_wf]
  · rw [isLost, hlost]
    rfl

/-- Settles O47: `sectorErase_runs`, read at each address. -/
theorem sectorEraseEndsWithTheSectorErased : Obligations.SectorEraseEndsWithTheSectorErased := by
  intro s a rest h hrange hbudget hp
  obtain ⟨k, t, hrun, hdone, hmem, hlost⟩ := sectorErase_runs h hrange hbudget hp
  refine ⟨k, t, hrun, hdone, fun x => ?_, fun x => ?_⟩
  · rw [hmem]
    exact memRead_memErase _ _ _ x
  · rw [isLost, hlost, contains_filter_ne]
    simp only [sectorIndex_eq_iff]
    rfl

/-- Settles O48: `write_runs` for CE, which erases every byte below the capacity. -/
theorem chipEraseEndsWithTheArrayErased : Obligations.ChipEraseEndsWithTheArrayErased := by
  intro s rest h hbudget hp
  obtain ⟨k, t, hrun, hdone, hmem, hlost⟩ := write_runs h hbudget (.ce s.params) hp rfl (fun _ => rfl) rfl
  refine ⟨k, t, hrun, hdone, fun x hx => ?_, fun x => by rw [isLost, hlost]; rfl⟩
  rw [hmem]
  exact (memRead_memErase _ _ _ x).trans (if_pos ⟨Nat.zero_le x, hx⟩)

end Sys2Proof.Machine
end

section
/-! PROOFS. The write session (spec/42_flash_engine_sequences.md R220 to R224, R229, R230): what a buffer leaves in the
array, part after part, and the parts of `WriteIncrementalArray`. -/

namespace Sys2Proof.Machine

open Sys2Proof

/-! ### What a buffer makes of each byte (R220, R230) -/

/-- A byte of the buffer at `c` for its own address, 0xFF elsewhere. -/
def bufferMask (c : Nat) (buf : List Byte) (x : Nat) : Byte :=
  if c ≤ x ∧ x < c + buf.length then buf.getD (x - c) Config.erasedByte else Config.erasedByte

theorem sessionByte_eq (E : List Nat) (c : Nat) (buf : List Byte) (old : Byte) (x : Nat) : sessionByte E c buf old x
    = (if touched c buf.length x ∧ sectorIndex x ∉ E then Config.erasedByte else old) &&& bufferMask c buf x := rfl

theorem and_erasedByte (v : Byte) : v &&& Config.erasedByte = v := BitVec.and_allOnes

theorem erasedByte_and (v : Byte) : Config.erasedByte &&& v = v := BitVec.allOnes_and

/-- A sector is touched exactly when an address of the range lies in it. -/
theorem touched_iff_exists (c n x : Nat) :
    touched c n x ↔ ∃ y, c ≤ y ∧ y < c + n ∧ sectorIndex x = sectorIndex y := by
  constructor
  · intro h
    by_cases hc : c ≤ sectorIndex x
    · exact ⟨sectorIndex x, hc, h.2.2, by unfold sectorIndex Config.sectorSize; omega⟩
    · refine ⟨c, Nat.le_refl c, by omega, ?_⟩
      unfold touched sectorIndex Config.sectorSize at *
      omega
  · rintro ⟨y, hle, hlt, he⟩
    unfold touched
    rw [he]
    unfold sectorIndex Config.sectorSize
    omega

theorem touched_add (c m n x : Nat) : touched c (m + n) x ↔ touched c m x ∨ touched (c + m) n x := by
  unfold touched sectorIndex Config.sectorSize
  omega

/-- The masks of two parts, one after the other, are disjoint: together they are the mask of the whole. -/
theorem bufferMask_append (c : Nat) (b1 b2 : List Byte) (x : Nat) :
    bufferMask c (b1 ++ b2) x = bufferMask c b1 x &&& bufferMask (c + b1.length) b2 x := by
  unfold bufferMask
  rw [List.length_append]
  by_cases h1 : c ≤ x ∧ x < c + b1.length
  · rw [if_pos (by omega), if_pos h1, if_neg (by omega), and_erasedByte, List.getD_append _ _ _ _ (by omega)]
  · rw [if_neg h1, erasedByte_and]
    by_cases h2 : c + b1.length ≤ x ∧ x < c + b1.length + b2.length
    · rw [if_pos (by omega), if_pos h2, List.getD_append_right _ _ _ _ (by omega), Nat.sub_sub]
    · rw [if_neg (by omega), if_neg h2]

/-- The byte after two parts is the byte after the second, from what the first has left; the sectors of the first count
as erased in the second (R230). -/
theorem sessionByte_append {E E' : List Nat} {c : Nat} {b1 b2 : List Byte} (old : Byte) (x : Nat)
    (h : ∀ y, y ∈ E' ↔ y ∈ E ∨ ∃ z, c ≤ z ∧ z < c + b1.length ∧ y = sectorIndex z) :
    sessionByte E' (c + b1.length) b2 (sessionByte E c b1 old x) x = sessionByte E c (b1 ++ b2) old x := by
  have hin : sectorIndex x ∈ E' ↔ sectorIndex x ∈ E ∨ touched c b1.length x := by rw [h, touched_iff_exists]
  simp only [sessionByte_eq, bufferMask_append, List.length_append, touched_add, hin]
  by_cases h1 : touched c b1.length x
  · simp only [eq_true h1, or_true, not_true, and_false, if_false, true_or, BitVec.and_assoc]
  · have hmask : bufferMask c b1 x = Config.erasedByte := if_neg fun hx =>
      h1 ((touched_iff_exists _ _ _).2 ⟨x, hx.1, hx.2, rfl⟩)
    simp only [eq_false h1, or_false, false_or, false_and, if_false, hmask, and_erasedByte, erasedByte_and]

/-! ### Parts of a buffer -/

/-- What has been sent is read off the two traces alone. -/
theorem opsSent_of_wire {ops : List Instr} {s s' t t' : State} (h : OpsSent ops s t) (hs : wire s' = wire s)
    (ht : wire t' = wire t) : OpsSent ops s' t' := by
  obtain ⟨fs, polls, hsent, hrest⟩ := h
  exact ⟨fs, polls, ⟨hsent.whole, by rw [ht, hs]; exact hsent.wire⟩, hrest⟩

/-- Between `s` and `t` the bytes of `buf` have been written at `c` on: their frames, the sectors now erased in the
session, and every byte of the array. -/
structure Stored (s : State) (c : Nat) (buf : List Byte) (t : State) : Prop where
  sent : OpsSent (sessionOps s.session.erased c buf) s t
  erased : ∀ y, y ∈ t.session.erased ↔ y ∈ s.session.erased ∨ ∃ x, c ≤ x ∧ x < c + buf.length ∧ y = sectorIndex x
  mem : ∀ x, memRead t.dev.mem x = sessionByte s.session.erased c buf (memRead s.dev.mem x) x

theorem Stored.nil (s : State) (c : Nat) : Stored s c [] s where
  sent := opsSent_nil rfl
  erased := fun y => ⟨.inl, fun h => h.elim id fun ⟨x, h1, h2, _⟩ => absurd h2 (Nat.not_lt.2 h1)⟩
  mem := fun x => by
    have hmask : bufferMask c [] x = Config.erasedByte := if_neg fun h => absurd h.2 (Nat.not_lt.2 h.1)
    rw [sessionByte_eq, if_neg fun h => Nat.lt_irrefl 0 h.1.1, hmask, and_erasedByte]

/-- Two parts, one after the other, are one (R230). -/
theorem Stored.append {s t u : State} {c : Nat} {b1 b2 : List Byte} (h : Stored s c b1 t)
    (k : Stored t (c + b1.length) b2 u) : Stored s c (b1 ++ b2) u where
  sent := by
    rw [sessionOps_append h.erased]
    exact opsSent_append h.sent k.sent
  erased := fun y => by
    rw [k.erased, h.erased, or_assoc, List.length_append]
    refine or_congr_right ⟨?_, ?_⟩
    · rintro (⟨x, h1, h2, h3⟩ | ⟨x, h1, h2, h3⟩)
      · exact ⟨x, h1, by omega, h3⟩
      · exact ⟨x, by omega, by omega, h3⟩
    · rintro ⟨x, h1, h2, h3⟩
      by_cases hx : x < c + b1.length
      · exact .inl ⟨x, h1, hx, h3⟩
      · exact .inr ⟨x, by omega, by omega, h3⟩
  mem := fun x => by rw [k.mem, h.mem, sessionByte_append _ _ h.erased]

/-- The driver has come from `s` to `t` and written `buf` at `c` on, with `rest` still to do. -/
structure PartWritten (s : State) (c : Nat) (buf : List Byte) (rest : List Act) (t : State) : Prop where
  run : ∃ k, run k s = .next t
  stored : Stored s c buf t
  ready : WriteReady t
  params : t.params = s.params
  pending : t.pending = rest
  lost : t.dev.lost = []
  mode : t.session.mode = s.session.mode
  cursor : t.session.cursor = s.session.cursor

theorem PartWritten.append {s t u : State} {c : Nat} {b1 b2 : List Byte} {mid rest : List Act}
    (h : PartWritten s c b1 mid t) (k : PartWritten t (c + b1.length) b2 rest u) :
    PartWritten s c (b1 ++ b2) rest u := by
  obtain ⟨m, hm⟩ := h.run
  obtain ⟨n, hn⟩ := k.run
  exact ⟨⟨m + n, by rw [run_add, hm]; exact hn⟩, h.stored.append k.stored, k.ready, k.params.trans h.params, k.pending,
    k.lost, k.mode.trans h.mode, k.cursor.trans h.cursor⟩

/-! ### Acts of the driver while the device is idle -/

/-- Neither the session nor where the driver stands has a part in what a program or erase asks for. -/
theorem WriteReady.withDriver {s : State} (h : WriteReady s) (w : Session) (as : List Act) (r : Ret) :
    WriteReady { s with session := w, pending := as, ret := r } :=
  ⟨h.ready, h.reference, h.idle, h.noFlight, h.unprotected, h.quiet, h.mem_wf, h.params_wf⟩

theorem WriteReady.withPending {s : State} (h : WriteReady s) (as : List Act) : WriteReady { s with pending := as } :=
  h.withDriver s.session as s.ret

/-- With nothing in flight the caller's next act is the next step. -/
theorem WriteReady.run_act {s : State} {a : Act} {rest : List Act} (h : WriteReady s) (hp : s.pending = a :: rest) :
    run 1 s = performInited a { s with pending := rest } := by
  have hact := h.serving.run_act hp
  rwa [endings_of_none h.noFlight, taken_of_none h.noFlight, hp] at hact

theorem WriteDone.writeReady {s t : State} {i : Instr} {rest : List Act} (d : WriteDone s i rest t) (h : WriteReady s)
    (hm : memWf t.dev.mem = true) : WriteReady t :=
  ⟨d.ready, by rw [Reference, d.params]; exact h.reference, d.idle, d.noFlight, d.protection.trans h.unprotected,
    d.outside, hm, by rw [d.params]; exact h.params_wf⟩

/-! ### One byte (R220, R223) -/

theorem sectorIndex_eq_of_touched_one {p x : Nat} : touched p 1 x ↔ sectorIndex x = sectorIndex p := by
  unfold touched sectorIndex Config.sectorSize
  omega

theorem exists_sector_one {p y : Nat} : (∃ x, p ≤ x ∧ x < p + 1 ∧ y = sectorIndex x) ↔ y = sectorIndex p := by
  rw [exists_sector_succ]
  exact ⟨fun h => h.elim id fun ⟨x, h1, h2, _⟩ => absurd h2 (Nat.not_lt.2 h1), .inl⟩

theorem bufferMask_one (p : Nat) (v : Byte) (x : Nat) :
    bufferMask p [v] x = if x = p then v else Config.erasedByte := by
  unfold bufferMask
  by_cases hx : x = p
  · rw [if_pos (by simp [hx]), if_pos hx, hx, Nat.sub_self]
    rfl
  · rw [if_neg (by simp only [List.length_singleton]; omega), if_neg hx]

/-- A byte whose sector the session has erased: one PROGRAM. -/
theorem byte_written {s : State} {p : Nat} {v : Byte} {rest : List Act} (h : WriteReady s)
    (hbudget : s.params.pollBudget = none) (hlost : s.dev.lost = []) (hrange : p < s.params.capacity)
    (hin : sectorIndex p ∈ s.session.erased) (hp : s.pending = .writeByte p v :: rest) :
    ∃ t, PartWritten s p [v] rest t := by
  obtain ⟨k, t, hrun, hdone, hmem, hlostT⟩ :=
    writeByte_runs h hrange hbudget (by rw [isLost, hlost]; rfl) hp
  have hready := hdone.writeReady h (by rw [hmem]; exact memWf_memWrite h.mem_wf)
  refine ⟨t, ⟨k, hrun⟩, ⟨?_, fun y => ?_, fun x => ?_⟩, hready, hdone.params, hdone.pending, by rw [hlostT, hlost],
    by rw [hdone.session], by rw [hdone.session]⟩
  · rw [sessionOps, if_pos hin]
    exact hdone.sent
  · rw [hdone.session, List.length_singleton, exists_sector_one]
    exact ⟨.inl, fun hy => hy.elim id fun he => he ▸ hin⟩
  · have hkept : ¬ (touched p [v].length x ∧ sectorIndex x ∉ s.session.erased) := fun ⟨ht, hx⟩ =>
      hx (sectorIndex_eq_of_touched_one.1 ht ▸ hin)
    rw [hmem, memRead_memWrite h.mem_wf, sessionByte_eq, if_neg hkept, bufferMask_one]
    by_cases hx : x = p
    · rw [if_pos hx, if_pos hx, hx]
    · rw [if_neg hx, if_neg hx, and_erasedByte]

/-- A sector erased on first touch, and entered in the session's set (R220). -/
theorem sector_entered {s : State} {p : Nat} {rest : List Act} (h : WriteReady s) (hbudget : s.params.pollBudget = none)
    (hlost : s.dev.lost = []) (hrange : p < s.params.capacity)
    (hp : s.pending = .sectorErase (sectorIndex p) :: .markErased (sectorIndex p) :: rest) :
    ∃ k t, run k s = .next t ∧ OpsSent [.se (operandAddr (sectorIndex p))] s t ∧ WriteReady t ∧ t.params = s.params
      ∧ t.pending = rest ∧ t.dev.lost = []
      ∧ t.session = { s.session with erased := insertRising (sectorIndex p) s.session.erased }
      ∧ ∀ x, memRead t.dev.mem x
        = if sectorIndex x = sectorIndex p then Config.erasedByte else memRead s.dev.mem x := by
  have hself : sectorIndex (sectorIndex p) = sectorIndex p := by unfold sectorIndex Config.sectorSize; omega
  obtain ⟨k, t, hrun, hdone, hmem, hlostT⟩ :=
    sectorErase_runs h (lt_of_le_of_lt (sectorIndex_le p) hrange) hbudget hp
  have hready := hdone.writeReady h (by rw [hmem]; exact memWf_memErase h.mem_wf)
  refine ⟨k + 1, { t with
      session := { t.session with erased := insertRising (sectorIndex p) t.session.erased }, pending := rest },
    by rw [run_add, hrun]; exact hready.run_act hdone.pending, opsSent_of_wire hdone.sent rfl rfl,
    hready.withDriver _ rest t.ret, hdone.params, rfl, ?_, ?_, fun x => ?_⟩
  · show t.dev.lost = []
    rw [hlostT, hlost]
    rfl
  · rw [hdone.session]
  · show memRead t.dev.mem x = _
    rw [hmem, hself, memRead_memErase]
    simp only [sectorIndex_eq_iff]
    rfl

/-- THE FIRST BYTE OF A RUN, behind the erase of its sector where the session has not erased it. -/
theorem first_byte_written {s : State} {p : Nat} {v : Byte} {rest : List Act} (h : WriteReady s)
    (hbudget : s.params.pollBudget = none) (hlost : s.dev.lost = []) (hrange : p < s.params.capacity)
    (hp : s.pending = eraseActs s.session.erased p ++ .writeByte p v :: rest) : ∃ t, PartWritten s p [v] rest t := by
  unfold eraseActs at hp
  split at hp
  · next hin => exact byte_written h hbudget hlost hrange hin hp
  · next hnew =>
    obtain ⟨k, t, hrun, hsent, hready, hparams, hpend, hlostT, hsession, hmem⟩ :=
      sector_entered h hbudget hlost hrange hp
    have hentered : ∀ y, y ∈ t.session.erased ↔ y = sectorIndex p ∨ y ∈ s.session.erased := fun y => by
      rw [hsession]
      exact mem_insertRising
    have hin : sectorIndex p ∈ t.session.erased := (hentered _).2 (.inl rfl)
    obtain ⟨u, hu⟩ := byte_written hready (by rw [hparams, hbudget]) hlostT (by rwa [hparams]) hin hpend
    obtain ⟨j, hj⟩ := hu.run
    refine ⟨u, ⟨k + j, by rw [run_add, hrun]; exact hj⟩, ⟨?_, fun y => ?_, fun x => ?_⟩, hu.ready,
      hu.params.trans hparams, hu.pending, hu.lost, by rw [hu.mode, hsession], by rw [hu.cursor, hsession]⟩
    · have hops := hu.stored.sent
      rw [sessionOps, if_pos hin] at hops
      rw [sessionOps, if_neg hnew]
      exact opsSent_append hsent hops
    · rw [hu.stored.erased, hentered, List.length_singleton, exists_sector_one]
      tauto
    · have hkept : ¬ (touched p [v].length x ∧ sectorIndex x ∉ t.session.erased) := fun ⟨ht, hx⟩ =>
        hx (sectorIndex_eq_of_touched_one.1 ht ▸ hin)
      have hfirst : touched p [v].length x ∧ sectorIndex x ∉ s.session.erased ↔ sectorIndex x = sectorIndex p :=
        ⟨fun hx => sectorIndex_eq_of_touched_one.1 hx.1, fun he => ⟨sectorIndex_eq_of_touched_one.2 he, he ▸ hnew⟩⟩
      rw [hu.stored.mem, sessionByte_eq, sessionByte_eq, if_neg hkept, hmem]
      simp only [hfirst]

/-! ### One run (R220) -/

/-- The bytes of a run, all in one sector, behind its erase on first touch. -/
theorem run_written {bytes : List Byte} : ∀ {s : State} {p : Nat} {rest : List Act}, WriteReady s →
    s.params.pollBudget = none → s.dev.lost = [] → 0 < bytes.length → p + bytes.length ≤ s.params.capacity →
    sectorIndex (p + bytes.length - 1) = sectorIndex p →
    s.pending = eraseActs s.session.erased p ++ (writeActs p bytes ++ rest) → ∃ t, PartWritten s p bytes rest t := by
  induction bytes with
  | nil => exact fun _ _ _ hpos => absurd hpos (Nat.lt_irrefl 0)
  | cons v vs ih =>
    intro s p rest h hbudget hlost _ hrange hsector hp
    rw [List.length_cons] at hrange hsector
    obtain ⟨t, ht⟩ := first_byte_written h hbudget hlost (by omega) hp
    rcases Nat.eq_zero_or_pos vs.length with hnone | hpos
    · obtain rfl := List.eq_nil_of_length_eq_zero hnone
      exact ⟨t, ht⟩
    · have hnext : sectorIndex (p + 1) = sectorIndex p := by
        unfold sectorIndex Config.sectorSize at *
        omega
      have hin : sectorIndex (p + 1) ∈ t.session.erased :=
        (ht.stored.erased _).2 (.inr ⟨p, Nat.le_refl p, Nat.lt_succ_self p, hnext⟩)
      obtain ⟨u, hu⟩ := ih (p := p + 1) (rest := rest) ht.ready (by rw [ht.params, hbudget]) ht.lost hpos
        (by rw [ht.params]; omega)
        (by rw [hnext, ← hsector, show p + 1 + vs.length - 1 = p + (vs.length + 1) - 1 by omega])
        (by rw [ht.pending, eraseActs, if_pos hin]; rfl)
      exact ⟨u, ht.append hu⟩

/-! ### All runs (R220, R221) -/

theorem runs_start_le (c n : Nat) : ∀ r ∈ runs c n, c ≤ r.1 := by
  induction c, n using runs_induction with
  | hzero c => simp [runs_zero]
  | hrun c n hpos ih =>
    rw [runs_of_pos hpos]
    exact List.forall_mem_cons.2 ⟨Nat.le_refl c, fun r hr => le_trans (Nat.le_add_right _ _) (ih r hr)⟩

/-- The runs of a buffer that is not empty: the front one with the first bytes, and those of the rest. -/
theorem runActs_of_pos {c : Nat} {buf : List Byte} (h : 0 < buf.length) :
    runActs c buf = .writeRun c (buf.take (runLength c buf.length))
      :: runActs (c + runLength c buf.length) (buf.drop (runLength c buf.length)) := by
  rw [runActs, runs_of_pos h, List.map_cons, Nat.sub_self, List.drop_zero, runActs, List.length_drop]
  congr 1
  refine List.map_congr_left fun r hr => ?_
  have hstart := runs_start_le _ _ r hr
  rw [List.drop_drop, show runLength c buf.length + (r.1 - (c + runLength c buf.length)) = r.1 - c by omega]

/-- A run taken up is its erase and its bytes in front of what was pending. -/
theorem writeRun_taken {s : State} {p : Nat} {bytes : List Byte} {rest : List Act} (h : WriteReady s)
    (hp : s.pending = .writeRun p bytes :: rest) :
    run 1 s = .next { s with pending := eraseActs s.session.erased p ++ (writeActs p bytes ++ rest) } := by
  rw [h.run_act hp, performInited, opWriteRun_eq, push, List.append_assoc]

/-- ALL RUNS OF A BUFFER, one after the other. -/
theorem runs_written (c n : Nat) : ∀ {s : State} {buf : List Byte} {rest : List Act}, buf.length = n → WriteReady s →
    s.params.pollBudget = none → s.dev.lost = [] → c + buf.length ≤ s.params.capacity →
    s.pending = runActs c buf ++ rest → ∃ t, PartWritten s c buf rest t := by
  induction c, n using runs_induction with
  | hzero c =>
    intro s buf rest hlen h _ hlost _ hp
    obtain rfl := List.eq_nil_of_length_eq_zero hlen
    exact ⟨s, ⟨0, rfl⟩, .nil s c, h, rfl, hp, hlost, rfl, rfl⟩
  | hrun c n hpos ih =>
    intro s buf rest hlen h hbudget hlost hrange hp
    subst hlen
    rw [runActs_of_pos hpos, List.cons_append] at hp
    obtain ⟨hone, _, hle, hsector, _⟩ := runLength_spec (c := c) hpos
    have htake : (buf.take (runLength c buf.length)).length = runLength c buf.length := List.length_take_of_le hle
    generalize runLength c buf.length = r at *
    have htaken := writeRun_taken h hp
    obtain ⟨t, ht⟩ := run_written
      (h.withPending (eraseActs s.session.erased c
        ++ (writeActs c (buf.take r) ++ (runActs (c + r) (buf.drop r) ++ rest))))
      hbudget hlost (by rw [htake]; exact hone) (by rw [htake]; show c + r ≤ s.params.capacity; omega)
      (by rw [htake]; exact hsector) rfl
    obtain ⟨k, hk⟩ := ht.run
    have hfirst : PartWritten s c (buf.take r) (runActs (c + r) (buf.drop r) ++ rest) t :=
      ⟨⟨1 + k, by rw [run_add, htaken]; exact hk⟩,
        ⟨opsSent_of_wire ht.stored.sent rfl rfl, ht.stored.erased, ht.stored.mem⟩, ht.ready, ht.params, ht.pending,
        ht.lost, ht.mode, ht.cursor⟩
    obtain ⟨u, hu⟩ := ih (buf := buf.drop r) (List.length_drop ..) ht.ready (by rw [hfirst.params, hbudget]) ht.lost
      (by rw [hfirst.params, List.length_drop]; omega) hfirst.pending
    have hall := hfirst.append (by rwa [htake])
    rw [List.take_append_drop] at hall
    exact ⟨u, hall⟩

/-! ### WriteIncrementalArray (R220, R229, R230) -/

/-- The pieces of a `WriteIncrementalArray(buf)` at the cursor `c`, in front of the caller's acts (R220; log 24). -/
def incrementalActs (c : Nat) (buf : List Byte) (rest : List Act) : List Act :=
  runActs c buf ++ .advanceCursor buf.length :: .finishOp .nothing :: rest

/-- An open session takes up a buffer whose range lies in the array. -/
theorem incremental_taken {s : State} {buf : List Byte} {rest : List Act} (h : WriteReady s)
    (hmode : s.session.mode = .opened) (hrange : s.session.cursor + buf.length ≤ s.params.capacity)
    (hp : s.pending = .writeIncrementalArray buf :: rest) :
    run 1 s = .next { s with pending := incrementalActs s.session.cursor buf rest } := by
  have hfits : rangeFits s.session.cursor buf.length = true := by
    rcases Nat.eq_zero_or_pos buf.length with hzero | hpos
    · rw [rangeFits, hzero]
      rfl
    · have hlast : s.session.cursor + buf.length - 1 < 2 ^ Config.addrBits := lt_of_lt_capacity h.params_wf (by omega)
      rw [rangeFits, addrFits, decide_eq_true hlast, Bool.or_true]
  rw [h.run_act hp]
  simp only [performInited, opWriteIncrementalArray, hmode, hfits, if_true, push, incrementalActs, List.append_assoc,
    List.cons_append, List.nil_append]

/-- Settles O55: the runs, and the advance of the cursor behind them. -/
theorem incrementalWriteStoresTheBuffer : Obligations.IncrementalWriteStoresTheBuffer := by
  intro s buf rest h hbudget hlost hmode hrange hp
  have htaken := incremental_taken h hmode hrange hp
  obtain ⟨t, ht⟩ := runs_written s.session.cursor buf.length rfl
    (h.withPending (incrementalActs s.session.cursor buf rest)) hbudget hlost hrange rfl
  obtain ⟨k, hk⟩ := ht.run
  have hadvance := ht.ready.run_act ht.pending
  have hfinish := (ht.ready.withDriver { t.session with cursor := t.session.cursor + buf.length }
    (.finishOp .nothing :: rest) t.ret).run_act rfl
  refine ⟨1 + (k + (1 + 1)), { t with
    session := { t.session with cursor := t.session.cursor + buf.length }, pending := rest, ret := .nothing }, ?_, ?_⟩
  · rw [run_add, htaken, andThen_next, run_add, hk, andThen_next, run_add, hadvance]
    exact hfinish
  · have hstored := ht.stored
    exact ⟨opsSent_of_wire hstored.sent rfl rfl, ht.ready.withDriver _ rest .nothing, ht.params, rfl, ht.lost,
      ht.mode.trans hmode, congrArg (· + buf.length) ht.cursor, hstored.erased, hstored.mem, rfl⟩

theorem SessionWritten.stored {s t : State} {buf : List Byte} {rest : List Act} (h : SessionWritten s buf rest t) :
    Stored s s.session.cursor buf t := ⟨h.sent, h.erased, h.mem⟩

/-- Settles O56: two calls store one after the other what one call stores of the joined buffer (`Stored.append`), and
canonical arrays that read alike are the same (`mem_ext`). -/
theorem splittingACallChangesNothing : Obligations.SplittingACallChangesNothing := by
  intro s b1 b2 rest h hbudget hlost hmode hrange
  obtain ⟨k1, t1, hrun1, hone⟩ := incrementalWriteStoresTheBuffer
    { s with pending := .writeIncrementalArray (b1 ++ b2) :: rest } (b1 ++ b2) rest (h.withPending _) hbudget hlost
    hmode (by rw [List.length_append]; exact hrange) rfl
  obtain ⟨j, u, hrunU, hfirst⟩ := incrementalWriteStoresTheBuffer
    { s with pending := .writeIncrementalArray b1 :: .writeIncrementalArray b2 :: rest } b1
    (.writeIncrementalArray b2 :: rest) (h.withPending _) hbudget hlost hmode
    (by show s.session.cursor + b1.length ≤ s.params.capacity; omega) rfl
  have hparams : u.params = s.params := hfirst.params
  have hcursor : u.session.cursor = s.session.cursor + b1.length := hfirst.cursor
  obtain ⟨k2, t2, hrun2, hsecond⟩ := incrementalWriteStoresTheBuffer u b2 rest hfirst.ready (by rw [hparams, hbudget])
    hfirst.lost hfirst.mode (by rw [hcursor, hparams]; omega) hfirst.pending
  have hboth := hfirst.stored.append (by rw [← hfirst.cursor]; exact hsecond.stored)
  have hwhole := hone.stored
  refine ⟨k1, t1, j + k2, t2, hrun1, by rw [run_add, hrunU]; exact hrun2, hone.pending, hsecond.pending, ?_,
    hone.mode.trans hsecond.mode.symm, ?_, fun y => (hwhole.erased y).trans (hboth.erased y).symm,
    opsSent_of_wire hwhole.sent rfl rfl, opsSent_of_wire hboth.sent rfl rfl⟩
  · exact mem_ext hone.ready.mem_wf hsecond.ready.mem_wf fun x => (hwhole.mem x).trans (hboth.mem x).symm
  · rw [hone.cursor, hsecond.cursor, hcursor, List.length_append, Nat.add_assoc]

end Sys2Proof.Machine
end

section
/-! PROOFS. The exceptions (spec/60_exceptions.md): the order of the faults of PROGRAM, SE and CE (R254), the wait
for DONE that is never stuck (R263), and what is refused before `Init` (R264). -/

namespace Sys2Proof.Machine

open Sys2Proof

/-! ### The faults of PROGRAM, SE and CE (R69, R71, R73, R82, R254) -/

theorem FrameTaken.isWel {s u : State} {i : Instr} (h : FrameTaken s i u) : isWel u = isWel s := by
  rw [Machine.isWel, Machine.isWel, h.params, h.status]

theorem FrameTaken.isProt {s u : State} {i : Instr} (h : FrameTaken s i u) : isProt u = isProt s := by
  rw [Machine.isProt, Machine.isProt, h.params, h.status]

/-- At the end of a frame the tests of R254 see what they would have seen before it. -/
theorem FrameTaken.writeGate {s u : State} {i : Instr} (h : FrameTaken s i u) (opc : Byte) (a : Option Nat) :
    writeGate opc a u = writeGate opc a s := by
  simp only [Machine.writeGate, h.isBusy, h.isWel, h.isProt, h.params]

/-- The fault that the tests of R254 find in the state before the frame is the command's. -/
theorem exec_fault_of_writeGate {i : Instr} {opc : Byte} {a : Option Nat} {op : FlightOp} {s : State} {f : Fault}
    (h : Ready s) (hr : Reference s) (hi : (encodeFrame i).opc ≠ Config.opcRead)
    (hend : ∀ u, endCommand i u = acceptWrite opc a op u) (hgate : writeGate opc a s = some f) :
    exec i s = .fault f :=
  exec_fault_of_endCommand h hr hi fun u hu => by
    rw [hend, acceptWrite, hu.writeGate, hgate]
    rfl

/-- Settles O25: each clause is one of the tests of `writeGate`, those before it having passed. -/
theorem writeFaultsInOrder : Obligations.WriteFaultsInOrder := by
  intro i opc a s hready hreference hcommand
  have hfault : ∀ f, writeGate opc a s = some f → exec i s = .fault f := by
    rcases hcommand with ⟨x, v, rfl, rfl, rfl⟩ | ⟨x, rfl, rfl, rfl⟩ | ⟨rfl, rfl, rfl⟩
    · exact fun f => exec_fault_of_writeGate hready hreference (by decide : Config.opcProgram ≠ Config.opcRead)
        fun _ => rfl
    · exact fun f => exec_fault_of_writeGate hready hreference (by decide : Config.opcSe ≠ Config.opcRead)
        fun _ => rfl
    · exact fun f => exec_fault_of_writeGate hready hreference (by decide : Config.opcCe ≠ Config.opcRead)
        fun _ => rfl
  refine ⟨fun hbusy => hfault _ ?_, fun hidle hwel => hfault _ ?_, fun hidle hwel hprot => hfault _ ?_,
    fun hidle hwel hprot x hx hbeyond => hfault _ ?_⟩
  · simp [writeGate, hbusy]
  · simp [writeGate, hidle, hwel]
  · simp [writeGate, hidle, hwel, hprot]
  · simp [writeGate, hidle, hwel, hprot, hx, hbeyond]

/-! ### The wait for DONE (R143, R263; log 13) -/

/-- The answer is not the stuck state of R263(1). -/
abbrev NotStuck (r : Result) : Prop := r ≠ .fault .stuckOnDone

theorem NotStuck.andThen {r : Result} {f : State → Result} (h : NotStuck r) (k : ∀ t, NotStuck (f t)) :
    NotStuck (andThen r f) := by
  cases r with
  | next t => exact k t
  | fault e => exact h
  | refused e => nofun

theorem NotStuck.withAddr {a : Nat} {f : Addr → Result} (k : ∀ x, NotStuck (f x)) : NotStuck (withAddr a f) := by
  unfold Machine.withAddr
  split
  · exact k _
  · nofun

/-- The start of a driver operation that takes an address. -/
theorem withAddr_next_notStuck (a : Nat) (g : Addr → State) : NotStuck (withAddr a fun x => .next (g x)) :=
  .withAddr fun _ => nofun

theorem MidStop.ne_stuckOnDone {s : State} {bs : List Byte} {f : Fault} (h : MidStop s bs f) : f ≠ .stuckOnDone := by
  obtain ⟨_, outs, ins, v, rest, _, _, _, hmid⟩ := h
  cases hmid <;> nofun

/-- A whole transaction, in any state: it is refused, it ends, or the device stops it inside the frame. -/
theorem transaction_notStuck (r : Request) (s : State) : NotStuck (transaction r s) := by
  cases hgate : transactionGate s with
  | some e =>
    rw [transaction, hgate]
    nofun
  | none =>
    rcases transaction_cases r hgate with ⟨t, _, _, ht, _⟩ | ⟨f, hf, hmid⟩
    · exact ht ▸ endFrame_res.2
    · exact hf ▸ fun hstuck => hmid.ne_stuckOnDone (Host.Outcome.fault.inj hstuck)

theorem exec_notStuck (i : Instr) (s : State) : NotStuck (exec i s) :=
  exec_transaction i s ▸ (transaction_notStuck _ s).andThen fun _ => nofun

theorem beginFine_notStuck (r : Request) (s : State) : NotStuck (beginFine r s) := by
  unfold beginFine
  split
  · nofun
  · next hgate =>
    obtain ⟨t, ht, _⟩ := startFrame_next r hgate
    rw [ht]
    nofun

theorem admittedTransaction_notStuck (r : Request) (s : State) : NotStuck (admittedTransaction r s) := by
  unfold admittedTransaction
  split
  · exact transaction_notStuck r s
  · nofun

theorem opInit_notStuck (s : State) : NotStuck (opInit s) := by
  unfold opInit
  split
  · exact NotStuck.andThen (setCsn_res _ _).2 fun _ => nofun
  · nofun

theorem opPutByte_notStuck (v : Byte) (s : State) : NotStuck (opPutByte v s) := by
  unfold opPutByte
  split
  · nofun
  · exact NotStuck.andThen (putByte_res v s).2 fun _ => nofun

theorem opSetClock_notStuck (b : Level) (s : State) : NotStuck (opSetClock b s) := by
  unfold opSetClock
  split
  · nofun
  · split
    · exact NotStuck.andThen (riseWith_res _ _).2 fun _ => nofun
    · nofun

theorem opSelectChip_notStuck (sel : Bool) (s : State) : NotStuck (opSelectChip sel s) := by
  unfold opSelectChip
  split
  · nofun
  · exact NotStuck.andThen (setCsn_res _ _).2 fun _ => nofun

theorem opTransaction_notStuck (opc : Byte) (addr : Option Nat) (dir : Dir) (buf : List Byte) (s : State) :
    NotStuck (opTransaction opc addr dir buf s) := by
  unfold opTransaction
  cases addr with
  | none => exact admittedTransaction_notStuck _ s
  | some a => exact .withAddr fun _ => admittedTransaction_notStuck _ s

theorem opFrame_notStuck (outs : List Byte) (s : State) : NotStuck (opFrame outs s) := by
  unfold opFrame
  split
  · exact exec_notStuck _ s
  · nofun

theorem opFrameFine_notStuck (outs : List Byte) (s : State) : NotStuck (opFrameFine outs s) := by
  unfold opFrameFine
  split
  · exact beginFine_notStuck _ _
  · nofun

theorem opPutByteFine_notStuck (v : Byte) (s : State) : NotStuck (opPutByteFine v s) := by
  unfold opPutByteFine
  split <;> nofun

theorem opWriteIncrementalArray_notStuck (buf : List Byte) (s : State) : NotStuck (opWriteIncrementalArray buf s) := by
  unfold opWriteIncrementalArray
  split
  · nofun
  · split <;> nofun

theorem opPoll_notStuck (polls : Nat) (s : State) : NotStuck (opPoll polls s) := by
  unfold opPoll
  split <;> nofun

theorem opPollTest_notStuck (polls : Nat) (s : State) : NotStuck (opPollTest polls s) := by
  unfold opPollTest
  split <;> nofun

/-- No act of a caller or of the driver, in any state, is a wait for DONE. -/
theorem performInited_notStuck (a : Act) (s : State) : NotStuck (performInited a s) := by
  cases a with
  | init => exact opInit_notStuck s
  | putByte v => exact opPutByte_notStuck v s
  | getByte => exact opPutByte_notStuck _ s
  | setClock b => exact opSetClock_notStuck b s
  | selectChip sel => exact opSelectChip_notStuck sel s
  | transaction opc addr dir buf => exact opTransaction_notStuck opc addr dir buf s
  | frame outs => exact opFrame_notStuck outs s
  | frameFine outs => exact opFrameFine_notStuck outs s
  | putByteFine v => exact opPutByteFine_notStuck v s
  | readByte x => unfold performInited opReadByte; exact withAddr_next_notStuck x _
  | readArray x n => unfold performInited opReadArray; exact withAddr_next_notStuck x _
  | writeByte x v => unfold performInited opWriteByte; exact withAddr_next_notStuck x _
  | sectorErase x => unfold performInited opSectorErase; exact withAddr_next_notStuck x _
  | beginWrite x => unfold performInited opBeginWrite; exact withAddr_next_notStuck x _
  | writeIncrementalArray buf => exact opWriteIncrementalArray_notStuck buf s
  | poll polls => exact opPoll_notStuck polls s
  | pollTest polls => exact opPollTest_notStuck polls s
  | _ => nofun

theorem perform_notStuck (a : Act) (s : State) : NotStuck (perform a s) := by
  unfold perform
  split
  · exact performInited_notStuck a s
  · nofun

theorem framerStep_notStuck (s : State) : NotStuck (framerStep s) := by
  unfold framerStep
  split
  · nofun
  · split
    · nofun
    · exact endFrame_res.2
  · nofun

/-- Between two exchanges of a frame DONE is set, so the block goes on (R23, R143). -/
theorem BlockInv.not_waitsForever {s : State} (h : BlockInv s.params s.block) (hx : s.block.xact = false)
    (hphase : s.block.phase ≠ .idle) : waitsForever s = false := by
  cases hp : s.params.transport with
  | bitbang => simp [waitsForever, hp]
  | peripheral => simp [waitsForever, hp, h.done_set hp hphase hx]

theorem resume_notStuck {s : State} (h : BlockInv s.params s.block) (hb : blockBusy s = true) :
    NotStuck (resume s) := by
  unfold resume
  split
  · exact NotStuck.andThen (transportStep_res s).2 fun _ => nofun
  · next hx =>
    have hxact : s.block.xact = false := Bool.eq_false_of_not_eq_true hx
    have hphase : s.block.phase ≠ .idle := by simpa [blockBusy, hxact] using hb
    rw [h.not_waitsForever hxact hphase]
    exact framerStep_notStuck s

theorem callerStep_notStuck (s : State) : NotStuck (callerStep s) := by
  unfold callerStep
  split
  · nofun
  · split
    · nofun
    · exact perform_notStuck _ _

theorem insideStep_notStuck {s : State} (h : Inv s) : NotStuck (insideStep s) := by
  unfold insideStep
  split
  · nofun
  · unfold blockStep
    split
    · next hb => exact resume_notStuck h.tick.block hb
    · exact callerStep_notStuck _

theorem secondCallerStep_notStuck (a : Act) (s : State) : NotStuck (secondCallerStep a s) := by
  unfold secondCallerStep
  split
  · nofun
  · exact (perform_notStuck a _).andThen fun _ => nofun

/-- Settles O38: of all the agents' steps only the framer's waits for DONE, and the invariant has it set there. -/
theorem neverStuckOnDone : Obligations.NeverStuckOnDone := by
  intro s h
  unfold step takeTurn
  split
  · exact insideStep_notStuck h
  · next rest ho => exact heard_of_cons ho ▸ insideStep_notStuck h.heard
  · nofun
  · exact secondCallerStep_notStuck _ _

/-! ### Before Init (R264, R283) -/

/-- Settles O42: `perform` tests for `Init` before it looks at the act. -/
theorem nothingBeforeInit : Obligations.NothingBeforeInit := by
  intro a s hinited hact
  exact if_neg (by simp [hinited, hact])

end Sys2Proof.Machine
end
